-- ==== Sys2Proof/Word.lean ====
section
/-! DEFINITION. The word types of the block: bytes and 16-bit fields.

R6: every value is unsigned; bit 0 is the least significant bit.  The widths are those of R5's last paragraph.
-/
namespace Sys2Proof

/-- One byte: `SCK_PERIOD`, `POLL1`, `POLL2`, `OPCODE`, a frame byte (R5). -/
abbrev Byte := BitVec 8

/-- One 16-bit field: `ADDRESS`, `TIMEOUT`, `wValue`, `wIndex` (R5, R82). -/
abbrev Half := BitVec 16

end Sys2Proof
end

