-- ==== Sys2Proof/Syntax.lean ====
section
/-! DEFINITION. The command port's input (R80, R81) and the instruction set: one constructor of `Instr` for
each row of spec/opcode_table.json (R83, R84).
-/
namespace Sys2Proof

/-- An 8-byte setup packet `data[0..7]`, in packet order (R81).  `b0` is bmRequestType, `b1` bRequest,
`b3 ‖ b2` wValue, `b5 ‖ b4` wIndex, `b7 ‖ b6` wLength. -/
structure Packet where
  b0 : Byte
  b1 : Byte
  b2 : Byte
  b3 : Byte
  b4 : Byte
  b5 : Byte
  b6 : Byte
  b7 : Byte
  deriving DecidableEq, Repr

/-- One command as it stands on the hardware port (R80): the 2-bit `KIND`, the setup packet (meaningful for
`KIND = 0b00`) and the strobe's data byte (meaningful for `KIND = 0b10`). -/
structure PortCommand where
  kind : BitVec 2
  setup : Packet
  strobe : Byte
  deriving DecidableEq, Repr

/-- A generic request as the surrounding logic outside the block receives it: what the OPEN parameter
`GPIO_EFFECT` of R5 depends on (requests 1 to 4 and 13). -/
inductive GpioRequest where
  | read
  | write (wValue wIndex : Half)
  | clr (wValue wIndex : Half)
  | set (wValue wIndex : Half)
  | ddrwrite (wValue wIndex : Half)
  deriving DecidableEq, Repr

/-- The commands of the block (R84, R85, R86): one constructor per row of the opcode table, with the operands
the row's rule names.  Fields a command ignores (R91) are not operands. -/
inductive Instr where
  /-- Row 0x000.  Operands `data[0..7]` (R102). -/
  | echo (data : Packet)
  /-- Row 0x001 (R103). -/
  | read
  /-- Row 0x002 (R104). -/
  | write (wValue wIndex : Half)
  /-- Row 0x003 (R105). -/
  | clr (wValue wIndex : Half)
  /-- Row 0x004 (R106). -/
  | set (wValue wIndex : Half)
  /-- Row 0x005: `sck` is `wValue[7:0]`, `rst` is `wIndex[7:0]` (R180). -/
  | powerup (sck rst : Byte)
  /-- Row 0x006 (R181). -/
  | powerdown
  /-- Row 0x007: the payload `data[2..5]` (R129). -/
  | spi (d0 d1 d2 d3 : Byte)
  /-- Row 0x008: `p1` is `wValue[7:0]`, `p2` is `wValue[15:8]` (R160). -/
  | pollBytes (p1 p2 : Byte)
  /-- Row 0x009: `addr` is `wIndex` (R145). -/
  | flashRead (addr : Half)
  /-- Row 0x00A: `addr` is `wIndex`, `timeout` is `wValue` (R161). -/
  | flashWrite (addr timeout : Half)
  /-- Row 0x00B: `addr` is `wIndex` (R146). -/
  | eepromRead (addr : Half)
  /-- Row 0x00C: `addr` is `wIndex`, `timeout` is `wValue` (R162). -/
  | eepromWrite (addr timeout : Half)
  /-- Row 0x00D (R107). -/
  | ddrwrite (wValue wIndex : Half)
  /-- Row 0x00E: the payload `data[2]` (R130). -/
  | spi1 (d0 : Byte)
  /-- Row 0x00F, mask 0x3FF: request code 15 (R108). -/
  | unknown0F
  /-- Row 0x010, mask 0x3F0: request codes 16 to 31, `low` is the code's bits [3:0] (R108). -/
  | unknown10 (low : BitVec 4)
  /-- Row 0x020, mask 0x3E0: request codes 32 to 63 (R108). -/
  | unknown20 (low : BitVec 5)
  /-- Row 0x040, mask 0x3C0: request codes 64 to 127 (R108). -/
  | unknown40 (low : BitVec 6)
  /-- Row 0x080, mask 0x380: request codes 128 to 255 (R108). -/
  | unknown80 (low : BitVec 7)
  /-- Row 0x100, mask 0x300: the read strobe (R147). -/
  | inByte
  /-- Row 0x200, mask 0x300: the write strobe with its data byte (R163). -/
  | outByte (d : Byte)
  /-- Row 0x300, mask 0x300: the reserved kind (R86). -/
  | reserved
  deriving DecidableEq, Repr

end Sys2Proof
end

