-- ==== Sys2Proof/Machine/Lines.lean ====
section
/-! DEFINITION. The programming lines, the sequencer's positions and the line events a run records.

R9: a model that observes the lines records them as a trace.  The free values of Config are functions of that
trace, so its types stand before Config.
-/
namespace Sys2Proof.Machine

/-- The four output lines, in the bit order of `LINE_OE` and `LINE_OL` (R29): IND 0, RST 1, SCK 2, MOSI 3. -/
inductive Line where
  | ind
  | rst
  | sck
  | mosi
  deriving DecidableEq, Repr

/-- The two halves of a bit cycle (R33). -/
inductive Phase where
  | setup
  | high
  deriving DecidableEq, Repr

/-- The sequencer state `SEQ` (R33). -/
inductive Seq where
  | idle
  /-- A TRANSFER of `n` bytes is at byte index `byte`, bit index `bit`. -/
  | xfer (n byte bit : Nat) (phase : Phase)
  /-- The poller is waiting for or performing read attempt `k`, counted from 1. -/
  | poll (k : Nat)
  deriving DecidableEq, Repr

/-- The build-time choice of transfer engine (R5, R124, R125). -/
inductive Strategy where
  | bitbang
  | hwshift
  deriving DecidableEq, Repr, Inhabited

/-- What happens on the lines, and the time between (R7, R121, R180, R181).  A trace is a list of these,
newest first. -/
inductive LineEvent where
  /-- POWERUP or POWERDOWN writes `LINE_OE` and `LINE_OL` as one event (R180, R181). -/
  | lines (oe ol : BitVec 4)
  /-- `Drive(l, v)`. -/
  | drive (l : Line) (v : Bool)
  /-- MOSI takes a level no rule fixes, after a bit cycle (R127). -/
  | mosiRest (v : Bool)
  /-- `Wait(units)`, with the position SEQ holds during it (R33, R121). -/
  | wait (seq : Seq) (units : Nat)
  /-- Time beyond the calibrated waits, in nanoseconds: `OVERHEAD` (R5, R123). -/
  | overhead (ns : Nat)
  /-- `SampleMISO()` returned `v` (R121). -/
  | sample (v : Bool)
  deriving DecidableEq, Repr

end Sys2Proof.Machine
end

