-- ==== Sys2Proof/Config.lean ====
section
/-! DEFINITION. The implementation parameters of R5 and the free values.

A parameter with a value taken in R5 is a field of `Build`, and a definition holds this machine's own value of it.  A parameter R5 leaves OPEN, and every value the spec calls
a draw or "any value", is an opaque constant: nothing can be proved of it, so a claim holds whatever it is.
-/
namespace Sys2Proof

/-- The two legal widths of `EEPROM_DOUBLE_WIDTH` (R5). -/
inductive DoubleWidth where
  | w16
  | w17
  deriving DecidableEq, Repr

/-- The width in bits. -/
def DoubleWidth.bits : DoubleWidth → Nat
  | .w16 => 16
  | .w17 => 17

/-- The parameters of R5 with a value taken: a build of the block.  What depends on one of them takes it, or the build, as
an argument (93 I11, I15, I21). -/
structure Build where
  /-- `UNIT_NS`. -/
  unitNs : Nat
  /-- `EEPROM_DOUBLE_WIDTH`. -/
  width : DoubleWidth
  /-- `POLL_ELAPSED_WRAP16`. -/
  wrap16 : Bool
  /-- `POLL_FLIP_MASK`. -/
  flipMask : Byte
  /-- `OPC_FLASH_READ`. -/
  opcFlashRead : Byte
  /-- `OPC_EEPROM_READ`. -/
  opcEepromRead : Byte
  /-- `OPC_FLASH_WRITE`. -/
  opcFlashWrite : Byte
  /-- `OPC_EEPROM_WRITE`. -/
  opcEepromWrite : Byte
  /-- `SPI1_CODE`. -/
  spi1Code : Byte
  deriving DecidableEq, Repr

namespace Config

/-- `STRATEGY`, OPEN (R5): the build-time choice.  Log entry 8. -/
opaque strategy : Machine.Strategy

/-- `UNIT_NS` (R5). -/
def unitNs : Nat := 500

/-- `ZERO_PERIOD_HALF`, OPEN (R5, R123): the half-period in units when `SCK_PERIOD = 0`.  Log entry 9. -/
opaque zeroPeriodHalf : Nat

/-- `EEPROM_DOUBLE_WIDTH` (R5). -/
def eepromDoubleWidth : DoubleWidth := .w16

/-- `POLL_ELAPSED_WRAP16` (R5). -/
def pollElapsedWrap16 : Bool := false

/-- `POLL_FLIP_MASK` (R5, R164). -/
def pollFlipMask : Byte := 0x60#8

/-- `OPC_FLASH_READ` (R5, R26). -/
def opcFlashRead : Byte := 0x20#8

/-- `OPC_EEPROM_READ` (R5, R26). -/
def opcEepromRead : Byte := 0xA0#8

/-- `OPC_FLASH_WRITE` (R5, R26). -/
def opcFlashWrite : Byte := 0x40#8

/-- `OPC_EEPROM_WRITE` (R5, R26). -/
def opcEepromWrite : Byte := 0xC0#8

/-- `SPI1_CODE` (R5, R84). -/
def spi1Code : Byte := 14#8

/-- The build with the values R5 takes: this machine's. -/
def build : Build where
  unitNs := unitNs
  width := eepromDoubleWidth
  wrap16 := pollElapsedWrap16
  flipMask := pollFlipMask
  opcFlashRead := opcFlashRead
  opcEepromRead := opcEepromRead
  opcFlashWrite := opcFlashWrite
  opcEepromWrite := opcEepromWrite
  spi1Code := spi1Code

/-- `HOST_PATIENCE`, OPEN (R5, R224), in nanoseconds: the block never uses it.  Log entry 22. -/
opaque hostPatience : Nat

/-- `GPIO_EFFECT`, OPEN (R5, R104 to R107): what a generic request does to the pins outside the block.
Log entry 7. -/
opaque gpioEffect : GpioRequest → Nat → Nat

/-- `OVERHEAD`, OPEN (R5, R123): nanoseconds of other work after the given line history.  Log entry 6. -/
opaque overhead : List Machine.LineEvent → Nat

/-- The target oracle of R31: the bit the target answers after the given line history.  Log entry 2. -/
opaque misoBit : List Machine.LineEvent → Bool

/-- The level MOSI takes after a bit cycle, which R127 leaves open.  Log entry 5. -/
opaque mosiRest : List Machine.LineEvent → Bool

/-- `draw()` of R7, the n-th one: a byte under no law.  Log entry 4. -/
opaque drawByte : Nat → Byte

/-- `RDATA[i]` for an i past the end of the n-th reply, which R87 leaves unspecified.  Log entry 21. -/
opaque rdataPad : Nat → Nat → Byte

/-- `RLEN` beside the n-th reply when that is no `Immediate`: R87 ties it to `Immediate` alone.  Log entry 31. -/
opaque rlenPad : Nat → BitVec 4

end Config
end Sys2Proof
end

