-- ==== Sys2Proof/WellFormed.lean ====
section
/-! DEFINITION. Which terms of `Instr` a decoder can produce.

Every operand field has exactly its width, so every value of it is legal (R109).  The one thing a term can get
wrong is an ECHO whose packet carries another request code than 0 in `data[1]` (R102, R84).
-/
namespace Sys2Proof

/-- The term is one a command word stands for. -/
def Instr.wellFormed : Instr → Bool
  | .echo data => data.b1 == 0
  | .read => true
  | .write _ _ => true
  | .clr _ _ => true
  | .set _ _ => true
  | .powerup _ _ => true
  | .powerdown => true
  | .spi _ _ _ _ => true
  | .pollBytes _ _ => true
  | .flashRead _ => true
  | .flashWrite _ _ => true
  | .eepromRead _ => true
  | .eepromWrite _ _ => true
  | .ddrwrite _ _ => true
  | .spi1 _ => true
  | .unknown0F => true
  | .unknown10 _ => true
  | .unknown20 _ => true
  | .unknown40 _ => true
  | .unknown80 _ => true
  | .inByte => true
  | .outByte _ => true
  | .reserved => true

end Sys2Proof
end

