-- ==== Sys2Proof/Decode.lean ====
section
/-! DEFINITION. The decoder (R83, R84, R85, R100), the encoder (R93), the opcode table as rows, and the
assembler's text form (R93).
-/
namespace Sys2Proof

/-- Bits [7:0] of a 16-bit field (R82). -/
def loByte (v : Half) : Byte := v.extractLsb' 0 8

/-- Bits [15:8] of a 16-bit field (R82). -/
def hiByte (v : Half) : Byte := v.extractLsb' 8 8

/-- `hi ‖ lo`: a 16-bit field from its two packet bytes, little-endian in the packet (R65, R82). -/
def joinBytes (hi lo : Byte) : Half := hi ++ lo

/-- `wValue = data[3] ‖ data[2]` (R82). -/
def Packet.wValue (p : Packet) : Half := joinBytes p.b3 p.b2

/-- `wIndex = data[5] ‖ data[4]` (R82). -/
def Packet.wIndex (p : Packet) : Half := joinBytes p.b5 p.b4

/-- The eight bytes in packet order. -/
def Packet.bytes (p : Packet) : List Byte := [p.b0, p.b1, p.b2, p.b3, p.b4, p.b5, p.b6, p.b7]

/-- The packet as the 64-bit word `S` of R81, `data[i] = S[8i+7:8i]`. -/
def Packet.word (p : Packet) : BitVec 64 :=
  p.b7 ++ p.b6 ++ p.b5 ++ p.b4 ++ p.b3 ++ p.b2 ++ p.b1 ++ p.b0

/-- The 10-bit selector `SEL = KIND ‖ B`: B is bRequest for SETUP and 0 for the other kinds (R83). -/
def selector (c : PortCommand) : BitVec 10 :=
  c.kind ++ (if c.kind = 0#2 then c.setup.b1 else 0#8)

/-- The command of a setup packet under a request code, given `SPI1_CODE` (R84, R85, R100).  Every code reaches one arm;
where `SPI1_CODE` is not 14, code 14 is one no row names and does what every unknown code does (R108, 92 D3). -/
def decodeCode (spi1Code code : Byte) (p : Packet) : Instr :=
  if code = 0#8 then .echo p
  else if code = 1#8 then .read
  else if code = 2#8 then .write p.wValue p.wIndex
  else if code = 3#8 then .clr p.wValue p.wIndex
  else if code = 4#8 then .set p.wValue p.wIndex
  else if code = 13#8 then .ddrwrite p.wValue p.wIndex
  else if code = 5#8 then .powerup (loByte p.wValue) (loByte p.wIndex)
  else if code = 6#8 then .powerdown
  else if code = 7#8 then .spi p.b2 p.b3 p.b4 p.b5
  else if code = 8#8 then .pollBytes (loByte p.wValue) (hiByte p.wValue)
  else if code = 9#8 then .flashRead p.wIndex
  else if code = 10#8 then .flashWrite p.wIndex p.wValue
  else if code = 11#8 then .eepromRead p.wIndex
  else if code = 12#8 then .eepromWrite p.wIndex p.wValue
  else if code = spi1Code then .spi1 p.b2
  else if code.toNat < 16 then .unknown0F
  else if code.toNat < 32 then .unknown10 (code.extractLsb' 0 4)
  else if code.toNat < 64 then .unknown20 (code.extractLsb' 0 5)
  else if code.toNat < 128 then .unknown40 (code.extractLsb' 0 6)
  else .unknown80 (code.extractLsb' 0 7)

/-- A setup packet's command: its request code is bRequest, `data[1]` (R81, R83). -/
def decodeSetup (spi1Code : Byte) (p : Packet) : Instr := decodeCode spi1Code p.b1 p

/-- The decoder of a build: total, every command on the port is exactly one instruction (R5, R83, R100). -/
def decodeWith (spi1Code : Byte) (c : PortCommand) : Instr :=
  if c.kind = 0#2 then decodeSetup spi1Code c.setup
  else if c.kind = 1#2 then .inByte
  else if c.kind = 2#2 then .outByte c.strobe
  else .reserved

/-- The decoder at the `SPI1_CODE` of this machine's build (R5). -/
def decode (c : PortCommand) : Instr := decodeWith Config.spi1Code c

/-- bmRequestType of a vendor request with an IN data stage (R93); the block ignores it. -/
def typeIn : Byte := 0xC0#8

/-- bmRequestType of the other vendor requests (R93); the block ignores it. -/
def typeOut : Byte := 0x40#8

/-- A SETUP command laid out as R93 says: type, code, wValue low and high, wIndex low and high, 0, 0. -/
def setupCommand (type code v0 v1 i0 i1 : Byte) : PortCommand :=
  ⟨0#2, ⟨type, code, v0, v1, i0, i1, 0#8, 0#8⟩, 0#8⟩

/-- A SETUP command whose two fields are whole 16-bit values. -/
def setupFields (type code : Byte) (wValue wIndex : Half) : PortCommand :=
  setupCommand type code (loByte wValue) (hiByte wValue) (loByte wIndex) (hiByte wIndex)

/-- A strobe or the reserved kind: the packet bytes are not used. -/
def strobeCommand (kind : BitVec 2) (d : Byte) : PortCommand :=
  ⟨kind, ⟨0#8, 0#8, 0#8, 0#8, 0#8, 0#8, 0#8, 0#8⟩, d⟩

/-- The encoder, from the code map of R84 and the assembler's layout of R93.  An unknown request code is laid
out as a request with no data stage. -/
def encodeWith (spi1Code : Byte) : Instr → PortCommand
  | .echo p => ⟨0#2, p, 0#8⟩
  | .read => setupFields typeIn 1#8 0#16 0#16
  | .write v i => setupFields typeOut 2#8 v i
  | .clr v i => setupFields typeOut 3#8 v i
  | .set v i => setupFields typeOut 4#8 v i
  | .powerup sck rst => setupCommand typeOut 5#8 sck 0#8 rst 0#8
  | .powerdown => setupFields typeOut 6#8 0#16 0#16
  | .spi d0 d1 d2 d3 => setupCommand typeIn 7#8 d0 d1 d2 d3
  | .pollBytes p1 p2 => setupCommand typeOut 8#8 p1 p2 0#8 0#8
  | .flashRead addr => setupFields typeIn 9#8 0#16 addr
  | .flashWrite addr timeout => setupFields typeOut 10#8 timeout addr
  | .eepromRead addr => setupFields typeIn 11#8 0#16 addr
  | .eepromWrite addr timeout => setupFields typeOut 12#8 timeout addr
  | .ddrwrite v i => setupFields typeOut 13#8 v i
  | .spi1 d0 => setupCommand typeIn spi1Code d0 0#8 0#8 0#8
  | .unknown0F => setupFields typeOut 15#8 0#16 0#16
  | .unknown10 low => setupFields typeOut (0b0001#4 ++ low) 0#16 0#16
  | .unknown20 low => setupFields typeOut (0b001#3 ++ low) 0#16 0#16
  | .unknown40 low => setupFields typeOut (0b01#2 ++ low) 0#16 0#16
  | .unknown80 low => setupFields typeOut (0b1#1 ++ low) 0#16 0#16
  | .inByte => strobeCommand 1#2 0#8
  | .outByte d => strobeCommand 2#2 d
  | .reserved => strobeCommand 3#2 0#8

/-- The encoder at the `SPI1_CODE` of this machine's build (R5). -/
def encode (i : Instr) : PortCommand := encodeWith Config.spi1Code i

/-- One row of spec/opcode_table.json: a selector matches when `(SEL & mask) == value` (R83). -/
structure Row where
  mnemonic : String
  value : BitVec 10
  mask : BitVec 10
  deriving DecidableEq, Repr

/-- The row matches the selector (R83). -/
def Row.covers (r : Row) (sel : BitVec 10) : Bool := (sel &&& r.mask) == r.value

/-- The rows of spec/opcode_table.json, in its order. -/
def rows : List Row :=
  [⟨"ECHO", 0x000, 0x3FF⟩, ⟨"READ", 0x001, 0x3FF⟩, ⟨"WRITE", 0x002, 0x3FF⟩, ⟨"CLR", 0x003, 0x3FF⟩,
   ⟨"SET", 0x004, 0x3FF⟩, ⟨"POWERUP", 0x005, 0x3FF⟩, ⟨"POWERDOWN", 0x006, 0x3FF⟩, ⟨"SPI", 0x007, 0x3FF⟩,
   ⟨"POLL_BYTES", 0x008, 0x3FF⟩, ⟨"FLASH_READ", 0x009, 0x3FF⟩, ⟨"FLASH_WRITE", 0x00A, 0x3FF⟩,
   ⟨"EEPROM_READ", 0x00B, 0x3FF⟩] ++
  [⟨"EEPROM_WRITE", 0x00C, 0x3FF⟩, ⟨"DDRWRITE", 0x00D, 0x3FF⟩, ⟨"SPI1", 0x00E, 0x3FF⟩,
   ⟨"UNKNOWN", 0x00F, 0x3FF⟩, ⟨"UNKNOWN", 0x010, 0x3F0⟩, ⟨"UNKNOWN", 0x020, 0x3E0⟩,
   ⟨"UNKNOWN", 0x040, 0x3C0⟩, ⟨"UNKNOWN", 0x080, 0x380⟩, ⟨"IN_BYTE", 0x100, 0x300⟩,
   ⟨"OUT_BYTE", 0x200, 0x300⟩, ⟨"RESERVED", 0x300, 0x300⟩]

/-- The row an instruction belongs to. -/
def rowOf : Instr → Row
  | .echo _ => ⟨"ECHO", 0x000, 0x3FF⟩
  | .read => ⟨"READ", 0x001, 0x3FF⟩
  | .write _ _ => ⟨"WRITE", 0x002, 0x3FF⟩
  | .clr _ _ => ⟨"CLR", 0x003, 0x3FF⟩
  | .set _ _ => ⟨"SET", 0x004, 0x3FF⟩
  | .powerup _ _ => ⟨"POWERUP", 0x005, 0x3FF⟩
  | .powerdown => ⟨"POWERDOWN", 0x006, 0x3FF⟩
  | .spi _ _ _ _ => ⟨"SPI", 0x007, 0x3FF⟩
  | .pollBytes _ _ => ⟨"POLL_BYTES", 0x008, 0x3FF⟩
  | .flashRead _ => ⟨"FLASH_READ", 0x009, 0x3FF⟩
  | .flashWrite _ _ => ⟨"FLASH_WRITE", 0x00A, 0x3FF⟩
  | .eepromRead _ => ⟨"EEPROM_READ", 0x00B, 0x3FF⟩
  | .eepromWrite _ _ => ⟨"EEPROM_WRITE", 0x00C, 0x3FF⟩
  | .ddrwrite _ _ => ⟨"DDRWRITE", 0x00D, 0x3FF⟩
  | .spi1 _ => ⟨"SPI1", 0x00E, 0x3FF⟩
  | .unknown0F => ⟨"UNKNOWN", 0x00F, 0x3FF⟩
  | .unknown10 _ => ⟨"UNKNOWN", 0x010, 0x3F0⟩
  | .unknown20 _ => ⟨"UNKNOWN", 0x020, 0x3E0⟩
  | .unknown40 _ => ⟨"UNKNOWN", 0x040, 0x3C0⟩
  | .unknown80 _ => ⟨"UNKNOWN", 0x080, 0x380⟩
  | .inByte => ⟨"IN_BYTE", 0x100, 0x300⟩
  | .outByte _ => ⟨"OUT_BYTE", 0x200, 0x300⟩
  | .reserved => ⟨"RESERVED", 0x300, 0x300⟩

/-- The command a table word of `nbits` bits stands for (log entry 12).  Byte 0 of the word is B, byte 1 holds
KIND in its two low bits, and the operand bytes the table gives no bits follow from byte 2:
`data[0], data[2], …, data[7]` for SETUP, the strobe's byte for OUT_BYTE.  Bits from `nbits` up are 0. -/
def tableCommand (nbits w : Nat) : PortCommand :=
  let bits := w % 2 ^ nbits
  let byte := fun i : Nat => BitVec.ofNat 8 (bits / 256 ^ i)
  ⟨BitVec.ofNat 2 (bits / 256), ⟨byte 2, byte 0, byte 3, byte 4, byte 5, byte 6, byte 7, byte 8⟩, byte 2⟩

/-- The instruction the decoder reads from a table word. -/
def decodeTableWord (nbits w : Nat) : Option Instr := some (decode (tableCommand nbits w))

/-- One hexadecimal digit. -/
def hexDigit (v : BitVec 4) : Char :=
  ['0', '1', '2', '3', '4', '5', '6', '7', '8', '9', 'A', 'B', 'C', 'D', 'E', 'F'].getD v.toNat '0'

/-- A byte in hexadecimal, as the assembler's operands are written. -/
def hexByte (v : Byte) : String :=
  "0x" ++ String.ofList [hexDigit (v.extractLsb' 4 4), hexDigit (v.extractLsb' 0 4)]

/-- A 16-bit operand in hexadecimal. -/
def hexHalf (v : Half) : String :=
  "0x" ++ String.ofList [hexDigit (v.extractLsb' 12 4), hexDigit (v.extractLsb' 8 4),
    hexDigit (v.extractLsb' 4 4), hexDigit (v.extractLsb' 0 4)]

/-- Operands separated by commas. -/
def commaList (bs : List Byte) : String := ",".intercalate (bs.map hexByte)

/-- The two named 16-bit operands of a generic request. -/
def fieldOperands (v i : Half) : String := " v=" ++ hexHalf v ++ " i=" ++ hexHalf i

/-- The assembler line of R93.  It gives no form for an unknown request code or for the reserved kind. -/
def asmLine : Instr → Option String
  | .echo p => some ("ECHO " ++ commaList [p.b2, p.b3, p.b4, p.b5, p.b6, p.b7])
  | .read => some "READ"
  | .write v i => some ("WRITE" ++ fieldOperands v i)
  | .clr v i => some ("CLR" ++ fieldOperands v i)
  | .set v i => some ("SET" ++ fieldOperands v i)
  | .powerup sck rst => some ("POWERUP sck=" ++ hexByte sck ++ " rst=" ++ hexByte rst)
  | .powerdown => some "POWERDOWN"
  | .spi d0 d1 d2 d3 => some ("SPI " ++ commaList [d0, d1, d2, d3])
  | .pollBytes p1 p2 => some ("POLL_BYTES p1=" ++ hexByte p1 ++ " p2=" ++ hexByte p2)
  | .flashRead addr => some ("FLASH_READ addr=" ++ hexHalf addr)
  | .flashWrite addr timeout => some ("FLASH_WRITE addr=" ++ hexHalf addr ++ " timeout=" ++ hexHalf timeout)
  | .eepromRead addr => some ("EEPROM_READ addr=" ++ hexHalf addr)
  | .eepromWrite addr timeout => some ("EEPROM_WRITE addr=" ++ hexHalf addr ++ " timeout=" ++ hexHalf timeout)
  | .ddrwrite v i => some ("DDRWRITE" ++ fieldOperands v i)
  | .spi1 d0 => some ("SPI1 " ++ hexByte d0)
  | .unknown0F => none
  | .unknown10 _ => none
  | .unknown20 _ => none
  | .unknown40 _ => none
  | .unknown80 _ => none
  | .inByte => some "IN"
  | .outByte d => some ("OUT " ++ hexByte d)
  | .reserved => none

end Sys2Proof
end

