-- ==== Sys2Proof/Machine/State.lean ====
section
/-! DEFINITION. The machine's state as plain data (R20), how a step can stop, and the state after reset (R220).

The block has no memory (R60), no program counter (R33) and no exception registers (R200).  INVENTORY.md lists
every field with its rule and its reset value.
-/
namespace Sys2Proof.Machine

/-- A register with its written mark (R8, R36). -/
structure Reg (w : Nat) where
  value : BitVec w
  written : Bool
  deriving DecidableEq, Repr

/-- A 4-byte frame buffer: `CMD` (R27) or `RES` (R28), each byte with its own mark (R36). -/
structure FrameBuf where
  b0 : Reg 8
  b1 : Reg 8
  b2 : Reg 8
  b3 : Reg 8
  deriving DecidableEq, Repr

/-- The strategy-internal state (R34).  Which of the two sets a machine holds is its build-time strategy. -/
inductive Shifter where
  /-- BITBANG: the bit mask and the receive accumulator. -/
  | bitbang (mask acc : Byte)
  /-- HWSHIFT: the shift register `SR`, the edge counter `EC` (0 to 16) and the completion flag `DONE`. -/
  | hwshift (sr : Byte) (ec : Fin 17) (done : Bool)
  deriving DecidableEq, Repr

/-- The ghost state `POLL_OUTCOME` (R37). -/
inductive PollOutcome where
  | none
  | confirmed
  | timedOut
  deriving DecidableEq, Repr

/-- What a SETUP command returns (R87): tagged, three ways.  The lengths that occur are 1, 4 and 8. -/
inductive DataPhase where
  | none
  | immediate (bytes : List Byte)
  | streamed
  deriving DecidableEq, Repr

/-- What the port last answered (R87). -/
inductive Reply where
  /-- No command has been answered yet. -/
  | silent
  /-- A SETUP command's result. -/
  | setup (phase : DataPhase)
  /-- The byte an IN_BYTE returned. -/
  | inData (byte : Byte)
  /-- An OUT_BYTE was accepted; it returns nothing (R171). -/
  | out
  deriving DecidableEq, Repr

/-- The registers `read(R)` can find unwritten (R7, R140, R163). -/
inductive RegName where
  | sckPeriod
  | poll1
  | poll2
  | address
  | timeout
  | opcode
  deriving DecidableEq, Repr

/-- Why the machine stops.  Neither is a hardware event (R201). -/
inductive Fault where
  /-- `read(R)` of an unwritten register (R7, R8, R109, R140, R147, R163, R201; 93 I1, I2): raised by IN_BYTE and OUT_BYTE
  while powered, before any line event.  Safe: the spec's own fault, where the chip goes on with a value no rule gives. -/
  | unwrittenRead (r : RegName)
  /-- A command of the reserved kind (R86): raised by RESERVED on every path, state unchanged.  Safe: no source
  gives it a meaning. -/
  | reservedCommand
  deriving DecidableEq, Repr

/-- Why a step has no meaning. -/
inductive Refusal where
  /-- An instruction without a meaning, by its mnemonic: raised by a refused arm of exec alone (none is left).
  Safe. -/
  | notModelled (mnemonic : String)
  /-- A step that would begin in the middle of a TRANSFER: raised by step alone.  No step ends there (a TRANSFER
  runs inside one command's step, R9, R128), so no run reaches it.  Safe. -/
  | transferInProgress
  deriving DecidableEq, Repr

/-- The machine's state.  The block's own state first, then the port, then what the model adds. -/
structure State where
  /-- `SCK_PERIOD` (R21). -/
  sckPeriod : Reg 8
  /-- `POLL1` (R22). -/
  poll1 : Reg 8
  /-- `POLL2` (R23). -/
  poll2 : Reg 8
  /-- `ADDRESS` (R24). -/
  address : Reg 16
  /-- `TIMEOUT` (R25). -/
  timeout : Reg 16
  /-- `OPCODE` (R26). -/
  opcode : Reg 8
  /-- `CMD` (R27). -/
  cmd : FrameBuf
  /-- `RES` (R28). -/
  res : FrameBuf
  /-- `LINE_OE` (R29): bit 0 IND, 1 RST, 2 SCK, 3 MOSI. -/
  lineOE : BitVec 4
  /-- `LINE_OL` (R30). -/
  lineOL : BitVec 4
  /-- `SEQ` (R33). -/
  seq : Seq
  /-- The strategy-internal state (R34). -/
  shifter : Shifter
  /-- `ELAPSED` (R35). -/
  elapsed : Nat
  /-- `POLL_OUTCOME` (R37), ghost. -/
  pollOutcome : PollOutcome
  /-- The commands the controller has still to present on the port, in order (R71, R75, R80). -/
  pending : List PortCommand
  /-- What the port last answered (R87). -/
  reply : Reply
  /-- The line trace, newest event first (R9). -/
  trace : List LineEvent
  /-- The model's own: the next MISO bits where the run has fixed them (R31); the oracle answers after them. -/
  miso : List Bool
  /-- The model's own: the index of the next free byte. -/
  fresh : Nat
  /-- The model's own: an abstract name for the pins outside the block (R104). -/
  outside : Nat
  deriving DecidableEq, Repr

/-- Three outcomes of a command or a step. -/
abbrev Result := Host.Outcome State Fault Refusal

/-- An unwritten register (R36); the bits it holds are named in log entry 1. -/
def Reg.unwritten {w : Nat} : Reg w := ⟨0, false⟩

/-- Four unwritten bytes. -/
def FrameBuf.unwritten : FrameBuf := ⟨Reg.unwritten, Reg.unwritten, Reg.unwritten, Reg.unwritten⟩

/-- The strategy state of a machine built with a strategy, before its first TRANSFER (log entry 8). -/
def Shifter.initial : Strategy → Shifter
  | .bitbang => .bitbang 0#8 0#8
  | .hwshift => .hwshift 0#8 0 false

/-- The machine after power-on reset (R220). -/
def State.reset : State where
  sckPeriod := Reg.unwritten
  poll1 := Reg.unwritten
  poll2 := Reg.unwritten
  address := Reg.unwritten
  timeout := Reg.unwritten
  opcode := Reg.unwritten
  cmd := FrameBuf.unwritten
  res := FrameBuf.unwritten
  lineOE := 0#4
  lineOL := 0#4
  seq := .idle
  shifter := Shifter.initial Config.strategy
  elapsed := 0
  pollOutcome := .none
  pending := []
  reply := .silent
  trace := []
  miso := []
  fresh := 0
  outside := 0

end Sys2Proof.Machine
end

