-- ==== Sys2Proof/Machine/Ops.lean ====
section
/-! DEFINITION. The named operations every command is written with (R7): registers and their marks, the answer
on the port, draws, line events and the data-in sample.

The block takes no exceptions (R200, R204): there is no exception entry here and no return from one.
-/
namespace Sys2Proof.Machine

/-- `R <- v`: writes the value and marks the register written (R7, R8). -/
def written {w : Nat} (v : BitVec w) : Reg w := ⟨v, true⟩

/-- The mark cleared, the bits kept (R181; log entry 15). -/
def unmark {w : Nat} (r : Reg w) : Reg w := { r with written := false }

/-- All four marks of a frame buffer cleared (R181). -/
def unmarkFrame (f : FrameBuf) : FrameBuf := ⟨unmark f.b0, unmark f.b1, unmark f.b2, unmark f.b3⟩

/-- `read(R)`: the register's value, or the fault when it is unwritten (R7, R8, R109, R201; 92 D19, D20; 93 I1, I2). -/
def readReg {w : Nat} (name : RegName) (r : Reg w) (cont : BitVec w → Result) : Result :=
  if r.written then cont r.value else .fault (.unwrittenRead name)

/-- The four values a frame buffer holds. -/
def frameValues (f : FrameBuf) : List Byte := [f.b0.value, f.b1.value, f.b2.value, f.b3.value]

/-- Stores four received bytes; a list of another length stores nothing past its end. -/
def storeFrame (f : FrameBuf) : List Byte → FrameBuf
  | [x0, x1, x2, x3] => ⟨written x0, written x1, written x2, written x3⟩
  | _ => f

/-- Takes the next command the controller presents, if there is one (R71, R80). -/
def takeCommand (s : State) : Option (PortCommand × State) :=
  match s.pending with
  | [] => none
  | c :: rest => some (c, { s with pending := rest })

/-- Presents a command ahead of all others, to an engine that is IDLE (R80, R110). -/
def present (c : PortCommand) (s : State) : State := { s with seq := .idle, pending := c :: s.pending }

/-- Answers on the port, and moves on to the next free reply padding (R87). -/
def answer (r : Reply) (s : State) : State := { s with reply := r, fresh := s.fresh + 1 }

/-- `respond(p)` of R7. -/
def respond (p : DataPhase) (s : State) : State := answer (.setup p) s

/-- SEQ moves (R33). -/
def setSeq (q : Seq) (s : State) : State := { s with seq := q }

/-- The strategy's own state changes (R34). -/
def setShifter (x : Shifter) (s : State) : State := { s with shifter := x }

/-- `RES <- in` (R144, R167). -/
def storeRes (received : List Byte) (s : State) : State := { s with res := storeFrame s.res received }

/-- `ELAPSED <- n` (R166). -/
def setElapsed (n : Nat) (s : State) : State := { s with elapsed := n }

/-- A poll ends: the ghost records how, and SEQ returns to IDLE (R37, R167). -/
def endPoll (o : PollOutcome) (s : State) : State := { s with pollOutcome := o, seq := .idle }

/-- `CMD[3] <- d` (R163). -/
def setPayload (d : Byte) (s : State) : State := { s with cmd := { s.cmd with b3 := written d } }

/-- `draw()` of R7: a byte under no law, and the state in which the next one is another. -/
def draw (s : State) : Byte × State := (Config.drawByte s.fresh, { s with fresh := s.fresh + 1 })

/-- Passes a generic request to the logic outside the block: `GPIO_EFFECT` (R5, R104). -/
def gpio (r : GpioRequest) (s : State) : State := { s with outside := Config.gpioEffect r s.outside }

/-- A line's bit in `LINE_OE` and `LINE_OL` (R29). -/
def lineBit : Line → BitVec 4
  | .ind => 0b0001#4
  | .rst => 0b0010#4
  | .sck => 0b0100#4
  | .mosi => 0b1000#4

/-- `LINE_OL` with one line's level set (R30). -/
def setLevel (ol : BitVec 4) (l : Line) (v : Bool) : BitVec 4 :=
  if v then ol ||| lineBit l else ol &&& ~~~ lineBit l

/-- A line's level or enable bit. -/
def lineAt (reg : BitVec 4) (l : Line) : Bool := (reg &&& lineBit l) != 0#4

/-- The trace after any other work since the last event: it takes `OVERHEAD`, any time of zero or more, so no gap
between events has a maximum (R5, R123, R230; log entry 6). -/
def later (s : State) : List LineEvent := .overhead (Config.overhead s.trace) :: s.trace

/-- Other work by itself (R123). -/
def otherWork (s : State) : State := { s with trace := later s }

/-- `Drive(l, v)` (R7), after any other work (R123). -/
def drive (l : Line) (v : Bool) (s : State) : State :=
  { s with lineOL := setLevel s.lineOL l v, trace := .drive l v :: later s }

/-- MOSI goes to a level no rule fixes, some time after the clock is idle (R127, R230; log entry 5). -/
def restMosi (s : State) : State :=
  let v := Config.mosiRest s.trace
  { s with lineOL := setLevel s.lineOL .mosi v, trace := .mosiRest v :: later s }

/-- `Wait(units)` at a position of SEQ (R7, R33). -/
def waitAt (q : Seq) (units : Nat) (s : State) : State :=
  { s with seq := q, trace := .wait q units :: s.trace }

/-- The lines written together as one event (R180, R181), after any other work since the last command (R230). -/
def setLines (oe ol : BitVec 4) (s : State) : State :=
  { s with lineOE := oe, lineOL := ol, trace := .lines oe ol :: later s }

/-- The events of the rules' own line protocol: not the overheads, MOSI's open level or the samples, which the
target does not answer to (log entry 2). -/
def targetSees : LineEvent → Bool
  | .lines _ _ => true
  | .drive _ _ => true
  | .mosiRest _ => false
  | .wait _ _ => true
  | .overhead _ => false
  | .sample _ => false

/-- The target's view of a trace. -/
def targetView (tr : List LineEvent) : List LineEvent := tr.filter targetSees

/-- The history up to and including the last active clock edge: the target holds MISO stable from there to the
end of the high phase (R125, R211). -/
def upToEdge (tr : List LineEvent) : List LineEvent := tr.dropWhile (fun e => e != .drive .sck true)

/-- The bit the target answers now: the next one the run has fixed, else the oracle's (R31). -/
def misoNow (s : State) : Bool :=
  match s.miso with
  | [] => Config.misoBit (upToEdge (targetView s.trace))
  | b :: _ => b

/-- `SampleMISO()` (R7, R31). -/
def sampleMiso (s : State) : Bool × State :=
  (misoNow s, { s with miso := s.miso.tail, trace := .sample (misoNow s) :: s.trace })

/-- `(r << 1 | bit) mod 2^8` (R112, R120). -/
def shiftIn (r : Byte) (bit : Bool) : Byte := (r <<< 1) ||| (if bit then 1#8 else 0#8)

end Sys2Proof.Machine
end

