-- ==== Sys2Proof/Machine/Flags.lean ====
section
/-! DEFINITION. The derived flag POWERED (R32), the gate that reads it (R101), and the tests of the poller
(R165, R166, R167).  The block has no other flags (R32).
-/
namespace Sys2Proof.Machine

/-- `POWERED = (LINE_OE != 0b0000)` (R32). -/
def powered (s : State) : Bool := s.lineOE != 0#4

/-- The gate on a SETUP command: unpowered, it answers `None` and does nothing else (R101). -/
def gatedSetup (body : State → State) (s : State) : Result :=
  if powered s then .next (body s) else .next (respond .none s)

/-- The reset flag of POWERUP: 1 exactly when `wIndex[7:0]` is nonzero (R180). -/
def resetFlag (rst : Byte) : Bool := rst != 0#8

/-- The poll comparator `MATCH(r)` (R165). -/
def matchByte (s : State) (r : Byte) : Bool :=
  r == s.cmd.b3.value && r != s.poll1.value && r != s.poll2.value

/-- `INC = 32 * SCK_PERIOD`, in microseconds, from the register's value (R166). -/
def pollIncrement (s : State) : Nat := 32 * s.sckPeriod.value.toNat

/-- The poll timer's sum: exact, or modulo 2^16 where `POLL_ELAPSED_WRAP16` is true (R166, R173). -/
def advanceElapsed (wrap16 : Bool) (elapsed inc : Nat) : Nat :=
  if wrap16 then (elapsed + inc) % 65536 else elapsed + inc

/-- The loop test `ELAPSED < TIMEOUT`, unsigned (R167). -/
def timerRuns (s : State) : Bool := decide (s.elapsed < s.timeout.value.toNat)

end Sys2Proof.Machine
end

