-- ==== Sys2Proof/Machine/Generic.lean ====
section
/-! DEFINITION. The generic requests (R102 to R107), the unknown request codes (R108) and the reserved kind
(R86).  None touches the block's registers or lines.
-/
namespace Sys2Proof.Machine

/-- A request the block acknowledges and hands to the logic outside: `GPIO_EFFECT` there, nothing here
(R104). -/
def outsideRequest (r : GpioRequest) (s : State) : Result := .next (respond .none (gpio r s))

/-- A request code the block does not know: acknowledged, nothing done (R85, R108). -/
def ignored (s : State) : Result := .next (respond .none s)

/-- ECHO (R102). -/
def execEcho (data : Packet) (s : State) : Result := .next (respond (.immediate data.bytes) s)

/-- READ (R103): one drawn byte; its effect outside the block is `GPIO_EFFECT` (R5). -/
def execRead (s : State) : Result :=
  let r := draw (gpio .read s)
  .next (respond (.immediate [r.1]) r.2)

/-- WRITE (R104). -/
def execWrite (v i : Half) (s : State) : Result := outsideRequest (.write v i) s

/-- CLR (R105). -/
def execClr (v i : Half) (s : State) : Result := outsideRequest (.clr v i) s

/-- SET (R106). -/
def execSet (v i : Half) (s : State) : Result := outsideRequest (.set v i) s

/-- DDRWRITE (R107). -/
def execDdrwrite (v i : Half) (s : State) : Result := outsideRequest (.ddrwrite v i) s

/-- UNKNOWN, request code 15 (R108). -/
def execUnknown0F (s : State) : Result := ignored s

/-- UNKNOWN, request codes 16 to 31 (R108). -/
def execUnknown10 (s : State) : Result := ignored s

/-- UNKNOWN, request codes 32 to 63 (R108). -/
def execUnknown20 (s : State) : Result := ignored s

/-- UNKNOWN, request codes 64 to 127 (R108). -/
def execUnknown40 (s : State) : Result := ignored s

/-- UNKNOWN, request codes 128 to 255 (R108). -/
def execUnknown80 (s : State) : Result := ignored s

/-- RESERVED (R86): `raise Fault(ReservedCommand)`. -/
def execReserved (_s : State) : Result := .fault .reservedCommand

end Sys2Proof.Machine
end

