-- ==== Sys2Proof/Machine/Operands.lean ====
section
/-! DEFINITION. The one addressing mode (R114): the effective address and the bytes of a read or write frame
(R88, R140 to R142); and the hardware form of a reply (R87).
-/
namespace Sys2Proof.Machine

/-- `E`, bit 7 of an opcode: EEPROM mode (R26, R140). -/
def eepromMode (op : Byte) : Bool := op.getLsbD 7

/-- The effective address `a` of counter value `k` (R140). -/
def effectiveAddress (width : DoubleWidth) (op : Byte) (k : Half) : Nat :=
  if eepromMode op then (2 * k.toNat) % 2 ^ width.bits else k.toNat

/-- Byte 0: the opcode with bit 3 set exactly when `a` is odd (R141). -/
def frameByte0 (op : Byte) (a : Nat) : Byte := op ||| (if a % 2 = 1 then 0x08#8 else 0x00#8)

/-- Byte 1: `(a >> 9)[7:0]` (R142). -/
def frameByte1 (a : Nat) : Byte := BitVec.ofNat 8 (a >>> 9)

/-- Byte 2: `(a >> 1)[7:0]` (R142). -/
def frameByte2 (a : Nat) : Byte := BitVec.ofNat 8 (a >>> 1)

/-- `RKIND` (R87); 0b11 is never produced. -/
def rkind : DataPhase → BitVec 2
  | .none => 0b00#2
  | .immediate _ => 0b01#2
  | .streamed => 0b10#2

/-- The bytes a reply returns. -/
def replyBytes : DataPhase → List Byte
  | .none => []
  | .immediate bs => bs
  | .streamed => []

/-- `RLEN` as it stands on the port after a reply (R87): the number of bytes an `Immediate` returns.  DESIGN CHOICE
(log entry 31): R87 says nothing of RLEN beside `None` and `Streamed`, so it is a free value there. -/
def rlen (s : State) : DataPhase → BitVec 4
  | .none => Config.rlenPad s.fresh
  | .immediate bs => BitVec.ofNat 4 bs.length
  | .streamed => Config.rlenPad s.fresh

/-- `RDATA[i]` as it stands on the port after a reply (R87): the i-th byte returned, or unspecified. -/
def rdata (s : State) (p : DataPhase) (i : Nat) : Byte :=
  (replyBytes p).getD i (Config.rdataPad s.fresh i)

end Sys2Proof.Machine
end

