-- ==== Sys2Proof/Machine/Transfer.lean ====
section
/-! DEFINITION. The serial transfer engine: TRANSFER (R120 to R122, R128), its half-period (R123) and its two
strategies (R124, R125).
-/
namespace Sys2Proof.Machine

/-- `HALF()` (R123): the half-period in calibration units. -/
def halfPeriod (s : State) : Nat :=
  if 1 ≤ s.sckPeriod.value.toNat then s.sckPeriod.value.toNat else Config.zeroPeriodHalf

/-- `BIT(v, h)` (R121) at byte `i` of `n`, bit `j`; afterwards MOSI is at any level (R127).  Other work may stand
before every event, the sample included (R123, R230). -/
def bitCycle (n i j h : Nat) (v : Bool) (s : State) : Bool × State :=
  let s1 := waitAt (.xfer n i j .setup) h (drive .mosi v s)
  let s2 := waitAt (.xfer n i j .high) h (drive .sck true s1)
  let r := sampleMiso (otherWork s2)
  (r.1, restMosi (drive .sck false r.2))

/-- The BITBANG loop over the `j` bits left: the mask runs down from 0x80 and the accumulator shifts left once a
bit (R120, R124). -/
def bitbangBits (n i h : Nat) (c : Byte) : Nat → Byte → Byte → State → Byte × State
  | 0, mask, acc, s => (acc, setShifter (.bitbang mask acc) s)
  | j + 1, mask, acc, s =>
    let r := bitCycle n i j h ((c &&& mask) != 0#8) (setShifter (.bitbang mask acc) s)
    bitbangBits n i h c j (mask >>> 1) (shiftIn acc r.1) r.2

/-- One byte under BITBANG (R124). -/
def bitbangByte (n i h : Nat) (c : Byte) (s : State) : Byte × State :=
  bitbangBits n i h c 8 0x80#8 0x00#8 s

/-- The HWSHIFT loop of R125 over the `left` edges left: `ec` edges are done, the register holds `sr`, the last
sample is `latch`.  An odd edge is active and samples at the edge itself, with no other work between (R125, R230); an
even edge returns to idle and shifts. -/
def hwshiftEdges (n i h : Nat) : Nat → Byte → Nat → Bool → State → Byte × State
  | 0, sr, ec, _, s => (sr, setShifter (.hwshift sr (Fin.ofNat 17 ec) true) s)
  | left + 1, sr, ec, latch, s =>
    let s0 := setShifter (.hwshift sr (Fin.ofNat 17 ec) false) s
    if (ec + 1) % 2 = 1 then
      let r := sampleMiso (drive .sck true (waitAt (.xfer n i (7 - ec / 2) .setup) h s0))
      hwshiftEdges n i h left sr (ec + 1) r.1 r.2
    else
      let s1 := restMosi (drive .sck false (waitAt (.xfer n i (7 - ec / 2) .high) h s0))
      let sr' := shiftIn sr latch
      let s2 := if ec + 1 < 16 then drive .mosi (sr'.getLsbD 7) s1 else s1
      hwshiftEdges n i h left sr' (ec + 1) latch s2

/-- `HWSHIFT_BYTE(c, h)` (R125): 16 edges, then DONE. -/
def hwshiftByte (n i h : Nat) (c : Byte) (s : State) : Byte × State :=
  hwshiftEdges n i h 16 c 0 false (drive .mosi (c.getLsbD 7) (setShifter (.hwshift c 0 false) s))

/-- One byte under the strategy the machine is built with (R34, R126). -/
def transferByte (n i h : Nat) (c : Byte) (s : State) : Byte × State :=
  match s.shifter with
  | .bitbang _ _ => bitbangByte n i h c s
  | .hwshift _ _ _ => hwshiftByte n i h c s

/-- The byte loop of R120: index order. -/
def transferBytes (n h : Nat) : Nat → List Byte → State → List Byte × State
  | _, [], s => ([], s)
  | i, c :: cs, s =>
    let r := transferByte n i h c s
    let rs := transferBytes n h (i + 1) cs r.2
    (r.1 :: rs.1, rs.2)

/-- `TRANSFER(out) -> in` (R120).  SEQ is afterwards what it was before (log entry 14). -/
def transfer (out : List Byte) (s : State) : List Byte × State :=
  let r := transferBytes out.length (halfPeriod s) 0 out s
  (r.1, setSeq s.seq r.2)

end Sys2Proof.Machine
end

