-- ==== Sys2Proof/Machine/Encoder.lean ====
section
/-! DEFINITION. The address/command frame encoder (R140 to R144) and the reading commands (R145 to R147).
-/
namespace Sys2Proof.Machine

/-- The payload byte of a frame: `CMD[3]` as it stands, or a draw where nothing has written it (R143). -/
def payloadByte (s : State) : Byte × State := if s.cmd.b3.written then (s.cmd.b3.value, s) else draw s

/-- ENCODE's register writes (R140): the counter advances, `CMD[0..2]` take the frame's first three bytes. -/
def buildFrame (width : DoubleWidth) (k : Half) (op : Byte) (s : State) : State :=
  let a := effectiveAddress width op k
  { s with address := written (k + 1#16),
           cmd := { s.cmd with b0 := written (frameByte0 op a), b1 := written (frameByte1 a),
                               b2 := written (frameByte2 a) } }

/-- Shifts `CMD[0..2]` and the given payload byte, and stores the four bytes received in `RES` (R144). -/
def shiftFrame (b3 : Byte) (s : State) : State :=
  let r := transfer [s.cmd.b0.value, s.cmd.b1.value, s.cmd.b2.value, b3] s
  storeRes r.1 r.2

/-- ENCODE, once `ADDRESS` has been read as `k` and `OPCODE` as `op` (R140). -/
def encodeTransfer (width : DoubleWidth) (k : Half) (op : Byte) (s : State) : State :=
  let r := payloadByte (buildFrame width k op s)
  shiftFrame r.1 r.2

/-- A read setup, gated: it loads `ADDRESS`, and `OPCODE` with the given frame opcode (R145, R146). -/
def readSetup (opcode : Byte) (addr : Half) (s : State) : Result :=
  gatedSetup (fun s => respond .streamed { s with address := written addr, opcode := written opcode }) s

/-- FLASH_READ (R145). -/
def execFlashRead (addr : Half) (s : State) : Result := readSetup Config.opcFlashRead addr s

/-- EEPROM_READ (R146). -/
def execEepromRead (addr : Half) (s : State) : Result := readSetup Config.opcEepromRead addr s

/-- IN_BYTE (R147) under either `EEPROM_DOUBLE_WIDTH`, gated: unpowered, it returns a drawn byte and does nothing else
(R101). -/
def inByte (width : DoubleWidth) (s : State) : Result :=
  if powered s then
    readReg .address s.address fun k =>
    readReg .opcode s.opcode fun op =>
      let t := encodeTransfer width k op s
      .next (answer (.inData t.res.b3.value) t)
  else
    let r := draw s
    .next (answer (.inData r.1) r.2)

/-- IN_BYTE of this build (R147). -/
def execInByte (s : State) : Result := inByte Config.eepromDoubleWidth s

end Sys2Proof.Machine
end

