-- ==== Sys2Proof/Machine/Poller.lean ====
section
/-! DEFINITION. The writing commands (R160 to R163) and the write-completion poller (R164 to R173).
-/
namespace Sys2Proof.Machine

/-- POLL_BYTES (R160), gated. -/
def execPollBytes (p1 p2 : Byte) (s : State) : Result :=
  gatedSetup (fun s => respond .none { s with poll1 := written p1, poll2 := written p2 }) s

/-- A write setup, gated: it loads `ADDRESS`, `TIMEOUT`, and `OPCODE` with the given frame opcode (R161, R162). -/
def writeSetup (opcode : Byte) (addr timeout : Half) (s : State) : Result :=
  gatedSetup (fun s => respond .none
    { s with address := written addr, timeout := written timeout, opcode := written opcode }) s

/-- FLASH_WRITE (R161). -/
def execFlashWrite (addr timeout : Half) (s : State) : Result := writeSetup Config.opcFlashWrite addr timeout s

/-- EEPROM_WRITE (R162). -/
def execEepromWrite (addr timeout : Half) (s : State) : Result := writeSetup Config.opcEepromWrite addr timeout s

/-- What follows the read frame of attempt `k` (R167): the match ends the poll, then the timer advances and is
tested; it wraps where `wrap16` says so (R173).  Otherwise SEQ is left waiting for attempt `k + 1`. -/
def pollVerdict (wrap16 : Bool) (k : Nat) (s : State) : State :=
  if matchByte s s.res.b3.value then endPoll .confirmed s
  else
    let t := setElapsed (advanceElapsed wrap16 s.elapsed (pollIncrement s)) s
    if timerRuns t then setSeq (.poll (k + 1)) t else endPoll .timedOut t

/-- Read attempt `k` (R167): one read frame, then the verdict. -/
def pollAttempt (wrap16 : Bool) (k : Nat) (s : State) : State :=
  pollVerdict wrap16 k (shiftFrame s.cmd.b3.value (setSeq (.poll k) s))

/-- The loop of R167 from attempt `k`, for at most `budget` attempts. -/
def pollLoop (wrap16 : Bool) : Nat → Nat → State → State
  | 0, _, s => s
  | budget + 1, k, s =>
    let t := pollAttempt wrap16 k s
    match t.seq with
    | .poll _ => pollLoop wrap16 budget (k + 1) t
    | _ => t

/-- How many attempts one step makes before it leaves a poll unfinished (log entry 13).  Where the timer advances, no
poll that ends by it takes more than 2048, wrapping or not (R168, R173: `INC` is a multiple of 32, `TIMEOUT` below 2^16,
and 2048 advances of a wrapping timer take it through all its values); where it does not, each step makes one attempt.
A poll left unfinished goes on in the next step: no run is cut short (R172). -/
def pollBudget (s : State) : Nat := if pollIncrement s = 0 then 1 else 2048

/-- Goes on with a poll that waits for attempt `k`. -/
def pollFrom (wrap16 : Bool) (k : Nat) (s : State) : State := pollLoop wrap16 (pollBudget s) k s

/-- `CMD[0] <- CMD[0] ^ POLL_FLIP_MASK` (R164). -/
def flipOpcode (flipMask : Byte) (s : State) : State :=
  { s with cmd := { s.cmd with b0 := written (s.cmd.b0.value ^^^ flipMask) } }

/-- `POLL()` (R167): the timer starts at 0 and the attempts at 1. -/
def poll (wrap16 : Bool) (s : State) : State := pollFrom wrap16 1 (setElapsed 0 (setSeq (.poll 1) s))

/-- The write cycle of an OUT_BYTE: `CMD[3] <- d`, ENCODE, the flip (R163). -/
def writeCycle (b : Build) (d : Byte) (k : Half) (op : Byte) (s : State) : State :=
  flipOpcode b.flipMask (encodeTransfer b.width k op (setPayload d s))

/-- OUT_BYTE (R163) of any build, gated: unpowered, it does nothing (R101).  It reports nothing either way (R171). -/
def outByte (b : Build) (d : Byte) (s : State) : Result :=
  if powered s then
    readReg .address s.address fun k =>
    readReg .opcode s.opcode fun op =>
    readReg .timeout s.timeout fun _ =>
    readReg .poll1 s.poll1 fun _ =>
    readReg .poll2 s.poll2 fun _ =>
      .next (poll b.wrap16 (writeCycle b d k op (answer .out s)))
  else .next (answer .out s)

/-- OUT_BYTE of this build (R163). -/
def execOutByte (d : Byte) (s : State) : Result := outByte Config.build d s

end Sys2Proof.Machine
end

