-- ==== Sys2Proof/Machine/Power.lean ====
section
/-! DEFINITION. POWERUP and POWERDOWN (R180, R181): the power state and the four lines (R182, R184).
-/
namespace Sys2Proof.Machine

/-- The line levels of POWERUP: MOSI 0, SCK 0, RST the flag, IND 1 (R180). -/
def powerupLevels (flag : Bool) : BitVec 4 := if flag then 0b0011#4 else 0b0001#4

/-- Every session register and frame buffer marked unwritten, bits kept (R181). -/
def clearMarks (s : State) : State :=
  { s with sckPeriod := unmark s.sckPeriod, poll1 := unmark s.poll1, poll2 := unmark s.poll2,
           address := unmark s.address, timeout := unmark s.timeout, opcode := unmark s.opcode,
           cmd := unmarkFrame s.cmd, res := unmarkFrame s.res }

/-- The four lines released as one event; when they are released already there is no event (R181, R183;
log entry 19). -/
def releaseLines (s : State) : State :=
  if powered s then setLines 0#4 0#4 s else { s with lineOE := 0#4, lineOL := 0#4 }

/-- POWERUP (R180), not gated. -/
def execPowerup (sck rst : Byte) (s : State) : Result :=
  .next (respond .none (setLines 0b1111#4 (powerupLevels (resetFlag rst)) { s with sckPeriod := written sck }))

/-- POWERDOWN (R181), not gated. -/
def execPowerdown (s : State) : Result := .next (respond .none (clearMarks (releaseLines s)))

end Sys2Proof.Machine
end

