-- ==== Sys2Proof/Machine/Serial.lean ====
section
/-! DEFINITION. SPI and SPI1 (R129, R130): a raw frame (R90) from the packet's payload, with no use of CMD or RES.
-/
namespace Sys2Proof.Machine

/-- Shifts the payload and returns what was received (R129, R130). -/
def rawFrame (payload : List Byte) (s : State) : State :=
  let r := transfer payload s
  respond (.immediate r.1) r.2

/-- SPI (R129), gated. -/
def execSpi (d0 d1 d2 d3 : Byte) (s : State) : Result := gatedSetup (rawFrame [d0, d1, d2, d3]) s

/-- SPI1 (R130), gated. -/
def execSpi1 (d0 : Byte) (s : State) : Result := gatedSetup (rawFrame [d0]) s

end Sys2Proof.Machine
end

