-- ==== Sys2Proof/Machine/Dispatch.lean ====
section
/-! DEFINITION. Dispatch (R100): every instruction to its meaning. -/
namespace Sys2Proof.Machine

def exec (i : Instr) (s : State) : Host.Outcome State Fault Refusal :=
  match i with
  | .echo data => Sys2Proof.Machine.execEcho data s
  | .read => Sys2Proof.Machine.execRead s
  | .write wValue wIndex => Sys2Proof.Machine.execWrite wValue wIndex s
  | .clr wValue wIndex => Sys2Proof.Machine.execClr wValue wIndex s
  | .set wValue wIndex => Sys2Proof.Machine.execSet wValue wIndex s
  | .powerup sck rst => Sys2Proof.Machine.execPowerup sck rst s
  | .powerdown => Sys2Proof.Machine.execPowerdown s
  | .spi d0 d1 d2 d3 => Sys2Proof.Machine.execSpi d0 d1 d2 d3 s
  | .pollBytes p1 p2 => Sys2Proof.Machine.execPollBytes p1 p2 s
  | .flashRead addr => Sys2Proof.Machine.execFlashRead addr s
  | .flashWrite addr timeout => Sys2Proof.Machine.execFlashWrite addr timeout s
  | .eepromRead addr => Sys2Proof.Machine.execEepromRead addr s
  | .eepromWrite addr timeout => Sys2Proof.Machine.execEepromWrite addr timeout s
  | .ddrwrite wValue wIndex => Sys2Proof.Machine.execDdrwrite wValue wIndex s
  | .spi1 d0 => Sys2Proof.Machine.execSpi1 d0 s
  | .unknown0F => Sys2Proof.Machine.execUnknown0F s
  | .unknown10 _ => Sys2Proof.Machine.execUnknown10 s
  | .unknown20 _ => Sys2Proof.Machine.execUnknown20 s
  | .unknown40 _ => Sys2Proof.Machine.execUnknown40 s
  | .unknown80 _ => Sys2Proof.Machine.execUnknown80 s
  | .inByte => Sys2Proof.Machine.execInByte s
  | .outByte d => Sys2Proof.Machine.execOutByte d s
  | .reserved => Sys2Proof.Machine.execReserved s

end Sys2Proof.Machine
end

