-- ==== Sys2Proof/Machine/Builds.lean ====
section
/-! DEFINITION. The instructions of any build (R5): the four setup commands that load OPCODE take the build's opcode, and
the strobes its width, flip mask and wrap; no other instruction depends on a parameter.
-/
namespace Sys2Proof.Machine

/-- An instruction on a machine of build `b`; on this machine's own build it is `exec`. -/
def execFor (b : Build) (i : Instr) (s : State) : Result :=
  match i with
  | .flashRead addr => readSetup b.opcFlashRead addr s
  | .eepromRead addr => readSetup b.opcEepromRead addr s
  | .flashWrite addr timeout => writeSetup b.opcFlashWrite addr timeout s
  | .eepromWrite addr timeout => writeSetup b.opcEepromWrite addr timeout s
  | .inByte => inByte b.width s
  | .outByte d => outByte b d s
  | .echo _ | .read | .write _ _ | .clr _ _ | .set _ _ | .powerup _ _ | .powerdown | .spi _ _ _ _ | .pollBytes _ _
  | .ddrwrite _ _ | .spi1 _ | .unknown0F | .unknown10 _ | .unknown20 _ | .unknown40 _ | .unknown80 _ | .reserved =>
    exec i s

end Sys2Proof.Machine
end

