-- ==== Sys2Proof/Machine/Step.lean ====
section
/-! DEFINITION. One step of the engine: a command presented while SEQ is IDLE is run to its end (R9, R110); a
poll the timer has not ended goes on (R168, R172, R173); an idle engine with nothing presented waits (R211).
-/
namespace Sys2Proof.Machine

/-- One step, given the decoder, how an instruction runs, and how a poll that waits for attempt `k` goes on. -/
def stepWith (read : PortCommand → Instr) (run : Instr → State → Result) (goOn : Nat → State → State) (s : State) :
    Result :=
  match s.seq with
  | .idle =>
    match takeCommand s with
    | none => .next s
    | some (c, s') => run (read c) s'
  | .poll k => .next (goOn k s)
  | .xfer _ _ _ _ => .refused .transferInProgress

/-- One step. -/
def step (s : State) : Host.Outcome State Fault Refusal :=
  stepWith decode exec (pollFrom Config.pollElapsedWrap16) s

/-- One step of a machine of build `b` (R5). -/
def stepFor (b : Build) (s : State) : Result := stepWith (decodeWith b.spi1Code) (execFor b) (pollFrom b.wrap16) s

/-- The state in which the controller presents the command of a table word next (log entries 11, 12). -/
def State.withFetchWord (s : State) (nbits w : Nat) : State := present (tableCommand nbits w) s

end Sys2Proof.Machine
end

