-- ==== Sys2Proof/Safety.lean ====
section
/-! DEFINITION. The terms claims are stated in: what a run put on the lines, how long it took, what a command left
alone, and the invariant of a run.

Nothing here is used by the machine.  Bits and bytes are grouped here by arithmetic of their own, so that a claim does not
repeat the engine's shifts.
-/
namespace Sys2Proof.Safety

open Sys2Proof.Machine

/-- The strategy the strategy's own state belongs to (R34): the one a machine is built with (R5). -/
def strategyOf : Shifter → Strategy
  | .bitbang _ _ => .bitbang
  | .hwshift _ _ _ => .hwshift

/-- The events of the bit cycle's protocol: what the target sees, and the samples (R121). -/
def onProtocol : LineEvent → Bool
  | .sample _ => true
  | e => targetSees e

/-- The protocol of bit `j` of byte `i` of `n`, oldest first: `v` sent and `a` sampled (R121, R125).  The HWSHIFT unit
samples at the rising edge, BITBANG at the end of the high phase. -/
def bitEvents (st : Strategy) (n h i j : Nat) (v a : Bool) : List LineEvent :=
  match st with
  | .bitbang => [.drive .mosi v, .wait (.xfer n i j .setup) h, .drive .sck true, .wait (.xfer n i j .high) h,
      .sample a, .drive .sck false]
  | .hwshift => [.drive .mosi v, .wait (.xfer n i j .setup) h, .drive .sck true, .sample a,
      .wait (.xfer n i j .high) h, .drive .sck false]

/-- The protocol of byte `i` of `n`: `c` sent and `r` received, bit 7 first (R122). -/
def byteEvents (st : Strategy) (n h i : Nat) (c r : Byte) : List LineEvent :=
  [7, 6, 5, 4, 3, 2, 1, 0].flatMap fun j => bitEvents st n h i j (c.getLsbD j) (r.getLsbD j)

/-- The protocol of the bytes of a frame of `n` bytes from byte `i` on, in index order (R120). -/
def bytesEvents (st : Strategy) (n h : Nat) : Nat → List Byte → List Byte → List LineEvent
  | i, c :: out, r :: inn => byteEvents st n h i c r ++ bytesEvents st n h (i + 1) out inn
  | _, _, _ => []

/-- The protocol of a whole frame under half-period `h`: `out` sent and `inn` received (R120 to R125). -/
def frameEvents (st : Strategy) (h : Nat) (out inn : List Byte) : List LineEvent :=
  bytesEvents st out.length h 0 out inn

/-- The bits of a byte in transmission order, bit 7 first (R63, R122). -/
def bitsOf (c : Byte) : List Bool :=
  [c.getLsbD 7, c.getLsbD 6, c.getLsbD 5, c.getLsbD 4, c.getLsbD 3, c.getLsbD 2, c.getLsbD 1, c.getLsbD 0]

/-- The byte whose bits arrive in this order, the first one the most significant (R122). -/
def byteOf (bits : List Bool) : Byte := BitVec.ofNat 8 (bits.foldl (fun n b => 2 * n + b.toNat) 0)

/-- The first `n` bytes of a bit sequence. -/
def bytesOf : Nat → List Bool → List Byte
  | 0, _ => []
  | n + 1, bits => byteOf (bits.take 8) :: bytesOf n (bits.drop 8)

/-- The events a command added to the trace, oldest first. -/
def eventsBetween (s t : State) : List LineEvent := (t.trace.take (t.trace.length - s.trace.length)).reverse

/-- The MOSI level at each active clock edge of an event sequence (oldest first); `level` is MOSI's level before
it. -/
def edgeLevels : Bool → List LineEvent → List Bool
  | _, [] => []
  | _, .lines _ ol :: es => edgeLevels (lineAt ol .mosi) es
  | _, .drive .mosi v :: es => edgeLevels v es
  | _, .mosiRest v :: es => edgeLevels v es
  | level, .drive .sck true :: es => level :: edgeLevels level es
  | level, .drive .sck false :: es => edgeLevels level es
  | level, .drive .ind _ :: es => edgeLevels level es
  | level, .drive .rst _ :: es => edgeLevels level es
  | level, .wait _ _ :: es => edgeLevels level es
  | level, .overhead _ :: es => edgeLevels level es
  | level, .sample _ :: es => edgeLevels level es

/-- The bits sampled on MISO in an event sequence. -/
def sampledBits : List LineEvent → List Bool
  | [] => []
  | .sample v :: es => v :: sampledBits es
  | .lines _ _ :: es => sampledBits es
  | .drive _ _ :: es => sampledBits es
  | .mosiRest _ :: es => sampledBits es
  | .wait _ _ :: es => sampledBits es
  | .overhead _ :: es => sampledBits es

/-- The protocol events between two states, oldest first. -/
def protocolBetween (s t : State) : List LineEvent := (eventsBetween s t).filter onProtocol

/-- The bits the block sent between two states: MOSI at the active edges. -/
def sentBits (s t : State) : List Bool := edgeLevels (lineAt s.lineOL .mosi) (eventsBetween s t)

/-- The bits the block received between two states. -/
def receivedBits (s t : State) : List Bool := sampledBits (eventsBetween s t)

/-- The bytes the block received between two states, in order (R63). -/
def receivedBytes (s t : State) : List Byte := bytesOf ((receivedBits s t).length / 8) (receivedBits s t)

/-- Every fourth byte: `RES[3]` of each frame of a sequence of 4-byte frames (R144). -/
def fourthBytes : List Byte → List Byte
  | _ :: _ :: _ :: x :: rest => x :: fourthBytes rest
  | _ => []

/-- The read-backs of an OUT_BYTE: `RES[3]` of each frame after the write frame (R167). -/
def readBacks (s t : State) : List Byte := (fourthBytes (receivedBytes s t)).drop 1

/-- The length of an event in nanoseconds (R123, R229): a wait in units of `UNIT_NS`, an overhead as it is. -/
def eventNs (unitNs : Nat) : LineEvent → Nat
  | .wait _ units => units * unitNs
  | .overhead ns => ns
  | .lines _ _ => 0
  | .drive _ _ => 0
  | .mosiRest _ => 0
  | .sample _ => 0

/-- The time an event sequence takes, in nanoseconds, for a length of the calibration unit. -/
def durationAt (unitNs : Nat) (es : List LineEvent) : Nat := (es.map (eventNs unitNs)).sum

/-- The same at the `UNIT_NS` of this machine's build (R5). -/
def duration (es : List LineEvent) : Nat := durationAt Config.unitNs es

/-- Nothing happened on the lines (R183): no event, no register of theirs changed. -/
def Quiet (s t : State) : Prop := t.lineOE = s.lineOE ∧ t.lineOL = s.lineOL ∧ t.trace = s.trace

/-- What a raw frame may change (R129): the lines, the strategy's own state, the answer, and the model's inputs.
Every register, both frame buffers, `LINE_OE`, SEQ, ELAPSED and POLL_OUTCOME are as before. -/
def OnlyLines (s t : State) : Prop :=
  t = { s with lineOL := t.lineOL, shifter := t.shifter, reply := t.reply, trace := t.trace, miso := t.miso,
               fresh := t.fresh }

/-- What an encoded read frame may change besides (R147): ADDRESS, CMD and RES. -/
def OnlyRead (s t : State) : Prop :=
  t = { s with address := t.address, cmd := t.cmd, res := t.res,
               lineOL := t.lineOL, shifter := t.shifter, reply := t.reply, trace := t.trace, miso := t.miso,
               fresh := t.fresh }

/-- What a step that goes on with a poll may change (R163, R167): RES, ELAPSED, POLL_OUTCOME, SEQ and the wires. -/
def OnlyPollStep (s t : State) : Prop :=
  t = { s with res := t.res, elapsed := t.elapsed, pollOutcome := t.pollOutcome, seq := t.seq,
               lineOL := t.lineOL, shifter := t.shifter, trace := t.trace, miso := t.miso }

/-- What an OUT_BYTE may change besides (R163): ELAPSED, POLL_OUTCOME and SEQ. -/
def OnlyWrite (s t : State) : Prop :=
  t = { s with address := t.address, cmd := t.cmd, res := t.res, elapsed := t.elapsed,
               pollOutcome := t.pollOutcome, seq := t.seq,
               lineOL := t.lineOL, shifter := t.shifter, reply := t.reply, trace := t.trace, miso := t.miso,
               fresh := t.fresh }

/-- Bytes 0 to 2 of the frame for counter value `k` under opcode `op`, by the arithmetic of R88 and R140: `a` is the
effective address, doubled modulo 2 to the EEPROM width. -/
def frameHeadAt (w : DoubleWidth) (op : Byte) (k : Half) : List Byte :=
  let a := if op.getLsbD 7 then (2 * k.toNat) % 2 ^ w.bits else k.toNat
  [if a % 2 = 1 then op ||| 0x08#8 else op, BitVec.ofNat 8 (a / 512), BitVec.ofNat 8 (a / 2)]

/-- The read frame of a poll after a write frame: byte 0 with the write and read bits flipped (R164). -/
def pollHeadAt (w : DoubleWidth) (flipMask op : Byte) (k : Half) : List Byte :=
  match frameHeadAt w op k with
  | b0 :: rest => (b0 ^^^ flipMask) :: rest
  | [] => []

/-- The same at the default width of 16 bits (R5). -/
def frameHead (op : Byte) (k : Half) : List Byte := frameHeadAt .w16 op k

/-- The same at the default width of 16 bits and the default mask (R5, R164). -/
def pollHead (op : Byte) (k : Half) : List Byte := pollHeadAt .w16 0x60#8 op k

/-- The comparator of R165 on a written byte and two sentinels. -/
def confirms (d p1 p2 r : Byte) : Prop := r = d ∧ r ≠ p1 ∧ r ≠ p2

/-- Four bytes, each marked written. -/
def writtenFrame (bs : List Byte) (f : FrameBuf) : Prop :=
  [f.b0, f.b1, f.b2, f.b3] = bs.map fun b => ⟨b, true⟩

/-- Every session register and frame byte is marked unwritten (R36). -/
def allUnwritten (s : State) : Bool :=
  !s.sckPeriod.written && !s.poll1.written && !s.poll2.written && !s.address.written && !s.timeout.written &&
  !s.opcode.written &&
  !s.cmd.b0.written && !s.cmd.b1.written && !s.cmd.b2.written && !s.cmd.b3.written &&
  !s.res.b0.written && !s.res.b1.written && !s.res.b2.written && !s.res.b3.written

/-- What OUT_BYTE reads is written (R163). -/
def writeReady (s : State) : Bool :=
  s.address.written && s.opcode.written && s.timeout.written && s.poll1.written && s.poll2.written

/-- `N = max(1, ceil(T / INC))` of R168, for `INC > 0`. -/
def attemptBound (timeout inc : Nat) : Nat := max 1 ((timeout + inc - 1) / inc)

/-- The opcodes a command can write (R26). -/
def legalOpcode (op : Byte) : Prop := op = 0x20#8 ∨ op = 0xA0#8 ∨ op = 0x40#8 ∨ op = 0xC0#8

/-- The replies of R87: an `Immediate` returns 1, 4 or 8 bytes. -/
def legalReply : Reply → Prop
  | .silent => True
  | .setup .none => True
  | .setup (.immediate bs) => bs.length = 1 ∨ bs.length = 4 ∨ bs.length = 8
  | .setup .streamed => True
  | .inData _ => True
  | .out => True

/-- Where the lines stand between commands (R29, R30, R127, R180, R181): all released at 0, or all driven with IND
asserted and SCK idle. -/
def LinesRest (s : State) : Prop :=
  (s.lineOE = 0b0000#4 ∧ s.lineOL = 0b0000#4) ∨
  (s.lineOE = 0b1111#4 ∧ lineAt s.lineOL .ind = true ∧ lineAt s.lineOL .sck = false)

/-- Where SEQ stands between steps: IDLE, or waiting for a further attempt of a poll whose timer does not advance
(R33, R168; log entry 13).  The transfer positions are never seen there. -/
def SeqRest (s : State) : Prop :=
  match s.seq with
  | .idle => True
  | .poll k => 2 ≤ k ∧ powered s = true ∧ writeReady s = true ∧ s.cmd.b3.written = true ∧
      s.sckPeriod.value = 0#8 ∧ s.elapsed = 0 ∧ 0 < s.timeout.value.toNat
  | .xfer _ _ _ _ => False

/-- The machine of a build with other values of the parameters (R5; 93 I11, I15, I21). -/
def coreFor (b : Build) : Host.Core :=
  { State := State, Fault := Fault, Refusal := Refusal, step := stepFor b, reset := State.reset }

/-- The invariant of a run (R5, R26, R29, R32, R33, R34, R36, R87, R120, R182). -/
structure Inv (s : State) : Prop where
  lines : LinesRest s
  seq : SeqRest s
  unpowered : powered s = false → allUnwritten s = true
  powered : powered s = true → s.sckPeriod.written = true
  opcode : s.opcode.written = true → legalOpcode s.opcode.value
  reply : legalReply s.reply
  strategy : strategyOf s.shifter = Config.strategy

/-- The host's duty of R224, a premise of claims about a host session only: what a command put on the lines took no
longer than the host waits. -/
def WithinPatience (s t : State) : Prop := duration (eventsBetween s t) ≤ Config.hostPatience

end Sys2Proof.Safety
end

