-- ==== Sys2Proof/Certificates/Slice0/Obligations.lean ====
section
/-! DEFINITION. What the provers are asked to prove of the machine: statements read from the numbered rules of
spec/, for every state unless a premise says otherwise.

The model's own fields appear only so far as they move: `fresh`, `outside`, `miso` and `trace` carry free values and
inputs, and every statement holds whatever they hold.
-/

open Sys2Proof Sys2Proof.Machine Sys2Proof.Safety

/-- R220: after power-on reset the lines are released, SEQ is IDLE, POLL_OUTCOME is NONE, every session register and
frame byte is unwritten, and the block waits for its first command. -/
def Obligations.ResetIsUnpoweredIdleUnwritten : Prop :=
  State.reset.lineOE = 0b0000#4 ∧ State.reset.lineOL = 0b0000#4 ∧ powered State.reset = false ∧
  State.reset.seq = .idle ∧ State.reset.pollOutcome = .none ∧ allUnwritten State.reset = true ∧
  step State.reset = .next State.reset

/-- R102: ECHO, request code 0, returns the eight packet bytes and changes no state of the block. -/
def Obligations.EchoReturnsItsPacket : Prop :=
  (∀ (p : Packet) (d : Byte), p.b1 = 0#8 → decode ⟨0#2, p, d⟩ = .echo p) ∧
  ∀ (p : Packet) (s : State), exec (.echo p) s = .next
    { s with reply := .setup (.immediate [p.b0, p.b1, p.b2, p.b3, p.b4, p.b5, p.b6, p.b7]),
             fresh := s.fresh + 1 }

/-- R103: READ, request code 1, returns one drawn byte (a byte under no law) and changes no state of the block; outside
the block it has the OPEN effect GPIO_EFFECT of R5, on the model's field `outside` (log entries 4 and 7). -/
def Obligations.ReadReturnsOneDrawnByte : Prop :=
  (∀ (p : Packet) (d : Byte), p.b1 = 1#8 → decode ⟨0#2, p, d⟩ = .read) ∧
  ∀ s : State, exec .read s = .next
    { s with reply := .setup (.immediate [Config.drawByte s.fresh]), fresh := s.fresh + 2,
             outside := Config.gpioEffect .read s.outside }

/-- R104 to R107: WRITE, CLR, SET and DDRWRITE respond None and leave the block's state unchanged, its line registers
included; outside the block they have the OPEN effect GPIO_EFFECT, on the model's field `outside` (log entry 7). -/
def Obligations.GpioRequestsLeaveTheBlock : Prop :=
  (∀ (p : Packet) (d : Byte),
    (p.b1 = 2#8 → decode ⟨0#2, p, d⟩ = .write (p.b3 ++ p.b2) (p.b5 ++ p.b4)) ∧
    (p.b1 = 3#8 → decode ⟨0#2, p, d⟩ = .clr (p.b3 ++ p.b2) (p.b5 ++ p.b4)) ∧
    (p.b1 = 4#8 → decode ⟨0#2, p, d⟩ = .set (p.b3 ++ p.b2) (p.b5 ++ p.b4)) ∧
    (p.b1 = 13#8 → decode ⟨0#2, p, d⟩ = .ddrwrite (p.b3 ++ p.b2) (p.b5 ++ p.b4))) ∧
  ∀ (v i : Half) (s : State),
    exec (.write v i) s = .next { s with
      reply := .setup .none, fresh := s.fresh + 1, outside := Config.gpioEffect (.write v i) s.outside } ∧
    exec (.clr v i) s = .next { s with
      reply := .setup .none, fresh := s.fresh + 1, outside := Config.gpioEffect (.clr v i) s.outside } ∧
    exec (.set v i) s = .next { s with
      reply := .setup .none, fresh := s.fresh + 1, outside := Config.gpioEffect (.set v i) s.outside } ∧
    exec (.ddrwrite v i) s = .next { s with
      reply := .setup .none, fresh := s.fresh + 1, outside := Config.gpioEffect (.ddrwrite v i) s.outside }

/-- R85, R108: every request code from 15 to 255 responds None and changes no state, powered or not. -/
def Obligations.UnknownCodesChangeNothing : Prop :=
  (∀ (p : Packet) (d : Byte) (s : State), 15 ≤ p.b1.toNat →
    exec (decode ⟨0#2, p, d⟩) s = .next { s with reply := .setup .none, fresh := s.fresh + 1 }) ∧
  ∀ s : State,
    exec .unknown0F s = .next { s with reply := .setup .none, fresh := s.fresh + 1 } ∧
    (∀ low, exec (.unknown10 low) s = .next { s with reply := .setup .none, fresh := s.fresh + 1 }) ∧
    (∀ low, exec (.unknown20 low) s = .next { s with reply := .setup .none, fresh := s.fresh + 1 }) ∧
    (∀ low, exec (.unknown40 low) s = .next { s with reply := .setup .none, fresh := s.fresh + 1 }) ∧
    (∀ low, exec (.unknown80 low) s = .next { s with reply := .setup .none, fresh := s.fresh + 1 })

/-- R86: the reserved kind is refused with Fault(ReservedCommand) in every state. -/
def Obligations.ReservedKindFaults : Prop :=
  (∀ (p : Packet) (d : Byte), decode ⟨3#2, p, d⟩ = .reserved) ∧
  ∀ s : State, exec .reserved s = .fault .reservedCommand

/-- R180, R123, R230: POWERUP writes SCK_PERIOD, LINE_OE = 1111 and LINE_OL (IND 1, RST the flag, SCK 0, MOSI 0) as one
line event, and nothing else, in either power state.  The one overhead record of any length before the event is the
model's form of R123 and R230 (log entry 6). -/
def Obligations.PowerupWritesPeriodAndLines : Prop :=
  (∀ (p : Packet) (d : Byte), p.b1 = 5#8 → decode ⟨0#2, p, d⟩ = .powerup p.b2 p.b4) ∧
  ∀ (sck rst : Byte) (s : State),
    let ol := if rst = 0#8 then 0b0001#4 else 0b0011#4
    ∃ t, exec (.powerup sck rst) s = .next t ∧ powered t = true ∧
      t = { s with sckPeriod := ⟨sck, true⟩, lineOE := 0b1111#4, lineOL := ol,
                   trace := .lines 0b1111#4 ol :: .overhead (Config.overhead s.trace) :: s.trace,
                   reply := .setup .none, fresh := s.fresh + 1 }

/-- R181: POWERDOWN releases the four lines as one line event, after an overhead of any length (log entry 6; no event when
they are released already, log entry 19), marks every session register and frame byte unwritten, and touches nothing
else. -/
def Obligations.PowerdownReleasesAndUnmarks : Prop :=
  (∀ (p : Packet) (d : Byte), p.b1 = 6#8 → decode ⟨0#2, p, d⟩ = .powerdown) ∧
  ∀ s : State, ∃ t, exec .powerdown s = .next t ∧
    t.lineOE = 0b0000#4 ∧ t.lineOL = 0b0000#4 ∧ powered t = false ∧ allUnwritten t = true ∧
    t.trace = (if s.lineOE = 0b0000#4 then s.trace
      else .lines 0b0000#4 0b0000#4 :: .overhead (Config.overhead s.trace) :: s.trace) ∧
    t.reply = .setup .none ∧
    t = { s with sckPeriod := t.sckPeriod, poll1 := t.poll1, poll2 := t.poll2, address := t.address,
                 timeout := t.timeout, opcode := t.opcode, cmd := t.cmd, res := t.res,
                 lineOE := t.lineOE, lineOL := t.lineOL, trace := t.trace, reply := t.reply, fresh := t.fresh }

/-- R101: unpowered, a gated SETUP responds None, IN_BYTE returns a drawn byte and OUT_BYTE returns nothing; none of
them writes a register, makes a line event or starts a transfer. -/
def Obligations.GatedCommandsAreNoOpsUnpowered : Prop :=
  ∀ s : State, powered s = false →
    (∀ i : Instr, ((∃ a b c e, i = .spi a b c e) ∨ (∃ a, i = .spi1 a) ∨ (∃ a b, i = .pollBytes a b) ∨
        (∃ a, i = .flashRead a) ∨ (∃ a b, i = .flashWrite a b) ∨ (∃ a, i = .eepromRead a) ∨
        (∃ a b, i = .eepromWrite a b)) →
      exec i s = .next { s with reply := .setup .none, fresh := s.fresh + 1 }) ∧
    exec .inByte s = .next { s with reply := .inData (Config.drawByte s.fresh), fresh := s.fresh + 2 } ∧
    (∀ d, exec (.outByte d) s = .next { s with reply := .out, fresh := s.fresh + 1 })

/-- R145: FLASH_READ, powered, loads ADDRESS with wIndex and OPCODE with 0x20, and responds Streamed. -/
def Obligations.FlashReadSetsAddressAndOpcode : Prop :=
  (∀ (p : Packet) (d : Byte), p.b1 = 9#8 → decode ⟨0#2, p, d⟩ = .flashRead (p.b5 ++ p.b4)) ∧
  ∀ (addr : Half) (s : State),
    (powered s = true → exec (.flashRead addr) s = .next
      { s with address := ⟨addr, true⟩, opcode := ⟨0x20#8, true⟩,
               reply := .setup .streamed, fresh := s.fresh + 1 }) ∧
    (powered s = false → exec (.flashRead addr) s = .next
      { s with reply := .setup .none, fresh := s.fresh + 1 })

/-- R146: EEPROM_READ, powered, loads ADDRESS with wIndex and OPCODE with 0xA0, and responds Streamed. -/
def Obligations.EepromReadSetsAddressAndOpcode : Prop :=
  (∀ (p : Packet) (d : Byte), p.b1 = 11#8 → decode ⟨0#2, p, d⟩ = .eepromRead (p.b5 ++ p.b4)) ∧
  ∀ (addr : Half) (s : State),
    (powered s = true → exec (.eepromRead addr) s = .next
      { s with address := ⟨addr, true⟩, opcode := ⟨0xA0#8, true⟩,
               reply := .setup .streamed, fresh := s.fresh + 1 }) ∧
    (powered s = false → exec (.eepromRead addr) s = .next
      { s with reply := .setup .none, fresh := s.fresh + 1 })

/-- R160: POLL_BYTES, powered, loads POLL1 with wValue[7:0] and POLL2 with wValue[15:8], and responds None. -/
def Obligations.PollBytesSetsTheSentinels : Prop :=
  (∀ (p : Packet) (d : Byte), p.b1 = 8#8 → decode ⟨0#2, p, d⟩ = .pollBytes p.b2 p.b3) ∧
  ∀ (p1 p2 : Byte) (s : State),
    (powered s = true → exec (.pollBytes p1 p2) s = .next
      { s with poll1 := ⟨p1, true⟩, poll2 := ⟨p2, true⟩, reply := .setup .none, fresh := s.fresh + 1 }) ∧
    (powered s = false → exec (.pollBytes p1 p2) s = .next
      { s with reply := .setup .none, fresh := s.fresh + 1 })

/-- R161: FLASH_WRITE, powered, loads ADDRESS with wIndex, TIMEOUT with wValue and OPCODE with 0x40; no line event. -/
def Obligations.FlashWriteSetsAddressTimeoutOpcode : Prop :=
  (∀ (p : Packet) (d : Byte), p.b1 = 10#8 →
    decode ⟨0#2, p, d⟩ = .flashWrite (p.b5 ++ p.b4) (p.b3 ++ p.b2)) ∧
  ∀ (addr timeout : Half) (s : State),
    (powered s = true → exec (.flashWrite addr timeout) s = .next
      { s with address := ⟨addr, true⟩, timeout := ⟨timeout, true⟩, opcode := ⟨0x40#8, true⟩,
               reply := .setup .none, fresh := s.fresh + 1 }) ∧
    (powered s = false → exec (.flashWrite addr timeout) s = .next
      { s with reply := .setup .none, fresh := s.fresh + 1 })

/-- R162: EEPROM_WRITE, powered, loads ADDRESS with wIndex, TIMEOUT with wValue and OPCODE with 0xC0; no line event. -/
def Obligations.EepromWriteSetsAddressTimeoutOpcode : Prop :=
  (∀ (p : Packet) (d : Byte), p.b1 = 12#8 →
    decode ⟨0#2, p, d⟩ = .eepromWrite (p.b5 ++ p.b4) (p.b3 ++ p.b2)) ∧
  ∀ (addr timeout : Half) (s : State),
    (powered s = true → exec (.eepromWrite addr timeout) s = .next
      { s with address := ⟨addr, true⟩, timeout := ⟨timeout, true⟩, opcode := ⟨0xC0#8, true⟩,
               reply := .setup .none, fresh := s.fresh + 1 }) ∧
    (powered s = false → exec (.eepromWrite addr timeout) s = .next
      { s with reply := .setup .none, fresh := s.fresh + 1 })

/-- R129: SPI, powered, sends exactly the payload's 32 bits, returns the 32 bits sampled as four bytes (the bits the
run has fixed, where it has fixed 32, log entry 3), changes no register or frame buffer, and leaves the strategy's own
state that of the same strategy (R5, R34); unpowered it responds None. -/
def Obligations.SpiExchangesFourBytes : Prop :=
  (∀ (p : Packet) (d : Byte), p.b1 = 7#8 → decode ⟨0#2, p, d⟩ = .spi p.b2 p.b3 p.b4 p.b5) ∧
  ∀ (d0 d1 d2 d3 : Byte) (s : State),
    (powered s = true → ∃ t, exec (.spi d0 d1 d2 d3) s = .next t ∧
      sentBits s t = [d0, d1, d2, d3].flatMap bitsOf ∧
      (receivedBits s t).length = 32 ∧
      t.reply = .setup (.immediate (bytesOf 4 (receivedBits s t))) ∧
      (32 ≤ s.miso.length → receivedBits s t = s.miso.take 32) ∧
      strategyOf t.shifter = strategyOf s.shifter ∧ OnlyLines s t) ∧
    (powered s = false → exec (.spi d0 d1 d2 d3) s = .next
      { s with reply := .setup .none, fresh := s.fresh + 1 })

/-- R130: SPI1, powered, sends exactly the payload's 8 bits, returns the 8 bits sampled as one byte (the bits the run has
fixed, where it has fixed 8, log entry 3), changes no register or frame buffer, and leaves the strategy's own state that
of the same strategy (R5, R34); unpowered it responds None. -/
def Obligations.SpiOneExchangesOneByte : Prop :=
  (∀ (p : Packet) (d : Byte), p.b1 = 14#8 → decode ⟨0#2, p, d⟩ = .spi1 p.b2) ∧
  ∀ (d0 : Byte) (s : State),
    (powered s = true → ∃ t, exec (.spi1 d0) s = .next t ∧
      sentBits s t = bitsOf d0 ∧
      (receivedBits s t).length = 8 ∧
      t.reply = .setup (.immediate [byteOf (receivedBits s t)]) ∧
      (8 ≤ s.miso.length → receivedBits s t = s.miso.take 8) ∧
      strategyOf t.shifter = strategyOf s.shifter ∧ OnlyLines s t) ∧
    (powered s = false → exec (.spi1 d0) s = .next
      { s with reply := .setup .none, fresh := s.fresh + 1 })

/-- R121, R123, R125: the line events of a one-byte frame, oldest first and without the overheads and MOSI's open
levels: per bit, from bit 7 down, MOSI is driven, a wait of h, SCK is driven to 1, then a wait of h and the sample
(BITBANG) or the sample and the wait (HWSHIFT), and SCK is driven to 0.  h is SCK_PERIOD, or ZERO_PERIOD_HALF where
SCK_PERIOD is 0. -/
def Obligations.OneByteFrameIsEightBitCycles : Prop :=
  ∀ (d0 : Byte) (s : State), powered s = true →
    let h := if s.sckPeriod.value = 0#8 then Config.zeroPeriodHalf else s.sckPeriod.value.toNat
    ∃ (t : State) (answer : Nat → Bool), exec (.spi1 d0) s = .next t ∧
      (eventsBetween s t).filter (fun e => targetSees e || (match e with | .sample _ => true | _ => false)) =
        [7, 6, 5, 4, 3, 2, 1, 0].flatMap fun j =>
          match s.shifter with
          | .bitbang _ _ =>
            [.drive .mosi (d0.getLsbD j), .wait (.xfer 1 0 j .setup) h, .drive .sck true,
             .wait (.xfer 1 0 j .high) h, .sample (answer j), .drive .sck false]
          | .hwshift _ _ _ =>
            [.drive .mosi (d0.getLsbD j), .wait (.xfer 1 0 j .setup) h, .drive .sck true,
             .sample (answer j), .wait (.xfer 1 0 j .high) h, .drive .sck false]

/-- R126: for every frame, every register contents and every target, the two strategies send the same MOSI level at
each rising edge, receive the same bytes, leave the target the same view of the lines with the same waits, and consume
the same fixed bits (log entry 3).  The target answers its view of the lines up to the active edge (the model's choice,
log entry 2). -/
def Obligations.StrategiesAreIndistinguishable : Prop :=
  ∀ (out : List Byte) (s : State) (mask acc sr : Byte) (ec : Fin 17) (done : Bool),
    let sB : State := { s with shifter := .bitbang mask acc }
    let sH : State := { s with shifter := .hwshift sr ec done }
    (transfer out sB).1 = (transfer out sH).1 ∧
    sentBits sB (transfer out sB).2 = sentBits sH (transfer out sH).2 ∧
    sentBits sB (transfer out sB).2 = out.flatMap bitsOf ∧
    targetView (transfer out sB).2.trace = targetView (transfer out sH).2.trace ∧
    (transfer out sB).2.miso = (transfer out sH).2.miso

/-- R127, R30: after a command that shifts, LINE_OE, IND and RST are as before and SCK is at its idle level 0. -/
def Obligations.TransfersLeaveClockIdle : Prop :=
  ∀ (i : Instr) (s t : State), powered s = true → exec i s = .next t →
    ((∃ a b c e, i = .spi a b c e) ∨ (∃ a, i = .spi1 a) ∨ i = .inByte ∨ (∃ a, i = .outByte a)) →
    t.lineOE = s.lineOE ∧ lineAt t.lineOL .ind = lineAt s.lineOL .ind ∧
    lineAt t.lineOL .rst = lineAt s.lineOL .rst ∧ lineAt t.lineOL .sck = false

/-- R147, R140 to R144: IN_BYTE, powered with ADDRESS and OPCODE written, sends the frame of the counter's location,
advances the counter once modulo 2^16, stores the frame's first three bytes in CMD and the four received bytes in RES,
and returns RES[3]; byte 3 sent is CMD[3] where it is written.  The bits received are those the run has fixed, where it has
fixed 32 (R31; that a run can fix them is the model's choice, log entry 3).  The strategy's own state stays that of the same strategy
(R5, R34). -/
def Obligations.InByteReadsThroughOneFrame : Prop :=
  ∀ s : State, powered s = true → s.address.written = true → s.opcode.written = true →
    ∃ t b3, exec .inByte s = .next t ∧
      (s.cmd.b3.written = true → b3 = s.cmd.b3.value) ∧
      sentBits s t = (frameHead s.opcode.value s.address.value ++ [b3]).flatMap bitsOf ∧
      (receivedBits s t).length = 32 ∧
      (32 ≤ s.miso.length → receivedBits s t = s.miso.take 32) ∧
      t.address = ⟨s.address.value + 1#16, true⟩ ∧
      [t.cmd.b0, t.cmd.b1, t.cmd.b2] =
        (frameHead s.opcode.value s.address.value).map (fun b => (⟨b, true⟩ : Reg 8)) ∧
      t.cmd.b3 = s.cmd.b3 ∧
      writtenFrame (bytesOf 4 (receivedBits s t)) t.res ∧
      t.reply = .inData t.res.b3.value ∧
      strategyOf t.shifter = strategyOf s.shifter ∧ OnlyRead s t

/-- R147, R140: IN_BYTE while powered faults on the first unwritten register among ADDRESS and OPCODE. -/
def Obligations.InByteFaultsOnUnwritten : Prop :=
  ∀ s : State, powered s = true →
    (s.address.written = false → exec .inByte s = .fault (.unwrittenRead .address)) ∧
    (s.address.written = true → s.opcode.written = false →
      exec .inByte s = .fault (.unwrittenRead .opcode))

/-- R163: OUT_BYTE while powered faults on the first unwritten register among ADDRESS, OPCODE, TIMEOUT, POLL1 and
POLL2. -/
def Obligations.OutByteFaultsOnFirstUnwritten : Prop :=
  ∀ (d : Byte) (s : State), powered s = true →
    (s.address.written = false → exec (.outByte d) s = .fault (.unwrittenRead .address)) ∧
    (s.address.written = true → s.opcode.written = false →
      exec (.outByte d) s = .fault (.unwrittenRead .opcode)) ∧
    (s.address.written = true → s.opcode.written = true → s.timeout.written = false →
      exec (.outByte d) s = .fault (.unwrittenRead .timeout)) ∧
    (s.address.written = true → s.opcode.written = true → s.timeout.written = true → s.poll1.written = false →
      exec (.outByte d) s = .fault (.unwrittenRead .poll1)) ∧
    (s.address.written = true → s.opcode.written = true → s.timeout.written = true → s.poll1.written = true →
      s.poll2.written = false → exec (.outByte d) s = .fault (.unwrittenRead .poll2))

/-- R163, R164: OUT_BYTE, powered with its registers written, completes: it sends one write frame with byte 3 the data
byte and then n ≥ 1 read frames of the same location with the write and read bits of byte 0 flipped, advances ADDRESS
once, leaves CMD at the read frame and RES at the last frame received (all four bytes of it, marked written; its byte 3
is the last read-back), answers nothing, leaves OPCODE and every other register alone, and leaves the strategy's own state
that of the same strategy (R5, R34).  The bits received are those the run has fixed, where it has fixed enough (log
entry 3).  Where R168 calls the poll a hang (SCK_PERIOD = 0, TIMEOUT > 0, no match), "completes" means that its step ends
after the attempts of the model's cut (log entry 13). -/
def Obligations.OutByteWritesThenPolls : Prop :=
  ∀ (d : Byte) (s : State), powered s = true → writeReady s = true →
    ∃ t n, exec (.outByte d) s = .next t ∧ 1 ≤ n ∧
      sentBits s t = ((frameHead s.opcode.value s.address.value ++ [d]) ++
        (List.replicate n (pollHead s.opcode.value s.address.value ++ [d])).flatten).flatMap bitsOf ∧
      (receivedBits s t).length = 32 * (n + 1) ∧
      (32 * (n + 1) ≤ s.miso.length → receivedBits s t = s.miso.take (32 * (n + 1))) ∧
      t.address = ⟨s.address.value + 1#16, true⟩ ∧
      writtenFrame (pollHead s.opcode.value s.address.value ++ [d]) t.cmd ∧
      (receivedBytes s t).length = 4 * (n + 1) ∧ writtenFrame ((receivedBytes s t).drop (4 * n)) t.res ∧
      (readBacks s t).length = n ∧ (readBacks s t).getLast? = some t.res.b3.value ∧
      t.reply = .out ∧
      strategyOf t.shifter = strategyOf s.shifter ∧ OnlyWrite s t

/-- R168: the attempt bound.  With INC > 0 an OUT_BYTE ends in its step: at most N = max(1, ceil(T / INC)) attempts,
only the last one may confirm, CONFIRMED exactly when it does, TIMED_OUT after exactly N otherwise.  With INC = 0 and
T = 0 it makes exactly one attempt.  With INC = 0 and T > 0 it ends only on a match: each unmatched attempt, in this
step and in every later one (the model's cut into steps, log entry 13), leaves the poll waiting for the next with the
timer where it was.  ELAPSED at the step's end is the number of misses times INC (R166).  An attempt of a later step sends
CMD as it stands, stores what it receives in RES, and moves nothing but RES, POLL_OUTCOME, SEQ and the wires. -/
def Obligations.PollAttemptsAreBounded : Prop :=
  (∀ (d : Byte) (s : State), powered s = true → writeReady s = true →
    ∃ t init r, exec (.outByte d) s = .next t ∧ readBacks s t = init ++ [r] ∧
      (∀ x ∈ init, ¬ confirms d s.poll1.value s.poll2.value x) ∧
      (confirms d s.poll1.value s.poll2.value r → t.pollOutcome = .confirmed ∧ t.seq = .idle ∧
        t.elapsed = init.length * (32 * s.sckPeriod.value.toNat)) ∧
      (¬ confirms d s.poll1.value s.poll2.value r →
        t.elapsed = (init.length + 1) * (32 * s.sckPeriod.value.toNat)) ∧
      (0 < s.sckPeriod.value.toNat →
        init.length + 1 ≤ attemptBound s.timeout.value.toNat (32 * s.sckPeriod.value.toNat) ∧
        (¬ confirms d s.poll1.value s.poll2.value r → t.pollOutcome = .timedOut ∧ t.seq = .idle ∧
          init.length + 1 = attemptBound s.timeout.value.toNat (32 * s.sckPeriod.value.toNat))) ∧
      (s.sckPeriod.value.toNat = 0 → init = [] ∧
        (¬ confirms d s.poll1.value s.poll2.value r →
          (s.timeout.value.toNat = 0 → t.pollOutcome = .timedOut ∧ t.seq = .idle) ∧
          (0 < s.timeout.value.toNat → t.seq = .poll 2 ∧ t.elapsed = 0 ∧ t.pollOutcome = s.pollOutcome)))) ∧
  (∀ (k : Nat) (s : State), s.seq = .poll k → s.sckPeriod.value.toNat = 0 →
    s.elapsed < s.timeout.value.toNat →
    ∃ t, step s = .next t ∧ t.elapsed = s.elapsed ∧
      sentBits s t = [s.cmd.b0.value, s.cmd.b1.value, s.cmd.b2.value, s.cmd.b3.value].flatMap bitsOf ∧
      (receivedBits s t).length = 32 ∧ writtenFrame (bytesOf 4 (receivedBits s t)) t.res ∧ OnlyPollStep s t ∧
      (confirms s.cmd.b3.value s.poll1.value s.poll2.value t.res.b3.value →
        t.pollOutcome = .confirmed ∧ t.seq = .idle) ∧
      (¬ confirms s.cmd.b3.value s.poll1.value s.poll2.value t.res.b3.value →
        t.seq = .poll (k + 1) ∧ t.pollOutcome = s.pollOutcome))

/-- R167: with the target's answers fixed, an OUT_BYTE whose first read-back is the written byte and neither sentinel
performs exactly one attempt and ends CONFIRMED with ELAPSED 0, whatever SCK_PERIOD and TIMEOUT are.  That a run fixes
the answers in the list `miso`, of which the two frames use up 64 bits, is the model's form of R31 (log entry 3). -/
def Obligations.FirstMatchEndsThePollAtOnce : Prop :=
  ∀ (d : Byte) (s : State), powered s = true → writeReady s = true → 64 ≤ s.miso.length →
    confirms d s.poll1.value s.poll2.value (byteOf ((s.miso.drop 56).take 8)) →
    ∃ t, exec (.outByte d) s = .next t ∧ readBacks s t = [d] ∧ t.pollOutcome = .confirmed ∧
      t.elapsed = 0 ∧ t.seq = .idle ∧ t.res.b3 = ⟨d, true⟩ ∧ t.miso = s.miso.drop 64

/-- R169: with TIMEOUT = 0 an OUT_BYTE performs exactly one read attempt, whatever SCK_PERIOD is, and ends CONFIRMED
exactly when it matches, TIMED_OUT otherwise. -/
def Obligations.ZeroTimeoutMakesOneAttempt : Prop :=
  ∀ (d : Byte) (s : State), powered s = true → writeReady s = true → s.timeout.value = 0#16 →
    ∃ t r, exec (.outByte d) s = .next t ∧ readBacks s t = [r] ∧ t.seq = .idle ∧
      (confirms d s.poll1.value s.poll2.value r → t.pollOutcome = .confirmed) ∧
      (¬ confirms d s.poll1.value s.poll2.value r → t.pollOutcome = .timedOut)

/-- R170: a written byte equal to a sentinel is never confirmed.  With INC > 0 or TIMEOUT = 0 the OUT_BYTE makes exactly
N attempts and ends TIMED_OUT; with INC = 0 and TIMEOUT > 0 it hangs (log entry 13): however many steps follow, every one of them runs
and the engine is never IDLE again. -/
def Obligations.SentinelBytesNeverConfirm : Prop :=
  ∀ (d : Byte) (s : State), powered s = true → writeReady s = true →
    (d = s.poll1.value ∨ d = s.poll2.value) →
    ∃ t, exec (.outByte d) s = .next t ∧
      ((0 < s.sckPeriod.value.toNat ∨ s.timeout.value = 0#16) →
        t.seq = .idle ∧ t.pollOutcome = .timedOut ∧
        (readBacks s t).length = attemptBound s.timeout.value.toNat (32 * s.sckPeriod.value.toNat)) ∧
      (s.sckPeriod.value.toNat = 0 → 0 < s.timeout.value.toNat →
        ∀ n : Nat, ∃ u : State, Host.Core.run Sys2Proof.core n t = .next u ∧ u.seq = .poll (n + 2) ∧
          u.pending = t.pending)

/-- R172 and 90 C5: an OUT_BYTE with SCK_PERIOD ≥ 1 and A read attempts takes at least (1 + A) * 32 * SCK_PERIOD
microseconds, which is twice as many calibration units of whatever length UNIT_NS (R5) gives them, and where TIMEOUT > 0
its ELAPSED at exit is below TIMEOUT + INC. -/
def Obligations.OutByteTimeBounds : Prop :=
  ∀ (d : Byte) (s : State), powered s = true → writeReady s = true → 0 < s.sckPeriod.value.toNat →
    ∃ t, exec (.outByte d) s = .next t ∧
      (1 + (readBacks s t).length) * 32 * s.sckPeriod.value.toNat * 1000 ≤ duration (eventsBetween s t) ∧
      (∀ unitNs, (1 + (readBacks s t).length) * 32 * (2 * s.sckPeriod.value.toNat) * unitNs ≤
        durationAt unitNs (eventsBetween s t)) ∧
      (0 < s.timeout.value.toNat → t.elapsed < s.timeout.value.toNat + 32 * s.sckPeriod.value.toNat)

/-- R229, R123: the lower bounds of the frames: 8 * SCK_PERIOD microseconds for SPI1, 32 * SCK_PERIOD for SPI and
IN_BYTE; for any UNIT_NS (R5), two half-periods of SCK_PERIOD units a bit. -/
def Obligations.FramesTakeTheirNominalTime : Prop :=
  ∀ (s t : State), powered s = true → 0 < s.sckPeriod.value.toNat →
    (∀ d0, exec (.spi1 d0) s = .next t →
      8 * s.sckPeriod.value.toNat * 1000 ≤ duration (eventsBetween s t) ∧
      ∀ unitNs, 8 * (2 * s.sckPeriod.value.toNat) * unitNs ≤ durationAt unitNs (eventsBetween s t)) ∧
    (∀ d0 d1 d2 d3, exec (.spi d0 d1 d2 d3) s = .next t →
      32 * s.sckPeriod.value.toNat * 1000 ≤ duration (eventsBetween s t) ∧
      ∀ unitNs, 32 * (2 * s.sckPeriod.value.toNat) * unitNs ≤ durationAt unitNs (eventsBetween s t)) ∧
    (exec .inByte s = .next t →
      32 * s.sckPeriod.value.toNat * 1000 ≤ duration (eventsBetween s t) ∧
      ∀ unitNs, 32 * (2 * s.sckPeriod.value.toNat) * unitNs ≤ durationAt unitNs (eventsBetween s t))

/-- R165, R166, R167, R173: what follows a read frame.  A match ends the poll CONFIRMED with the timer untouched;
otherwise the timer advances by 32 * SCK_PERIOD, modulo 2^16 where POLL_ELAPSED_WRAP16 is true, and the poll goes on
exactly while the sum is below TIMEOUT, else it ends TIMED_OUT. -/
def Obligations.PollVerdictFollowsComparatorThenTimer : Prop :=
  ∀ (wrap16 : Bool) (k : Nat) (s : State),
    (confirms s.cmd.b3.value s.poll1.value s.poll2.value s.res.b3.value →
      pollVerdict wrap16 k s = { s with pollOutcome := .confirmed, seq := .idle }) ∧
    (¬ confirms s.cmd.b3.value s.poll1.value s.poll2.value s.res.b3.value →
      let sum := s.elapsed + 32 * s.sckPeriod.value.toNat
      let e := if wrap16 then sum % 65536 else sum
      (e < s.timeout.value.toNat →
        pollVerdict wrap16 k s = { s with elapsed := e, seq := .poll (k + 1) }) ∧
      (s.timeout.value.toNat ≤ e →
        pollVerdict wrap16 k s = { s with elapsed := e, pollOutcome := .timedOut, seq := .idle }))

/-- R166, R173: after k misses the timer holds k * INC, or k * INC modulo 2^16 where POLL_ELAPSED_WRAP16 is true. -/
def Obligations.TimerHoldsMultiplesOfTheIncrement : Prop :=
  ∀ k inc : Nat,
    Nat.iterate (fun e => advanceElapsed false e inc) k 0 = k * inc ∧
    Nat.iterate (fun e => advanceElapsed true e inc) k 0 = k * inc % 65536

/-- R173: the poll of a build with POLL_ELAPSED_WRAP16 = true, with g = gcd(INC, 65536).  No attempt before the last
matches, and after each of them the timer j * INC mod 2^16 was below TIMEOUT.  A match ends the poll CONFIRMED.  Without
one the timer holds the attempts' multiple of INC modulo 2^16, and the OUT_BYTE ends TIMED_OUT at the first that reaches
TIMEOUT, when TIMEOUT ≤ 65536 - g; when TIMEOUT > 65536 - g (for INC = 0, g is 65536: when TIMEOUT > 0) none does and the
poll goes on: it is cut into steps of 2048 attempts, or of one where INC = 0 (the model's cut, log entry 13), after each
of which it waits for the next attempt with the timer where it was.  A later step sends CMD as it stands once an attempt,
stores the last frame received in RES, and moves nothing but RES, POLL_OUTCOME, SEQ and the wires. -/
def Obligations.WrappedPollEndsOrGoesOn : Prop :=
  (∀ (b : Build) (d : Byte) (s : State), b.wrap16 = true → powered s = true → writeReady s = true →
    let inc := 32 * s.sckPeriod.value.toNat
    let cut := if s.sckPeriod.value = 0#8 then 1 else 2048
    ∃ t init r, execFor b (.outByte d) s = .next t ∧ readBacks s t = init ++ [r] ∧
      (∀ x ∈ init, ¬ confirms d s.poll1.value s.poll2.value x) ∧
      (∀ j, 1 ≤ j → j ≤ init.length → j * inc % 65536 < s.timeout.value.toNat) ∧
      (confirms d s.poll1.value s.poll2.value r →
        t.pollOutcome = .confirmed ∧ t.seq = .idle ∧ t.elapsed = init.length * inc % 65536) ∧
      (¬ confirms d s.poll1.value s.poll2.value r →
        t.elapsed = (init.length + 1) * inc % 65536 ∧
        (s.timeout.value.toNat ≤ 65536 - Nat.gcd inc 65536 →
          t.pollOutcome = .timedOut ∧ t.seq = .idle ∧ s.timeout.value.toNat ≤ t.elapsed) ∧
        (65536 - Nat.gcd inc 65536 < s.timeout.value.toNat →
          t.pollOutcome = s.pollOutcome ∧ t.seq = .poll (cut + 1) ∧ init.length + 1 = cut))) ∧
  (∀ (b : Build) (k m : Nat) (s : State), b.wrap16 = true → s.seq = .poll k →
    let inc := 32 * s.sckPeriod.value.toNat
    let cut := if s.sckPeriod.value = 0#8 then 1 else 2048
    s.elapsed = m * inc % 65536 → 65536 - Nat.gcd inc 65536 < s.timeout.value.toNat →
    ∃ t init r, stepFor b s = .next t ∧ fourthBytes (receivedBytes s t) = init ++ [r] ∧
      sentBits s t = (List.replicate (init.length + 1)
        [s.cmd.b0.value, s.cmd.b1.value, s.cmd.b2.value, s.cmd.b3.value]).flatten.flatMap bitsOf ∧
      writtenFrame ((receivedBytes s t).drop (4 * init.length)) t.res ∧ OnlyPollStep s t ∧
      (∀ x ∈ init, ¬ confirms s.cmd.b3.value s.poll1.value s.poll2.value x) ∧
      (confirms s.cmd.b3.value s.poll1.value s.poll2.value r →
        t.pollOutcome = .confirmed ∧ t.seq = .idle ∧ t.elapsed = (m + init.length) * inc % 65536) ∧
      (¬ confirms s.cmd.b3.value s.poll1.value s.poll2.value r →
        t.pollOutcome = s.pollOutcome ∧ t.seq = .poll (k + cut) ∧ init.length + 1 = cut ∧ t.elapsed = s.elapsed))

/-- R173, R170: on a build with POLL_ELAPSED_WRAP16 = true, an OUT_BYTE of a sentinel, which no read-back confirms, runs
without bound exactly when TIMEOUT > 65536 - gcd(INC, 65536) (for INC = 0, exactly when TIMEOUT > 0): however many steps
follow, every one of them runs and takes no command (the steps, of 2048 attempts, or of one where INC = 0, are the model's
cut, log entry 13). -/
def Obligations.WrappedSentinelPollsHang : Prop :=
  ∀ (b : Build) (d : Byte) (s : State), b.wrap16 = true → powered s = true → writeReady s = true →
    (d = s.poll1.value ∨ d = s.poll2.value) →
    let g := Nat.gcd (32 * s.sckPeriod.value.toNat) 65536
    let cut := if s.sckPeriod.value = 0#8 then 1 else 2048
    ∃ t, execFor b (.outByte d) s = .next t ∧
      (s.timeout.value.toNat ≤ 65536 - g → t.seq = .idle ∧ t.pollOutcome = .timedOut) ∧
      (65536 - g < s.timeout.value.toNat →
        ∀ n : Nat, ∃ u : State, Host.Core.run (coreFor b) n t = .next u ∧
          u.seq = .poll (cut * (n + 1) + 1) ∧ u.pending = t.pending)

/-- R140, R142, R163, R164, R5: the strobes of a build with either EEPROM_DOUBLE_WIDTH send the frames of the effective
address at that width, and the polls of an OUT_BYTE carry byte 0 XORed with the build's POLL_FLIP_MASK; every command but
the strobes and the four setups that load OPCODE, and every command of this machine's own build, is what exec says.  A
poll that cannot end (SCK_PERIOD = 0, or a wrapping timer above its bound) completes only in that its step ends after the
attempts of the model's cut (log entry 13). -/
def Obligations.StrobesFollowTheBuildsWidth : Prop :=
  (∀ (i : Instr) (s : State), execFor Config.build i s = exec i s) ∧
  (∀ (b : Build) (i : Instr) (s : State), i ≠ .inByte → (∀ d, i ≠ .outByte d) → (∀ a, i ≠ .flashRead a) →
    (∀ a, i ≠ .eepromRead a) → (∀ a t, i ≠ .flashWrite a t) → (∀ a t, i ≠ .eepromWrite a t) →
    execFor b i s = exec i s) ∧
  ∀ (b : Build) (s : State), powered s = true →
    (s.address.written = true → s.opcode.written = true → ∃ t, execFor b .inByte s = .next t ∧
      (sentBits s t).length = 32 ∧
      (sentBits s t).take 24 = (frameHeadAt b.width s.opcode.value s.address.value).flatMap bitsOf ∧
      t.address = ⟨s.address.value + 1#16, true⟩) ∧
    (writeReady s = true → ∀ d, ∃ t n, execFor b (.outByte d) s = .next t ∧ 1 ≤ n ∧
      sentBits s t = ((frameHeadAt b.width s.opcode.value s.address.value ++ [d]) ++
        (List.replicate n (pollHeadAt b.width b.flipMask s.opcode.value s.address.value ++ [d])).flatten).flatMap bitsOf ∧
      t.address = ⟨s.address.value + 1#16, true⟩)

/-- R111: a strobe runs with whatever setup came last: an OUT_BYTE after FLASH_READ sends its first frame with opcode
0x20 and polls with 0x40 (each with the odd-address bit).  Where R168 calls the poll a hang, the OUT_BYTE completes only
in that its step ends after one attempt (the model's cut, log entry 13). -/
def Obligations.StrobeUsesTheLastSetup : Prop :=
  ∀ (addr : Half) (d : Byte) (s : State), powered s = true → s.timeout.written = true →
    s.poll1.written = true → s.poll2.written = true →
    ∃ s1 t h rest, exec (.flashRead addr) s = .next s1 ∧ exec (.outByte d) s1 = .next t ∧
      h = (if addr.toNat % 2 = 1 then 0x08#8 else 0x00#8) ∧
      sentBits s1 t = bitsOf (0x20#8 ||| h) ++ rest ∧
      (sentBits s1 t).drop 32 = bitsOf (0x40#8 ||| h) ++ rest.drop 32 ∧
      t.opcode = ⟨0x20#8, true⟩

/-- R29, R182: only POWERUP and POWERDOWN write LINE_OE, so POWERED moves as the power state machine says; it starts
Unpowered. -/
def Obligations.OnlyPowerCommandsMoveThePowerState : Prop :=
  powered State.reset = false ∧
  ∀ (i : Instr) (s t : State), exec i s = .next t →
    t.lineOE = (match i with
      | .powerup _ _ => 0b1111#4
      | .powerdown => 0b0000#4
      | _ => s.lineOE) ∧
    powered t = (match i with
      | .powerup _ _ => true
      | .powerdown => false
      | _ => powered s)

/-- R183: unpowered, with the line levels released, every command but POWERUP and the reserved kind completes with zero
line changes and no line event, and the block stays unpowered. -/
def Obligations.UnpoweredCommandsAreQuiet : Prop :=
  ∀ (i : Instr) (s : State), powered s = false → s.lineOL = 0b0000#4 →
    (∀ sck rst, i ≠ .powerup sck rst) → i ≠ .reserved →
    ∃ t, exec i s = .next t ∧ Quiet s t ∧ powered t = false

/-- R183, PR5: idle safety over runs.  From an unpowered idle state, any sequence of commands without POWERUP and
without the reserved kind runs to its end with no line change and no line event at all. -/
def Obligations.IdleSafetyOverRuns : Prop :=
  ∀ (cs : List PortCommand) (s : State), powered s = false → s.lineOL = 0b0000#4 → s.seq = .idle →
    s.pending = cs →
    (∀ c ∈ cs, decode c ≠ .reserved ∧ ∀ sck rst, decode c ≠ .powerup sck rst) →
    ∀ n : Nat, ∃ t : State, Host.Core.run Sys2Proof.core n s = .next t ∧ Quiet s t ∧ powered t = false ∧
      t.pending = cs.drop n

/-- R24, R148: ADDRESS is loaded by the four setup commands while powered, advances by exactly 1 modulo 2^16 with each
strobe executed while powered, loses its mark at POWERDOWN, and is changed by nothing else. -/
def Obligations.AddressMovesOnlyBySetupAndStrobe : Prop :=
  ∀ (i : Instr) (s t : State), exec i s = .next t →
    match i with
    | .flashRead a => t.address = if powered s then ⟨a, true⟩ else s.address
    | .eepromRead a => t.address = if powered s then ⟨a, true⟩ else s.address
    | .flashWrite a _ => t.address = if powered s then ⟨a, true⟩ else s.address
    | .eepromWrite a _ => t.address = if powered s then ⟨a, true⟩ else s.address
    | .inByte => t.address = if powered s then ⟨s.address.value + 1#16, true⟩ else s.address
    | .outByte _ => t.address = if powered s then ⟨s.address.value + 1#16, true⟩ else s.address
    | .powerdown => t.address.written = false
    | _ => t.address = s.address

/-- R148, PR1: for N consecutive strobes, with ADDRESS and OPCODE written, and with what an OUT_BYTE reads written and
its timer bounded (SCK_PERIOD ≥ 1, or TIMEOUT = 0) where one of them is an OUT_BYTE: each takes one step, strobe k sends
the frame of the counter value (A0 + k) mod 65536, and ADDRESS ends at A0 + N.  A run of IN_BYTEs alone needs nothing
of TIMEOUT, POLL1, POLL2 and SCK_PERIOD. -/
def Obligations.StrobesWalkTheAddressCounter : Prop :=
  ∀ (cs rest : List PortCommand) (s : State), (∀ c ∈ cs, c.kind = 1#2 ∨ c.kind = 2#2) →
    s.seq = .idle → powered s = true → s.address.written = true → s.opcode.written = true →
    ((∃ c ∈ cs, c.kind = 2#2) →
      writeReady s = true ∧ (0 < s.sckPeriod.value.toNat ∨ s.timeout.value = 0#16)) →
    s.pending = cs ++ rest →
    ∀ k : Nat, k ≤ cs.length → ∃ u : State, Host.Core.run Sys2Proof.core k s = .next u ∧ u.seq = .idle ∧
      u.address = ⟨s.address.value + BitVec.ofNat 16 k, true⟩ ∧ u.opcode = s.opcode ∧
      (k < cs.length → ∃ v : State, Host.Core.run Sys2Proof.core (k + 1) s = .next v ∧
        (sentBits u v).take 24 =
          (frameHead s.opcode.value (s.address.value + BitVec.ofNat 16 k)).flatMap bitsOf)

/-- R61, R62, R140 to R142: the frame of a counter value.  Bytes 1 and 2 carry the low 16 bits of a >> 1 big-endian
and bit 3 of byte 0 says a is odd; so in EEPROM mode they carry the counter modulo 2^15 at width 16 and the whole
counter at width 17, with bit 3 clear, and in flash mode the counter's upper 15 bits. -/
def Obligations.FrameCarriesTheEffectiveAddress : Prop :=
  ∀ (op : Byte) (k : Half), op.getLsbD 3 = false →
    (op.getLsbD 7 = true →
      (let a := effectiveAddress .w16 op k
       a = (2 * k.toNat) % 65536 ∧ (frameByte1 a ++ frameByte2 a).toNat = k.toNat % 32768 ∧
         frameByte0 op a = op) ∧
      (let a := effectiveAddress .w17 op k
       a = 2 * k.toNat ∧ frameByte1 a ++ frameByte2 a = k ∧ frameByte0 op a = op)) ∧
    (op.getLsbD 7 = false → ∀ w,
      let a := effectiveAddress w op k
      a = k.toNat ∧ (frameByte1 a ++ frameByte2 a).toNat = k.toNat / 2 ∧
        (frameByte0 op a).getLsbD 3 = k.getLsbD 0)

/-- R148, PR2: at the same counter value the EEPROM effective address is twice the flash one, modulo 2^width. -/
def Obligations.EepromAddressIsTwiceTheFlashAddress : Prop :=
  ∀ (w : DoubleWidth) (opE opF : Byte) (k : Half), opE.getLsbD 7 = true → opF.getLsbD 7 = false →
    effectiveAddress w opE k = (2 * effectiveAddress w opF k) % 2 ^ w.bits

/-- R89, R164: the flip replaces byte 0 of CMD by its XOR with POLL_FLIP_MASK and touches nothing else.  It turns the
frame ENCODE builds under a write opcode into the one it builds under the read opcode at the same location, flash and
EEPROM and at either width, and back; it keeps the H bit and the E bit of every byte 0. -/
def Obligations.FlipTurnsWriteIntoReadByte : Prop :=
  (∀ (mask : Byte) (s : State), flipOpcode mask s =
    { s with cmd := { s.cmd with b0 := ⟨s.cmd.b0.value ^^^ mask, true⟩ } }) ∧
  (∀ (w : DoubleWidth) (k : Half) (s : State),
    (flipOpcode Config.pollFlipMask (buildFrame w k Config.opcFlashWrite s)).cmd = (buildFrame w k Config.opcFlashRead s).cmd ∧
    (flipOpcode Config.pollFlipMask (buildFrame w k Config.opcEepromWrite s)).cmd = (buildFrame w k Config.opcEepromRead s).cmd ∧
    (flipOpcode Config.pollFlipMask (buildFrame w k Config.opcFlashRead s)).cmd = (buildFrame w k Config.opcFlashWrite s).cmd ∧
    (flipOpcode Config.pollFlipMask (buildFrame w k Config.opcEepromRead s)).cmd = (buildFrame w k Config.opcEepromWrite s).cmd) ∧
  ∀ (w : DoubleWidth) (op : Byte) (k : Half),
    let b := frameByte0 op (effectiveAddress w op k)
    (b ^^^ Config.pollFlipMask).getLsbD 3 = b.getLsbD 3 ∧ (b ^^^ Config.pollFlipMask).getLsbD 7 = b.getLsbD 7

/-- R109, R201: no command is refused, and the only faults are ReservedCommand, of the reserved kind, and
UnwrittenRead, of a strobe while powered. -/
def Obligations.OnlyTwoFaultsExist : Prop :=
  ∀ (i : Instr) (s : State),
    (∀ r, exec i s ≠ .refused r) ∧
    (∀ f, exec i s = .fault f →
      (i = .reserved ∧ f = .reservedCommand) ∨
      (powered s = true ∧ (i = .inByte ∨ ∃ d, i = .outByte d) ∧ ∃ r, f = .unwrittenRead r))

/-- R221, R181: a POWERDOWN voids every setup: after POWERDOWN and POWERUP, a strobe faults on ADDRESS. -/
def Obligations.PowerCycleVoidsTheSetup : Prop :=
  ∀ (sck rst : Byte) (s : State), ∃ s1 s2, exec .powerdown s = .next s1 ∧
    exec (.powerup sck rst) s1 = .next s2 ∧
    exec .inByte s2 = .fault (.unwrittenRead .address) ∧
    ∀ d, exec (.outByte d) s2 = .fault (.unwrittenRead .address)

/-- R87, R171: an IN_BYTE returns one byte, an OUT_BYTE nothing, and a SETUP's reply is None, Immediate of 1, 4 or 8
bytes, or Streamed; RKIND is 0b00 for None, 0b01 for Immediate, 0b10 for Streamed and never 0b11, RLEN is the number of
bytes of an Immediate, and RDATA holds the bytes returned. -/
def Obligations.RepliesAreLegalDataPhases : Prop :=
  (∀ (i : Instr) (s t : State), exec i s = .next t →
    match i with
    | .inByte => ∃ b, t.reply = .inData b
    | .outByte _ => t.reply = .out
    | _ => ∃ p, t.reply = .setup p ∧ legalReply (.setup p)) ∧
  rkind .none = 0b00#2 ∧ (∀ bs, rkind (.immediate bs) = 0b01#2) ∧ rkind .streamed = 0b10#2 ∧
  (∀ p : DataPhase, rkind p ≠ 0b11#2) ∧
  ∀ (s : State) (bs : List Byte), legalReply (.setup (.immediate bs)) →
    (rlen s (.immediate bs)).toNat = bs.length ∧
    ∀ i : Nat, i < bs.length → bs[i]? = some (rdata s (.immediate bs) i)

/-- R65, R81, R82: the 16-bit fields are little-endian in the packet, and the packet is the word S with
data[i] = S[8i+7:8i]. -/
def Obligations.PacketFieldsAreLittleEndian : Prop :=
  ∀ p : Packet,
    p.wValue.toNat = p.b2.toNat + 256 * p.b3.toNat ∧ p.wIndex.toNat = p.b4.toNat + 256 * p.b5.toNat ∧
    ∀ i : Nat, i < 8 → p.bytes[i]? = some (p.word.extractLsb' (8 * i) 8)

/-- R83: exactly one row of the opcode table matches every one of the 1024 selector values, and for every command on the
port that row is the one of the instruction the decoder gives. -/
def Obligations.EverySelectorHasItsOneRow : Prop :=
  (∀ sel : BitVec 10, ∃ r, rows.filter (fun r => r.covers sel) = [r]) ∧
  ∀ c : PortCommand, rows.filter (fun r => r.covers (selector c)) = [rowOf (decode c)]

/-- R91: the fields a command ignores do not change what is decoded: bmRequestType and wLength of every SETUP but ECHO,
and the named operand bytes of POWERUP, POLL_BYTES, FLASH_READ, EEPROM_READ and SPI1; ECHO keeps all eight bytes. -/
def Obligations.IgnoredFieldsDoNotMatter : Prop :=
  ∀ (p q : Packet) (d e : Byte), q.b1 = p.b1 →
    (p.b1 ≠ 0#8 → q.b2 = p.b2 → q.b3 = p.b3 → q.b4 = p.b4 → q.b5 = p.b5 →
      decode ⟨0#2, q, e⟩ = decode ⟨0#2, p, d⟩) ∧
    (p.b1 = 5#8 → q.b2 = p.b2 → q.b4 = p.b4 → decode ⟨0#2, q, e⟩ = decode ⟨0#2, p, d⟩) ∧
    (p.b1 = 8#8 → q.b2 = p.b2 → q.b3 = p.b3 → decode ⟨0#2, q, e⟩ = decode ⟨0#2, p, d⟩) ∧
    (p.b1 = 9#8 ∨ p.b1 = 11#8 → q.b4 = p.b4 → q.b5 = p.b5 → decode ⟨0#2, q, e⟩ = decode ⟨0#2, p, d⟩) ∧
    (p.b1 = 14#8 → q.b2 = p.b2 → decode ⟨0#2, q, e⟩ = decode ⟨0#2, p, d⟩) ∧
    (p.b1 = 0#8 → (decode ⟨0#2, q, e⟩ = decode ⟨0#2, p, d⟩ ↔ q = p))

/-- R84, R93: decoding an encoded well-formed instruction gives it back, for every instruction and every operand. -/
def Obligations.DecodeInvertsEncode : Prop :=
  ∀ i : Instr, i.wellFormed = true → decode (encode i) = i

/-- R84: the decoder gives only well-formed instructions, and encoding one gives back a command with the same selector,
the same operand bytes and so the same instruction. -/
def Obligations.DecodedInstructionsAreWellFormed : Prop :=
  ∀ c : PortCommand, (decode c).wellFormed = true ∧ selector (encode (decode c)) = selector c

/-- Words written out from R81 to R84 decode to the commands they stand for (95 S1, S2, DS10, P2; R93). -/
def Obligations.SpecWordsDecode : Prop :=
  decode ⟨0#2, ⟨0x40, 0x05, 0x04, 0x00, 0x01, 0x00, 0x00, 0x00⟩, 0⟩ = .powerup 4#8 1#8 ∧
  decode ⟨0#2, ⟨0xC0, 0x09, 0x00, 0x00, 0x10, 0x00, 0x00, 0x00⟩, 0⟩ = .flashRead 0x0010#16 ∧
  decode ⟨0#2, ⟨0x40, 0x0C, 0xC8, 0x00, 0x05, 0x00, 0x00, 0x00⟩, 0⟩ = .eepromWrite 5#16 200#16 ∧
  decode ⟨0#2, ⟨0xC0, 0x0E, 0x30, 0x00, 0x00, 0x00, 0x00, 0x00⟩, 0⟩ = .spi1 0x30#8 ∧
  decode ⟨2#2, ⟨0, 0, 0, 0, 0, 0, 0, 0⟩, 0x5A⟩ = .outByte 0x5A#8

/-- R100, R110, R80: while SEQ is IDLE a step takes the next command on the port, decodes it and executes it on the
state without it. -/
def Obligations.StepRunsTheDecodedCommand : Prop :=
  (∀ (s : State) (c : PortCommand) (rest : List PortCommand), s.seq = .idle → s.pending = c :: rest →
    step s = exec (decode c) { s with pending := rest }) ∧
  ∀ (s : State) (nbits w : Nat), ∃ i, decodeTableWord nbits w = some i ∧
    step (s.withFetchWord nbits w) = exec i { s with seq := .idle }

/-- R110, R211: a step accepts no command while SEQ is POLL and makes no answer then; an idle engine with nothing
presented waits with all state kept.  That a step begins at POLL is the model's cut (log entry 13); none begins at XFER
(log entry 28). -/
def Obligations.BusyEngineAcceptsNothing : Prop :=
  (∀ s : State, s.seq = .idle → s.pending = [] → step s = .next s) ∧
  (∀ (s : State) (k : Nat), s.seq = .poll k → ∃ t, step s = .next t ∧
    t.pending = s.pending ∧ t.reply = s.reply ∧ t.address = s.address ∧ t.cmd = s.cmd)

/-- The invariant of a run holds at reset (R5, R26, R29, R32, R33, R34, R36, R87). -/
def Obligations.InvariantHoldsAtReset : Prop := Inv State.reset

/-- Every step keeps the invariant (R5, R26, R29, R32, R33, R34, R36, R87, R120, R127, R182). -/
def Obligations.EveryStepKeepsTheInvariant : Prop :=
  ∀ s t : State, Inv s → step s = .next t → Inv t

/-- R109, R128: from a state of the invariant no step is refused: a run never stands inside a TRANSFER. -/
def Obligations.InvariantStepsAreNeverRefused : Prop :=
  ∀ s : State, Inv s → ∀ r, step s ≠ .refused r

/-- R167, R110: a step that goes on with a poll, on any build: it makes n attempts (one where SCK_PERIOD = 0; the cut
into steps is the model's, log entry 13), each of which sends the four bytes of CMD and receives 32 bits (those the run
has fixed, where it has fixed enough, log entry 3).  RES holds the last four bytes received, no attempt before the last
matches, and the last decides: a match ends the poll CONFIRMED, a miss ends it TIMED_OUT or leaves it waiting for attempt
k + n.  Nothing moves but RES, ELAPSED, POLL_OUTCOME, SEQ and the wires; SCK ends idle, and the strategy stays (R5, R34). -/
def Obligations.PollStepsResendTheReadFrame : Prop :=
  (∀ s : State, stepFor Config.build s = step s) ∧
  ∀ (b : Build) (k : Nat) (s : State), s.seq = .poll k →
    ∃ t init r, stepFor b s = .next t ∧
      let n := init.length + 1
      (s.sckPeriod.value = 0#8 → n = 1) ∧
      sentBits s t = (List.replicate n
        [s.cmd.b0.value, s.cmd.b1.value, s.cmd.b2.value, s.cmd.b3.value]).flatten.flatMap bitsOf ∧
      (receivedBits s t).length = 32 * n ∧
      (32 * n ≤ s.miso.length → receivedBits s t = s.miso.take (32 * n) ∧ t.miso = s.miso.drop (32 * n)) ∧
      fourthBytes (receivedBytes s t) = init ++ [r] ∧
      writtenFrame ((receivedBytes s t).drop (4 * init.length)) t.res ∧
      (∀ x ∈ init, ¬ confirms s.cmd.b3.value s.poll1.value s.poll2.value x) ∧
      (confirms s.cmd.b3.value s.poll1.value s.poll2.value r → t.pollOutcome = .confirmed ∧ t.seq = .idle) ∧
      (¬ confirms s.cmd.b3.value s.poll1.value s.poll2.value r →
        (t.pollOutcome = .timedOut ∧ t.seq = .idle) ∨ (t.pollOutcome = s.pollOutcome ∧ t.seq = .poll (k + n))) ∧
      lineAt t.lineOL .ind = lineAt s.lineOL .ind ∧ lineAt t.lineOL .rst = lineAt s.lineOL .rst ∧
      lineAt t.lineOL .sck = false ∧ strategyOf t.shifter = strategyOf s.shifter ∧ OnlyPollStep s t

/-- R120 to R125, R230: the line events, waits and samples of every frame, oldest first and without the overheads and
MOSI's open levels (log entries 5 and 6): byte i of n in index order, bit 7 first, each bit a drive of MOSI, a wait of h,
SCK to 1, a wait of h and the sample (BITBANG) or the sample and the wait (HWSHIFT), SCK to 0.  So for TRANSFER of any
bytes in any state, for the frames of SPI and IN_BYTE, for an OUT_BYTE (one write frame, then its read frames) and for a
step that goes on with a poll (the cut of log entry 13).  That SEQ is XFER in the waits of a poll's own frames, where R33
gives XFER and POLL(k) and does not say which holds, is the model's choice (log entry 14). -/
def Obligations.FramesAreBitCyclesInOrder : Prop :=
  ∀ s : State,
    let st := strategyOf s.shifter
    let h := if s.sckPeriod.value = 0#8 then Config.zeroPeriodHalf else s.sckPeriod.value.toNat
    let cmd := [s.cmd.b0.value, s.cmd.b1.value, s.cmd.b2.value, s.cmd.b3.value]
    let head := frameHead s.opcode.value s.address.value
    let again := pollHead s.opcode.value s.address.value
    (∀ out : List Byte, (transfer out s).1.length = out.length ∧
      protocolBetween s (transfer out s).2 = frameEvents st h out (transfer out s).1) ∧
    (powered s = true → ∀ d0 d1 d2 d3 : Byte, ∃ t inn, exec (.spi d0 d1 d2 d3) s = .next t ∧ inn.length = 4 ∧
      t.reply = .setup (.immediate inn) ∧ protocolBetween s t = frameEvents st h [d0, d1, d2, d3] inn) ∧
    (powered s = true → s.address.written = true → s.opcode.written = true →
      ∃ t b3 inn, exec .inByte s = .next t ∧ (s.cmd.b3.written = true → b3 = s.cmd.b3.value) ∧
        inn.length = 4 ∧ writtenFrame inn t.res ∧ protocolBetween s t = frameEvents st h (head ++ [b3]) inn) ∧
    (powered s = true → writeReady s = true → ∀ d : Byte,
      ∃ (t : State) (first : List Byte) (frames : List (List Byte)), exec (.outByte d) s = .next t ∧ frames ≠ [] ∧
        (∀ f ∈ first :: frames, f.length = 4) ∧ receivedBytes s t = (first :: frames).flatten ∧
        protocolBetween s t =
          frameEvents st h (head ++ [d]) first ++ frames.flatMap (frameEvents st h (again ++ [d]))) ∧
    ∀ k, s.seq = .poll k → ∃ (t : State) (frames : List (List Byte)), step s = .next t ∧ frames ≠ [] ∧
      (∀ f ∈ frames, f.length = 4) ∧ receivedBytes s t = frames.flatten ∧
      protocolBetween s t = frames.flatMap (frameEvents st h cmd)

/-- R5, R26, R84, R108: a build with other values of OPC_FLASH_READ, OPC_EEPROM_READ, OPC_FLASH_WRITE, OPC_EEPROM_WRITE
and SPI1_CODE: its setups load its own opcodes, request code SPI1_CODE is SPI1 where it is 14 or more, and every other code
from 14 up changes nothing.  Codes 0 to 13 and the other kinds decode as on this machine, and a step runs what the build's
decoder gives.  Where SPI1_CODE is itself 0 to 13, that the command R84 gives the code keeps it, and no code is SPI1, is
the model's choice (log entry 10). -/
def Obligations.SetupsAndDecoderFollowTheBuild : Prop :=
  ∀ b : Build,
    (∀ (addr timeout : Half) (s : State), powered s = true →
      execFor b (.flashRead addr) s = .next { s with
        address := ⟨addr, true⟩, opcode := ⟨b.opcFlashRead, true⟩, reply := .setup .streamed, fresh := s.fresh + 1 } ∧
      execFor b (.eepromRead addr) s = .next { s with
        address := ⟨addr, true⟩, opcode := ⟨b.opcEepromRead, true⟩, reply := .setup .streamed, fresh := s.fresh + 1 } ∧
      execFor b (.flashWrite addr timeout) s = .next { s with
        address := ⟨addr, true⟩, timeout := ⟨timeout, true⟩, opcode := ⟨b.opcFlashWrite, true⟩,
        reply := .setup .none, fresh := s.fresh + 1 } ∧
      execFor b (.eepromWrite addr timeout) s = .next { s with
        address := ⟨addr, true⟩, timeout := ⟨timeout, true⟩, opcode := ⟨b.opcEepromWrite, true⟩,
        reply := .setup .none, fresh := s.fresh + 1 }) ∧
    (∀ (i : Instr) (s : State), powered s = false →
      ((∃ a, i = .flashRead a) ∨ (∃ a, i = .eepromRead a) ∨ (∃ a t, i = .flashWrite a t) ∨
        (∃ a t, i = .eepromWrite a t)) →
      execFor b i s = .next { s with reply := .setup .none, fresh := s.fresh + 1 }) ∧
    (∀ (p : Packet) (d : Byte),
      (p.b1.toNat ≤ 13 → decodeWith b.spi1Code ⟨0#2, p, d⟩ = decode ⟨0#2, p, d⟩) ∧
      (14 ≤ p.b1.toNat → p.b1 = b.spi1Code → decodeWith b.spi1Code ⟨0#2, p, d⟩ = .spi1 p.b2) ∧
      (14 ≤ p.b1.toNat → p.b1 ≠ b.spi1Code → ∀ s : State,
        execFor b (decodeWith b.spi1Code ⟨0#2, p, d⟩) s =
          .next { s with reply := .setup .none, fresh := s.fresh + 1 })) ∧
    (∀ c : PortCommand, c.kind ≠ 0#2 → decodeWith b.spi1Code c = decode c) ∧
    ∀ (s : State) (c : PortCommand) (rest : List PortCommand), s.seq = .idle → s.pending = c :: rest →
      stepFor b s = execFor b (decodeWith b.spi1Code c) { s with pending := rest }
end

