-- ==== Sys2Proof/Laws/State.lean ====
section
/-! SUPPORT. What each named operation does to each field of the state, one lemma per field, so that no proof unfolds a
record update. -/
namespace Sys2Proof.Laws

open Sys2Proof.Machine

@[simp] theorem answer_sckPeriod (r : Reply) (s : State) : (answer r s).sckPeriod = s.sckPeriod := rfl
@[simp] theorem answer_poll1 (r : Reply) (s : State) : (answer r s).poll1 = s.poll1 := rfl
@[simp] theorem answer_poll2 (r : Reply) (s : State) : (answer r s).poll2 = s.poll2 := rfl
@[simp] theorem answer_address (r : Reply) (s : State) : (answer r s).address = s.address := rfl
@[simp] theorem answer_timeout (r : Reply) (s : State) : (answer r s).timeout = s.timeout := rfl
@[simp] theorem answer_opcode (r : Reply) (s : State) : (answer r s).opcode = s.opcode := rfl
@[simp] theorem answer_cmd (r : Reply) (s : State) : (answer r s).cmd = s.cmd := rfl
@[simp] theorem answer_res (r : Reply) (s : State) : (answer r s).res = s.res := rfl
@[simp] theorem answer_lineOE (r : Reply) (s : State) : (answer r s).lineOE = s.lineOE := rfl
@[simp] theorem answer_lineOL (r : Reply) (s : State) : (answer r s).lineOL = s.lineOL := rfl
@[simp] theorem answer_seq (r : Reply) (s : State) : (answer r s).seq = s.seq := rfl
@[simp] theorem answer_shifter (r : Reply) (s : State) : (answer r s).shifter = s.shifter := rfl
@[simp] theorem answer_elapsed (r : Reply) (s : State) : (answer r s).elapsed = s.elapsed := rfl
@[simp] theorem answer_pollOutcome (r : Reply) (s : State) : (answer r s).pollOutcome = s.pollOutcome := rfl
@[simp] theorem answer_pending (r : Reply) (s : State) : (answer r s).pending = s.pending := rfl
@[simp] theorem answer_reply (r : Reply) (s : State) : (answer r s).reply = r := rfl
@[simp] theorem answer_trace (r : Reply) (s : State) : (answer r s).trace = s.trace := rfl
@[simp] theorem answer_miso (r : Reply) (s : State) : (answer r s).miso = s.miso := rfl
@[simp] theorem answer_fresh (r : Reply) (s : State) : (answer r s).fresh = s.fresh + 1 := rfl
@[simp] theorem answer_outside (r : Reply) (s : State) : (answer r s).outside = s.outside := rfl

@[simp] theorem respond_sckPeriod (p : DataPhase) (s : State) : (respond p s).sckPeriod = s.sckPeriod := rfl
@[simp] theorem respond_poll1 (p : DataPhase) (s : State) : (respond p s).poll1 = s.poll1 := rfl
@[simp] theorem respond_poll2 (p : DataPhase) (s : State) : (respond p s).poll2 = s.poll2 := rfl
@[simp] theorem respond_address (p : DataPhase) (s : State) : (respond p s).address = s.address := rfl
@[simp] theorem respond_timeout (p : DataPhase) (s : State) : (respond p s).timeout = s.timeout := rfl
@[simp] theorem respond_opcode (p : DataPhase) (s : State) : (respond p s).opcode = s.opcode := rfl
@[simp] theorem respond_cmd (p : DataPhase) (s : State) : (respond p s).cmd = s.cmd := rfl
@[simp] theorem respond_res (p : DataPhase) (s : State) : (respond p s).res = s.res := rfl
@[simp] theorem respond_lineOE (p : DataPhase) (s : State) : (respond p s).lineOE = s.lineOE := rfl
@[simp] theorem respond_lineOL (p : DataPhase) (s : State) : (respond p s).lineOL = s.lineOL := rfl
@[simp] theorem respond_seq (p : DataPhase) (s : State) : (respond p s).seq = s.seq := rfl
@[simp] theorem respond_shifter (p : DataPhase) (s : State) : (respond p s).shifter = s.shifter := rfl
@[simp] theorem respond_elapsed (p : DataPhase) (s : State) : (respond p s).elapsed = s.elapsed := rfl
@[simp] theorem respond_pollOutcome (p : DataPhase) (s : State) : (respond p s).pollOutcome = s.pollOutcome := rfl
@[simp] theorem respond_pending (p : DataPhase) (s : State) : (respond p s).pending = s.pending := rfl
@[simp] theorem respond_reply (p : DataPhase) (s : State) : (respond p s).reply = .setup p := rfl
@[simp] theorem respond_trace (p : DataPhase) (s : State) : (respond p s).trace = s.trace := rfl
@[simp] theorem respond_miso (p : DataPhase) (s : State) : (respond p s).miso = s.miso := rfl
@[simp] theorem respond_fresh (p : DataPhase) (s : State) : (respond p s).fresh = s.fresh + 1 := rfl
@[simp] theorem respond_outside (p : DataPhase) (s : State) : (respond p s).outside = s.outside := rfl

@[simp] theorem draw_sckPeriod (s : State) : ((draw s).2).sckPeriod = s.sckPeriod := rfl
@[simp] theorem draw_poll1 (s : State) : ((draw s).2).poll1 = s.poll1 := rfl
@[simp] theorem draw_poll2 (s : State) : ((draw s).2).poll2 = s.poll2 := rfl
@[simp] theorem draw_address (s : State) : ((draw s).2).address = s.address := rfl
@[simp] theorem draw_timeout (s : State) : ((draw s).2).timeout = s.timeout := rfl
@[simp] theorem draw_opcode (s : State) : ((draw s).2).opcode = s.opcode := rfl
@[simp] theorem draw_cmd (s : State) : ((draw s).2).cmd = s.cmd := rfl
@[simp] theorem draw_res (s : State) : ((draw s).2).res = s.res := rfl
@[simp] theorem draw_lineOE (s : State) : ((draw s).2).lineOE = s.lineOE := rfl
@[simp] theorem draw_lineOL (s : State) : ((draw s).2).lineOL = s.lineOL := rfl
@[simp] theorem draw_seq (s : State) : ((draw s).2).seq = s.seq := rfl
@[simp] theorem draw_shifter (s : State) : ((draw s).2).shifter = s.shifter := rfl
@[simp] theorem draw_elapsed (s : State) : ((draw s).2).elapsed = s.elapsed := rfl
@[simp] theorem draw_pollOutcome (s : State) : ((draw s).2).pollOutcome = s.pollOutcome := rfl
@[simp] theorem draw_pending (s : State) : ((draw s).2).pending = s.pending := rfl
@[simp] theorem draw_reply (s : State) : ((draw s).2).reply = s.reply := rfl
@[simp] theorem draw_trace (s : State) : ((draw s).2).trace = s.trace := rfl
@[simp] theorem draw_miso (s : State) : ((draw s).2).miso = s.miso := rfl
@[simp] theorem draw_fresh (s : State) : ((draw s).2).fresh = s.fresh + 1 := rfl
@[simp] theorem draw_outside (s : State) : ((draw s).2).outside = s.outside := rfl

@[simp] theorem gpio_sckPeriod (r : GpioRequest) (s : State) : (gpio r s).sckPeriod = s.sckPeriod := rfl
@[simp] theorem gpio_poll1 (r : GpioRequest) (s : State) : (gpio r s).poll1 = s.poll1 := rfl
@[simp] theorem gpio_poll2 (r : GpioRequest) (s : State) : (gpio r s).poll2 = s.poll2 := rfl
@[simp] theorem gpio_address (r : GpioRequest) (s : State) : (gpio r s).address = s.address := rfl
@[simp] theorem gpio_timeout (r : GpioRequest) (s : State) : (gpio r s).timeout = s.timeout := rfl
@[simp] theorem gpio_opcode (r : GpioRequest) (s : State) : (gpio r s).opcode = s.opcode := rfl
@[simp] theorem gpio_cmd (r : GpioRequest) (s : State) : (gpio r s).cmd = s.cmd := rfl
@[simp] theorem gpio_res (r : GpioRequest) (s : State) : (gpio r s).res = s.res := rfl
@[simp] theorem gpio_lineOE (r : GpioRequest) (s : State) : (gpio r s).lineOE = s.lineOE := rfl
@[simp] theorem gpio_lineOL (r : GpioRequest) (s : State) : (gpio r s).lineOL = s.lineOL := rfl
@[simp] theorem gpio_seq (r : GpioRequest) (s : State) : (gpio r s).seq = s.seq := rfl
@[simp] theorem gpio_shifter (r : GpioRequest) (s : State) : (gpio r s).shifter = s.shifter := rfl
@[simp] theorem gpio_elapsed (r : GpioRequest) (s : State) : (gpio r s).elapsed = s.elapsed := rfl
@[simp] theorem gpio_pollOutcome (r : GpioRequest) (s : State) : (gpio r s).pollOutcome = s.pollOutcome := rfl
@[simp] theorem gpio_pending (r : GpioRequest) (s : State) : (gpio r s).pending = s.pending := rfl
@[simp] theorem gpio_reply (r : GpioRequest) (s : State) : (gpio r s).reply = s.reply := rfl
@[simp] theorem gpio_trace (r : GpioRequest) (s : State) : (gpio r s).trace = s.trace := rfl
@[simp] theorem gpio_miso (r : GpioRequest) (s : State) : (gpio r s).miso = s.miso := rfl
@[simp] theorem gpio_fresh (r : GpioRequest) (s : State) : (gpio r s).fresh = s.fresh := rfl
@[simp] theorem gpio_outside (r : GpioRequest) (s : State) : (gpio r s).outside = Config.gpioEffect r s.outside := rfl

@[simp] theorem drive_sckPeriod (l : Line) (v : Bool) (s : State) : (drive l v s).sckPeriod = s.sckPeriod := rfl
@[simp] theorem drive_poll1 (l : Line) (v : Bool) (s : State) : (drive l v s).poll1 = s.poll1 := rfl
@[simp] theorem drive_poll2 (l : Line) (v : Bool) (s : State) : (drive l v s).poll2 = s.poll2 := rfl
@[simp] theorem drive_address (l : Line) (v : Bool) (s : State) : (drive l v s).address = s.address := rfl
@[simp] theorem drive_timeout (l : Line) (v : Bool) (s : State) : (drive l v s).timeout = s.timeout := rfl
@[simp] theorem drive_opcode (l : Line) (v : Bool) (s : State) : (drive l v s).opcode = s.opcode := rfl
@[simp] theorem drive_cmd (l : Line) (v : Bool) (s : State) : (drive l v s).cmd = s.cmd := rfl
@[simp] theorem drive_res (l : Line) (v : Bool) (s : State) : (drive l v s).res = s.res := rfl
@[simp] theorem drive_lineOE (l : Line) (v : Bool) (s : State) : (drive l v s).lineOE = s.lineOE := rfl
@[simp] theorem drive_lineOL (l : Line) (v : Bool) (s : State) : (drive l v s).lineOL = setLevel s.lineOL l v := rfl
@[simp] theorem drive_seq (l : Line) (v : Bool) (s : State) : (drive l v s).seq = s.seq := rfl
@[simp] theorem drive_shifter (l : Line) (v : Bool) (s : State) : (drive l v s).shifter = s.shifter := rfl
@[simp] theorem drive_elapsed (l : Line) (v : Bool) (s : State) : (drive l v s).elapsed = s.elapsed := rfl
@[simp] theorem drive_pollOutcome (l : Line) (v : Bool) (s : State) : (drive l v s).pollOutcome = s.pollOutcome := rfl
@[simp] theorem drive_pending (l : Line) (v : Bool) (s : State) : (drive l v s).pending = s.pending := rfl
@[simp] theorem drive_reply (l : Line) (v : Bool) (s : State) : (drive l v s).reply = s.reply := rfl
@[simp] theorem drive_trace (l : Line) (v : Bool) (s : State) : (drive l v s).trace = .drive l v :: .overhead (Config.overhead s.trace) :: s.trace := rfl
@[simp] theorem drive_miso (l : Line) (v : Bool) (s : State) : (drive l v s).miso = s.miso := rfl
@[simp] theorem drive_fresh (l : Line) (v : Bool) (s : State) : (drive l v s).fresh = s.fresh := rfl
@[simp] theorem drive_outside (l : Line) (v : Bool) (s : State) : (drive l v s).outside = s.outside := rfl

@[simp] theorem restMosi_sckPeriod (s : State) : (restMosi s).sckPeriod = s.sckPeriod := rfl
@[simp] theorem restMosi_poll1 (s : State) : (restMosi s).poll1 = s.poll1 := rfl
@[simp] theorem restMosi_poll2 (s : State) : (restMosi s).poll2 = s.poll2 := rfl
@[simp] theorem restMosi_address (s : State) : (restMosi s).address = s.address := rfl
@[simp] theorem restMosi_timeout (s : State) : (restMosi s).timeout = s.timeout := rfl
@[simp] theorem restMosi_opcode (s : State) : (restMosi s).opcode = s.opcode := rfl
@[simp] theorem restMosi_cmd (s : State) : (restMosi s).cmd = s.cmd := rfl
@[simp] theorem restMosi_res (s : State) : (restMosi s).res = s.res := rfl
@[simp] theorem restMosi_lineOE (s : State) : (restMosi s).lineOE = s.lineOE := rfl
@[simp] theorem restMosi_lineOL (s : State) : (restMosi s).lineOL = setLevel s.lineOL .mosi (Config.mosiRest s.trace) := rfl
@[simp] theorem restMosi_seq (s : State) : (restMosi s).seq = s.seq := rfl
@[simp] theorem restMosi_shifter (s : State) : (restMosi s).shifter = s.shifter := rfl
@[simp] theorem restMosi_elapsed (s : State) : (restMosi s).elapsed = s.elapsed := rfl
@[simp] theorem restMosi_pollOutcome (s : State) : (restMosi s).pollOutcome = s.pollOutcome := rfl
@[simp] theorem restMosi_pending (s : State) : (restMosi s).pending = s.pending := rfl
@[simp] theorem restMosi_reply (s : State) : (restMosi s).reply = s.reply := rfl
@[simp] theorem restMosi_trace (s : State) : (restMosi s).trace =
    .mosiRest (Config.mosiRest s.trace) :: .overhead (Config.overhead s.trace) :: s.trace := rfl
@[simp] theorem restMosi_miso (s : State) : (restMosi s).miso = s.miso := rfl
@[simp] theorem restMosi_fresh (s : State) : (restMosi s).fresh = s.fresh := rfl
@[simp] theorem restMosi_outside (s : State) : (restMosi s).outside = s.outside := rfl

@[simp] theorem otherWork_sckPeriod (s : State) : (otherWork s).sckPeriod = s.sckPeriod := rfl
@[simp] theorem otherWork_poll1 (s : State) : (otherWork s).poll1 = s.poll1 := rfl
@[simp] theorem otherWork_poll2 (s : State) : (otherWork s).poll2 = s.poll2 := rfl
@[simp] theorem otherWork_address (s : State) : (otherWork s).address = s.address := rfl
@[simp] theorem otherWork_timeout (s : State) : (otherWork s).timeout = s.timeout := rfl
@[simp] theorem otherWork_opcode (s : State) : (otherWork s).opcode = s.opcode := rfl
@[simp] theorem otherWork_cmd (s : State) : (otherWork s).cmd = s.cmd := rfl
@[simp] theorem otherWork_res (s : State) : (otherWork s).res = s.res := rfl
@[simp] theorem otherWork_lineOE (s : State) : (otherWork s).lineOE = s.lineOE := rfl
@[simp] theorem otherWork_lineOL (s : State) : (otherWork s).lineOL = s.lineOL := rfl
@[simp] theorem otherWork_seq (s : State) : (otherWork s).seq = s.seq := rfl
@[simp] theorem otherWork_shifter (s : State) : (otherWork s).shifter = s.shifter := rfl
@[simp] theorem otherWork_elapsed (s : State) : (otherWork s).elapsed = s.elapsed := rfl
@[simp] theorem otherWork_pollOutcome (s : State) : (otherWork s).pollOutcome = s.pollOutcome := rfl
@[simp] theorem otherWork_pending (s : State) : (otherWork s).pending = s.pending := rfl
@[simp] theorem otherWork_reply (s : State) : (otherWork s).reply = s.reply := rfl
@[simp] theorem otherWork_trace (s : State) : (otherWork s).trace = .overhead (Config.overhead s.trace) :: s.trace := rfl
@[simp] theorem otherWork_miso (s : State) : (otherWork s).miso = s.miso := rfl
@[simp] theorem otherWork_fresh (s : State) : (otherWork s).fresh = s.fresh := rfl
@[simp] theorem otherWork_outside (s : State) : (otherWork s).outside = s.outside := rfl

@[simp] theorem waitAt_sckPeriod (q : Seq) (u : Nat) (s : State) : (waitAt q u s).sckPeriod = s.sckPeriod := rfl
@[simp] theorem waitAt_poll1 (q : Seq) (u : Nat) (s : State) : (waitAt q u s).poll1 = s.poll1 := rfl
@[simp] theorem waitAt_poll2 (q : Seq) (u : Nat) (s : State) : (waitAt q u s).poll2 = s.poll2 := rfl
@[simp] theorem waitAt_address (q : Seq) (u : Nat) (s : State) : (waitAt q u s).address = s.address := rfl
@[simp] theorem waitAt_timeout (q : Seq) (u : Nat) (s : State) : (waitAt q u s).timeout = s.timeout := rfl
@[simp] theorem waitAt_opcode (q : Seq) (u : Nat) (s : State) : (waitAt q u s).opcode = s.opcode := rfl
@[simp] theorem waitAt_cmd (q : Seq) (u : Nat) (s : State) : (waitAt q u s).cmd = s.cmd := rfl
@[simp] theorem waitAt_res (q : Seq) (u : Nat) (s : State) : (waitAt q u s).res = s.res := rfl
@[simp] theorem waitAt_lineOE (q : Seq) (u : Nat) (s : State) : (waitAt q u s).lineOE = s.lineOE := rfl
@[simp] theorem waitAt_lineOL (q : Seq) (u : Nat) (s : State) : (waitAt q u s).lineOL = s.lineOL := rfl
@[simp] theorem waitAt_seq (q : Seq) (u : Nat) (s : State) : (waitAt q u s).seq = q := rfl
@[simp] theorem waitAt_shifter (q : Seq) (u : Nat) (s : State) : (waitAt q u s).shifter = s.shifter := rfl
@[simp] theorem waitAt_elapsed (q : Seq) (u : Nat) (s : State) : (waitAt q u s).elapsed = s.elapsed := rfl
@[simp] theorem waitAt_pollOutcome (q : Seq) (u : Nat) (s : State) : (waitAt q u s).pollOutcome = s.pollOutcome := rfl
@[simp] theorem waitAt_pending (q : Seq) (u : Nat) (s : State) : (waitAt q u s).pending = s.pending := rfl
@[simp] theorem waitAt_reply (q : Seq) (u : Nat) (s : State) : (waitAt q u s).reply = s.reply := rfl
@[simp] theorem waitAt_trace (q : Seq) (u : Nat) (s : State) : (waitAt q u s).trace = .wait q u :: s.trace := rfl
@[simp] theorem waitAt_miso (q : Seq) (u : Nat) (s : State) : (waitAt q u s).miso = s.miso := rfl
@[simp] theorem waitAt_fresh (q : Seq) (u : Nat) (s : State) : (waitAt q u s).fresh = s.fresh := rfl
@[simp] theorem waitAt_outside (q : Seq) (u : Nat) (s : State) : (waitAt q u s).outside = s.outside := rfl

@[simp] theorem setLines_sckPeriod (oe ol : BitVec 4) (s : State) : (setLines oe ol s).sckPeriod = s.sckPeriod := rfl
@[simp] theorem setLines_poll1 (oe ol : BitVec 4) (s : State) : (setLines oe ol s).poll1 = s.poll1 := rfl
@[simp] theorem setLines_poll2 (oe ol : BitVec 4) (s : State) : (setLines oe ol s).poll2 = s.poll2 := rfl
@[simp] theorem setLines_address (oe ol : BitVec 4) (s : State) : (setLines oe ol s).address = s.address := rfl
@[simp] theorem setLines_timeout (oe ol : BitVec 4) (s : State) : (setLines oe ol s).timeout = s.timeout := rfl
@[simp] theorem setLines_opcode (oe ol : BitVec 4) (s : State) : (setLines oe ol s).opcode = s.opcode := rfl
@[simp] theorem setLines_cmd (oe ol : BitVec 4) (s : State) : (setLines oe ol s).cmd = s.cmd := rfl
@[simp] theorem setLines_res (oe ol : BitVec 4) (s : State) : (setLines oe ol s).res = s.res := rfl
@[simp] theorem setLines_lineOE (oe ol : BitVec 4) (s : State) : (setLines oe ol s).lineOE = oe := rfl
@[simp] theorem setLines_lineOL (oe ol : BitVec 4) (s : State) : (setLines oe ol s).lineOL = ol := rfl
@[simp] theorem setLines_seq (oe ol : BitVec 4) (s : State) : (setLines oe ol s).seq = s.seq := rfl
@[simp] theorem setLines_shifter (oe ol : BitVec 4) (s : State) : (setLines oe ol s).shifter = s.shifter := rfl
@[simp] theorem setLines_elapsed (oe ol : BitVec 4) (s : State) : (setLines oe ol s).elapsed = s.elapsed := rfl
@[simp] theorem setLines_pollOutcome (oe ol : BitVec 4) (s : State) : (setLines oe ol s).pollOutcome = s.pollOutcome := rfl
@[simp] theorem setLines_pending (oe ol : BitVec 4) (s : State) : (setLines oe ol s).pending = s.pending := rfl
@[simp] theorem setLines_reply (oe ol : BitVec 4) (s : State) : (setLines oe ol s).reply = s.reply := rfl
@[simp] theorem setLines_trace (oe ol : BitVec 4) (s : State) : (setLines oe ol s).trace =
    .lines oe ol :: .overhead (Config.overhead s.trace) :: s.trace := rfl
@[simp] theorem setLines_miso (oe ol : BitVec 4) (s : State) : (setLines oe ol s).miso = s.miso := rfl
@[simp] theorem setLines_fresh (oe ol : BitVec 4) (s : State) : (setLines oe ol s).fresh = s.fresh := rfl
@[simp] theorem setLines_outside (oe ol : BitVec 4) (s : State) : (setLines oe ol s).outside = s.outside := rfl

@[simp] theorem sampleMiso_sckPeriod (s : State) : ((sampleMiso s).2).sckPeriod = s.sckPeriod := rfl
@[simp] theorem sampleMiso_poll1 (s : State) : ((sampleMiso s).2).poll1 = s.poll1 := rfl
@[simp] theorem sampleMiso_poll2 (s : State) : ((sampleMiso s).2).poll2 = s.poll2 := rfl
@[simp] theorem sampleMiso_address (s : State) : ((sampleMiso s).2).address = s.address := rfl
@[simp] theorem sampleMiso_timeout (s : State) : ((sampleMiso s).2).timeout = s.timeout := rfl
@[simp] theorem sampleMiso_opcode (s : State) : ((sampleMiso s).2).opcode = s.opcode := rfl
@[simp] theorem sampleMiso_cmd (s : State) : ((sampleMiso s).2).cmd = s.cmd := rfl
@[simp] theorem sampleMiso_res (s : State) : ((sampleMiso s).2).res = s.res := rfl
@[simp] theorem sampleMiso_lineOE (s : State) : ((sampleMiso s).2).lineOE = s.lineOE := rfl
@[simp] theorem sampleMiso_lineOL (s : State) : ((sampleMiso s).2).lineOL = s.lineOL := rfl
@[simp] theorem sampleMiso_seq (s : State) : ((sampleMiso s).2).seq = s.seq := rfl
@[simp] theorem sampleMiso_shifter (s : State) : ((sampleMiso s).2).shifter = s.shifter := rfl
@[simp] theorem sampleMiso_elapsed (s : State) : ((sampleMiso s).2).elapsed = s.elapsed := rfl
@[simp] theorem sampleMiso_pollOutcome (s : State) : ((sampleMiso s).2).pollOutcome = s.pollOutcome := rfl
@[simp] theorem sampleMiso_pending (s : State) : ((sampleMiso s).2).pending = s.pending := rfl
@[simp] theorem sampleMiso_reply (s : State) : ((sampleMiso s).2).reply = s.reply := rfl
@[simp] theorem sampleMiso_trace (s : State) : ((sampleMiso s).2).trace = .sample (misoNow s) :: s.trace := rfl
@[simp] theorem sampleMiso_miso (s : State) : ((sampleMiso s).2).miso = s.miso.tail := rfl
@[simp] theorem sampleMiso_fresh (s : State) : ((sampleMiso s).2).fresh = s.fresh := rfl
@[simp] theorem sampleMiso_outside (s : State) : ((sampleMiso s).2).outside = s.outside := rfl

@[simp] theorem present_sckPeriod (c : PortCommand) (s : State) : (present c s).sckPeriod = s.sckPeriod := rfl
@[simp] theorem present_poll1 (c : PortCommand) (s : State) : (present c s).poll1 = s.poll1 := rfl
@[simp] theorem present_poll2 (c : PortCommand) (s : State) : (present c s).poll2 = s.poll2 := rfl
@[simp] theorem present_address (c : PortCommand) (s : State) : (present c s).address = s.address := rfl
@[simp] theorem present_timeout (c : PortCommand) (s : State) : (present c s).timeout = s.timeout := rfl
@[simp] theorem present_opcode (c : PortCommand) (s : State) : (present c s).opcode = s.opcode := rfl
@[simp] theorem present_cmd (c : PortCommand) (s : State) : (present c s).cmd = s.cmd := rfl
@[simp] theorem present_res (c : PortCommand) (s : State) : (present c s).res = s.res := rfl
@[simp] theorem present_lineOE (c : PortCommand) (s : State) : (present c s).lineOE = s.lineOE := rfl
@[simp] theorem present_lineOL (c : PortCommand) (s : State) : (present c s).lineOL = s.lineOL := rfl
@[simp] theorem present_seq (c : PortCommand) (s : State) : (present c s).seq = .idle := rfl
@[simp] theorem present_shifter (c : PortCommand) (s : State) : (present c s).shifter = s.shifter := rfl
@[simp] theorem present_elapsed (c : PortCommand) (s : State) : (present c s).elapsed = s.elapsed := rfl
@[simp] theorem present_pollOutcome (c : PortCommand) (s : State) : (present c s).pollOutcome = s.pollOutcome := rfl
@[simp] theorem present_pending (c : PortCommand) (s : State) : (present c s).pending = c :: s.pending := rfl
@[simp] theorem present_reply (c : PortCommand) (s : State) : (present c s).reply = s.reply := rfl
@[simp] theorem present_trace (c : PortCommand) (s : State) : (present c s).trace = s.trace := rfl
@[simp] theorem present_miso (c : PortCommand) (s : State) : (present c s).miso = s.miso := rfl
@[simp] theorem present_fresh (c : PortCommand) (s : State) : (present c s).fresh = s.fresh := rfl
@[simp] theorem present_outside (c : PortCommand) (s : State) : (present c s).outside = s.outside := rfl

@[simp] theorem clearMarks_sckPeriod (s : State) : (clearMarks s).sckPeriod = unmark s.sckPeriod := rfl
@[simp] theorem clearMarks_poll1 (s : State) : (clearMarks s).poll1 = unmark s.poll1 := rfl
@[simp] theorem clearMarks_poll2 (s : State) : (clearMarks s).poll2 = unmark s.poll2 := rfl
@[simp] theorem clearMarks_address (s : State) : (clearMarks s).address = unmark s.address := rfl
@[simp] theorem clearMarks_timeout (s : State) : (clearMarks s).timeout = unmark s.timeout := rfl
@[simp] theorem clearMarks_opcode (s : State) : (clearMarks s).opcode = unmark s.opcode := rfl
@[simp] theorem clearMarks_cmd (s : State) : (clearMarks s).cmd = unmarkFrame s.cmd := rfl
@[simp] theorem clearMarks_res (s : State) : (clearMarks s).res = unmarkFrame s.res := rfl
@[simp] theorem clearMarks_lineOE (s : State) : (clearMarks s).lineOE = s.lineOE := rfl
@[simp] theorem clearMarks_lineOL (s : State) : (clearMarks s).lineOL = s.lineOL := rfl
@[simp] theorem clearMarks_seq (s : State) : (clearMarks s).seq = s.seq := rfl
@[simp] theorem clearMarks_shifter (s : State) : (clearMarks s).shifter = s.shifter := rfl
@[simp] theorem clearMarks_elapsed (s : State) : (clearMarks s).elapsed = s.elapsed := rfl
@[simp] theorem clearMarks_pollOutcome (s : State) : (clearMarks s).pollOutcome = s.pollOutcome := rfl
@[simp] theorem clearMarks_pending (s : State) : (clearMarks s).pending = s.pending := rfl
@[simp] theorem clearMarks_reply (s : State) : (clearMarks s).reply = s.reply := rfl
@[simp] theorem clearMarks_trace (s : State) : (clearMarks s).trace = s.trace := rfl
@[simp] theorem clearMarks_miso (s : State) : (clearMarks s).miso = s.miso := rfl
@[simp] theorem clearMarks_fresh (s : State) : (clearMarks s).fresh = s.fresh := rfl
@[simp] theorem clearMarks_outside (s : State) : (clearMarks s).outside = s.outside := rfl

@[simp] theorem buildFrame_sckPeriod (w : DoubleWidth) (k : Half) (op : Byte) (s : State) :
    (buildFrame w k op s).sckPeriod = s.sckPeriod := rfl
@[simp] theorem buildFrame_poll1 (w : DoubleWidth) (k : Half) (op : Byte) (s : State) :
    (buildFrame w k op s).poll1 = s.poll1 := rfl
@[simp] theorem buildFrame_poll2 (w : DoubleWidth) (k : Half) (op : Byte) (s : State) :
    (buildFrame w k op s).poll2 = s.poll2 := rfl
@[simp] theorem buildFrame_address (w : DoubleWidth) (k : Half) (op : Byte) (s : State) :
    (buildFrame w k op s).address = written (k + 1#16) := rfl
@[simp] theorem buildFrame_timeout (w : DoubleWidth) (k : Half) (op : Byte) (s : State) :
    (buildFrame w k op s).timeout = s.timeout := rfl
@[simp] theorem buildFrame_opcode (w : DoubleWidth) (k : Half) (op : Byte) (s : State) :
    (buildFrame w k op s).opcode = s.opcode := rfl
@[simp] theorem buildFrame_cmd (w : DoubleWidth) (k : Half) (op : Byte) (s : State) :
    (buildFrame w k op s).cmd = { s.cmd with b0 := written (frameByte0 op (effectiveAddress w op k)), b1 := written (frameByte1 (effectiveAddress w op k)), b2 := written (frameByte2 (effectiveAddress w op k)) } := rfl
@[simp] theorem buildFrame_res (w : DoubleWidth) (k : Half) (op : Byte) (s : State) :
    (buildFrame w k op s).res = s.res := rfl
@[simp] theorem buildFrame_lineOE (w : DoubleWidth) (k : Half) (op : Byte) (s : State) :
    (buildFrame w k op s).lineOE = s.lineOE := rfl
@[simp] theorem buildFrame_lineOL (w : DoubleWidth) (k : Half) (op : Byte) (s : State) :
    (buildFrame w k op s).lineOL = s.lineOL := rfl
@[simp] theorem buildFrame_seq (w : DoubleWidth) (k : Half) (op : Byte) (s : State) :
    (buildFrame w k op s).seq = s.seq := rfl
@[simp] theorem buildFrame_shifter (w : DoubleWidth) (k : Half) (op : Byte) (s : State) :
    (buildFrame w k op s).shifter = s.shifter := rfl
@[simp] theorem buildFrame_elapsed (w : DoubleWidth) (k : Half) (op : Byte) (s : State) :
    (buildFrame w k op s).elapsed = s.elapsed := rfl
@[simp] theorem buildFrame_pollOutcome (w : DoubleWidth) (k : Half) (op : Byte) (s : State) :
    (buildFrame w k op s).pollOutcome = s.pollOutcome := rfl
@[simp] theorem buildFrame_pending (w : DoubleWidth) (k : Half) (op : Byte) (s : State) :
    (buildFrame w k op s).pending = s.pending := rfl
@[simp] theorem buildFrame_reply (w : DoubleWidth) (k : Half) (op : Byte) (s : State) :
    (buildFrame w k op s).reply = s.reply := rfl
@[simp] theorem buildFrame_trace (w : DoubleWidth) (k : Half) (op : Byte) (s : State) :
    (buildFrame w k op s).trace = s.trace := rfl
@[simp] theorem buildFrame_miso (w : DoubleWidth) (k : Half) (op : Byte) (s : State) :
    (buildFrame w k op s).miso = s.miso := rfl
@[simp] theorem buildFrame_fresh (w : DoubleWidth) (k : Half) (op : Byte) (s : State) :
    (buildFrame w k op s).fresh = s.fresh := rfl
@[simp] theorem buildFrame_outside (w : DoubleWidth) (k : Half) (op : Byte) (s : State) :
    (buildFrame w k op s).outside = s.outside := rfl

@[simp] theorem flipOpcode_sckPeriod (m : Byte) (s : State) : (flipOpcode m s).sckPeriod = s.sckPeriod := rfl
@[simp] theorem flipOpcode_poll1 (m : Byte) (s : State) : (flipOpcode m s).poll1 = s.poll1 := rfl
@[simp] theorem flipOpcode_poll2 (m : Byte) (s : State) : (flipOpcode m s).poll2 = s.poll2 := rfl
@[simp] theorem flipOpcode_address (m : Byte) (s : State) : (flipOpcode m s).address = s.address := rfl
@[simp] theorem flipOpcode_timeout (m : Byte) (s : State) : (flipOpcode m s).timeout = s.timeout := rfl
@[simp] theorem flipOpcode_opcode (m : Byte) (s : State) : (flipOpcode m s).opcode = s.opcode := rfl
@[simp] theorem flipOpcode_cmd (m : Byte) (s : State) : (flipOpcode m s).cmd = { s.cmd with b0 := written (s.cmd.b0.value ^^^ m) } := rfl
@[simp] theorem flipOpcode_res (m : Byte) (s : State) : (flipOpcode m s).res = s.res := rfl
@[simp] theorem flipOpcode_lineOE (m : Byte) (s : State) : (flipOpcode m s).lineOE = s.lineOE := rfl
@[simp] theorem flipOpcode_lineOL (m : Byte) (s : State) : (flipOpcode m s).lineOL = s.lineOL := rfl
@[simp] theorem flipOpcode_seq (m : Byte) (s : State) : (flipOpcode m s).seq = s.seq := rfl
@[simp] theorem flipOpcode_shifter (m : Byte) (s : State) : (flipOpcode m s).shifter = s.shifter := rfl
@[simp] theorem flipOpcode_elapsed (m : Byte) (s : State) : (flipOpcode m s).elapsed = s.elapsed := rfl
@[simp] theorem flipOpcode_pollOutcome (m : Byte) (s : State) : (flipOpcode m s).pollOutcome = s.pollOutcome := rfl
@[simp] theorem flipOpcode_pending (m : Byte) (s : State) : (flipOpcode m s).pending = s.pending := rfl
@[simp] theorem flipOpcode_reply (m : Byte) (s : State) : (flipOpcode m s).reply = s.reply := rfl
@[simp] theorem flipOpcode_trace (m : Byte) (s : State) : (flipOpcode m s).trace = s.trace := rfl
@[simp] theorem flipOpcode_miso (m : Byte) (s : State) : (flipOpcode m s).miso = s.miso := rfl
@[simp] theorem flipOpcode_fresh (m : Byte) (s : State) : (flipOpcode m s).fresh = s.fresh := rfl
@[simp] theorem flipOpcode_outside (m : Byte) (s : State) : (flipOpcode m s).outside = s.outside := rfl

@[simp] theorem setSeq_sckPeriod (q : Seq) (s : State) : (setSeq q s).sckPeriod = s.sckPeriod := rfl
@[simp] theorem setSeq_poll1 (q : Seq) (s : State) : (setSeq q s).poll1 = s.poll1 := rfl
@[simp] theorem setSeq_poll2 (q : Seq) (s : State) : (setSeq q s).poll2 = s.poll2 := rfl
@[simp] theorem setSeq_address (q : Seq) (s : State) : (setSeq q s).address = s.address := rfl
@[simp] theorem setSeq_timeout (q : Seq) (s : State) : (setSeq q s).timeout = s.timeout := rfl
@[simp] theorem setSeq_opcode (q : Seq) (s : State) : (setSeq q s).opcode = s.opcode := rfl
@[simp] theorem setSeq_cmd (q : Seq) (s : State) : (setSeq q s).cmd = s.cmd := rfl
@[simp] theorem setSeq_res (q : Seq) (s : State) : (setSeq q s).res = s.res := rfl
@[simp] theorem setSeq_lineOE (q : Seq) (s : State) : (setSeq q s).lineOE = s.lineOE := rfl
@[simp] theorem setSeq_lineOL (q : Seq) (s : State) : (setSeq q s).lineOL = s.lineOL := rfl
@[simp] theorem setSeq_seq (q : Seq) (s : State) : (setSeq q s).seq = q := rfl
@[simp] theorem setSeq_shifter (q : Seq) (s : State) : (setSeq q s).shifter = s.shifter := rfl
@[simp] theorem setSeq_elapsed (q : Seq) (s : State) : (setSeq q s).elapsed = s.elapsed := rfl
@[simp] theorem setSeq_pollOutcome (q : Seq) (s : State) : (setSeq q s).pollOutcome = s.pollOutcome := rfl
@[simp] theorem setSeq_pending (q : Seq) (s : State) : (setSeq q s).pending = s.pending := rfl
@[simp] theorem setSeq_reply (q : Seq) (s : State) : (setSeq q s).reply = s.reply := rfl
@[simp] theorem setSeq_trace (q : Seq) (s : State) : (setSeq q s).trace = s.trace := rfl
@[simp] theorem setSeq_miso (q : Seq) (s : State) : (setSeq q s).miso = s.miso := rfl
@[simp] theorem setSeq_fresh (q : Seq) (s : State) : (setSeq q s).fresh = s.fresh := rfl
@[simp] theorem setSeq_outside (q : Seq) (s : State) : (setSeq q s).outside = s.outside := rfl

@[simp] theorem setShifter_sckPeriod (x : Shifter) (s : State) : (setShifter x s).sckPeriod = s.sckPeriod := rfl
@[simp] theorem setShifter_poll1 (x : Shifter) (s : State) : (setShifter x s).poll1 = s.poll1 := rfl
@[simp] theorem setShifter_poll2 (x : Shifter) (s : State) : (setShifter x s).poll2 = s.poll2 := rfl
@[simp] theorem setShifter_address (x : Shifter) (s : State) : (setShifter x s).address = s.address := rfl
@[simp] theorem setShifter_timeout (x : Shifter) (s : State) : (setShifter x s).timeout = s.timeout := rfl
@[simp] theorem setShifter_opcode (x : Shifter) (s : State) : (setShifter x s).opcode = s.opcode := rfl
@[simp] theorem setShifter_cmd (x : Shifter) (s : State) : (setShifter x s).cmd = s.cmd := rfl
@[simp] theorem setShifter_res (x : Shifter) (s : State) : (setShifter x s).res = s.res := rfl
@[simp] theorem setShifter_lineOE (x : Shifter) (s : State) : (setShifter x s).lineOE = s.lineOE := rfl
@[simp] theorem setShifter_lineOL (x : Shifter) (s : State) : (setShifter x s).lineOL = s.lineOL := rfl
@[simp] theorem setShifter_seq (x : Shifter) (s : State) : (setShifter x s).seq = s.seq := rfl
@[simp] theorem setShifter_shifter (x : Shifter) (s : State) : (setShifter x s).shifter = x := rfl
@[simp] theorem setShifter_elapsed (x : Shifter) (s : State) : (setShifter x s).elapsed = s.elapsed := rfl
@[simp] theorem setShifter_pollOutcome (x : Shifter) (s : State) : (setShifter x s).pollOutcome = s.pollOutcome := rfl
@[simp] theorem setShifter_pending (x : Shifter) (s : State) : (setShifter x s).pending = s.pending := rfl
@[simp] theorem setShifter_reply (x : Shifter) (s : State) : (setShifter x s).reply = s.reply := rfl
@[simp] theorem setShifter_trace (x : Shifter) (s : State) : (setShifter x s).trace = s.trace := rfl
@[simp] theorem setShifter_miso (x : Shifter) (s : State) : (setShifter x s).miso = s.miso := rfl
@[simp] theorem setShifter_fresh (x : Shifter) (s : State) : (setShifter x s).fresh = s.fresh := rfl
@[simp] theorem setShifter_outside (x : Shifter) (s : State) : (setShifter x s).outside = s.outside := rfl

@[simp] theorem storeRes_sckPeriod (bs : List Byte) (s : State) : (storeRes bs s).sckPeriod = s.sckPeriod := rfl
@[simp] theorem storeRes_poll1 (bs : List Byte) (s : State) : (storeRes bs s).poll1 = s.poll1 := rfl
@[simp] theorem storeRes_poll2 (bs : List Byte) (s : State) : (storeRes bs s).poll2 = s.poll2 := rfl
@[simp] theorem storeRes_address (bs : List Byte) (s : State) : (storeRes bs s).address = s.address := rfl
@[simp] theorem storeRes_timeout (bs : List Byte) (s : State) : (storeRes bs s).timeout = s.timeout := rfl
@[simp] theorem storeRes_opcode (bs : List Byte) (s : State) : (storeRes bs s).opcode = s.opcode := rfl
@[simp] theorem storeRes_cmd (bs : List Byte) (s : State) : (storeRes bs s).cmd = s.cmd := rfl
@[simp] theorem storeRes_res (bs : List Byte) (s : State) : (storeRes bs s).res = storeFrame s.res bs := rfl
@[simp] theorem storeRes_lineOE (bs : List Byte) (s : State) : (storeRes bs s).lineOE = s.lineOE := rfl
@[simp] theorem storeRes_lineOL (bs : List Byte) (s : State) : (storeRes bs s).lineOL = s.lineOL := rfl
@[simp] theorem storeRes_seq (bs : List Byte) (s : State) : (storeRes bs s).seq = s.seq := rfl
@[simp] theorem storeRes_shifter (bs : List Byte) (s : State) : (storeRes bs s).shifter = s.shifter := rfl
@[simp] theorem storeRes_elapsed (bs : List Byte) (s : State) : (storeRes bs s).elapsed = s.elapsed := rfl
@[simp] theorem storeRes_pollOutcome (bs : List Byte) (s : State) : (storeRes bs s).pollOutcome = s.pollOutcome := rfl
@[simp] theorem storeRes_pending (bs : List Byte) (s : State) : (storeRes bs s).pending = s.pending := rfl
@[simp] theorem storeRes_reply (bs : List Byte) (s : State) : (storeRes bs s).reply = s.reply := rfl
@[simp] theorem storeRes_trace (bs : List Byte) (s : State) : (storeRes bs s).trace = s.trace := rfl
@[simp] theorem storeRes_miso (bs : List Byte) (s : State) : (storeRes bs s).miso = s.miso := rfl
@[simp] theorem storeRes_fresh (bs : List Byte) (s : State) : (storeRes bs s).fresh = s.fresh := rfl
@[simp] theorem storeRes_outside (bs : List Byte) (s : State) : (storeRes bs s).outside = s.outside := rfl

@[simp] theorem setElapsed_sckPeriod (n : Nat) (s : State) : (setElapsed n s).sckPeriod = s.sckPeriod := rfl
@[simp] theorem setElapsed_poll1 (n : Nat) (s : State) : (setElapsed n s).poll1 = s.poll1 := rfl
@[simp] theorem setElapsed_poll2 (n : Nat) (s : State) : (setElapsed n s).poll2 = s.poll2 := rfl
@[simp] theorem setElapsed_address (n : Nat) (s : State) : (setElapsed n s).address = s.address := rfl
@[simp] theorem setElapsed_timeout (n : Nat) (s : State) : (setElapsed n s).timeout = s.timeout := rfl
@[simp] theorem setElapsed_opcode (n : Nat) (s : State) : (setElapsed n s).opcode = s.opcode := rfl
@[simp] theorem setElapsed_cmd (n : Nat) (s : State) : (setElapsed n s).cmd = s.cmd := rfl
@[simp] theorem setElapsed_res (n : Nat) (s : State) : (setElapsed n s).res = s.res := rfl
@[simp] theorem setElapsed_lineOE (n : Nat) (s : State) : (setElapsed n s).lineOE = s.lineOE := rfl
@[simp] theorem setElapsed_lineOL (n : Nat) (s : State) : (setElapsed n s).lineOL = s.lineOL := rfl
@[simp] theorem setElapsed_seq (n : Nat) (s : State) : (setElapsed n s).seq = s.seq := rfl
@[simp] theorem setElapsed_shifter (n : Nat) (s : State) : (setElapsed n s).shifter = s.shifter := rfl
@[simp] theorem setElapsed_elapsed (n : Nat) (s : State) : (setElapsed n s).elapsed = n := rfl
@[simp] theorem setElapsed_pollOutcome (n : Nat) (s : State) : (setElapsed n s).pollOutcome = s.pollOutcome := rfl
@[simp] theorem setElapsed_pending (n : Nat) (s : State) : (setElapsed n s).pending = s.pending := rfl
@[simp] theorem setElapsed_reply (n : Nat) (s : State) : (setElapsed n s).reply = s.reply := rfl
@[simp] theorem setElapsed_trace (n : Nat) (s : State) : (setElapsed n s).trace = s.trace := rfl
@[simp] theorem setElapsed_miso (n : Nat) (s : State) : (setElapsed n s).miso = s.miso := rfl
@[simp] theorem setElapsed_fresh (n : Nat) (s : State) : (setElapsed n s).fresh = s.fresh := rfl
@[simp] theorem setElapsed_outside (n : Nat) (s : State) : (setElapsed n s).outside = s.outside := rfl

@[simp] theorem endPoll_sckPeriod (o : PollOutcome) (s : State) : (endPoll o s).sckPeriod = s.sckPeriod := rfl
@[simp] theorem endPoll_poll1 (o : PollOutcome) (s : State) : (endPoll o s).poll1 = s.poll1 := rfl
@[simp] theorem endPoll_poll2 (o : PollOutcome) (s : State) : (endPoll o s).poll2 = s.poll2 := rfl
@[simp] theorem endPoll_address (o : PollOutcome) (s : State) : (endPoll o s).address = s.address := rfl
@[simp] theorem endPoll_timeout (o : PollOutcome) (s : State) : (endPoll o s).timeout = s.timeout := rfl
@[simp] theorem endPoll_opcode (o : PollOutcome) (s : State) : (endPoll o s).opcode = s.opcode := rfl
@[simp] theorem endPoll_cmd (o : PollOutcome) (s : State) : (endPoll o s).cmd = s.cmd := rfl
@[simp] theorem endPoll_res (o : PollOutcome) (s : State) : (endPoll o s).res = s.res := rfl
@[simp] theorem endPoll_lineOE (o : PollOutcome) (s : State) : (endPoll o s).lineOE = s.lineOE := rfl
@[simp] theorem endPoll_lineOL (o : PollOutcome) (s : State) : (endPoll o s).lineOL = s.lineOL := rfl
@[simp] theorem endPoll_seq (o : PollOutcome) (s : State) : (endPoll o s).seq = .idle := rfl
@[simp] theorem endPoll_shifter (o : PollOutcome) (s : State) : (endPoll o s).shifter = s.shifter := rfl
@[simp] theorem endPoll_elapsed (o : PollOutcome) (s : State) : (endPoll o s).elapsed = s.elapsed := rfl
@[simp] theorem endPoll_pollOutcome (o : PollOutcome) (s : State) : (endPoll o s).pollOutcome = o := rfl
@[simp] theorem endPoll_pending (o : PollOutcome) (s : State) : (endPoll o s).pending = s.pending := rfl
@[simp] theorem endPoll_reply (o : PollOutcome) (s : State) : (endPoll o s).reply = s.reply := rfl
@[simp] theorem endPoll_trace (o : PollOutcome) (s : State) : (endPoll o s).trace = s.trace := rfl
@[simp] theorem endPoll_miso (o : PollOutcome) (s : State) : (endPoll o s).miso = s.miso := rfl
@[simp] theorem endPoll_fresh (o : PollOutcome) (s : State) : (endPoll o s).fresh = s.fresh := rfl
@[simp] theorem endPoll_outside (o : PollOutcome) (s : State) : (endPoll o s).outside = s.outside := rfl

@[simp] theorem setPayload_sckPeriod (d : Byte) (s : State) : (setPayload d s).sckPeriod = s.sckPeriod := rfl
@[simp] theorem setPayload_poll1 (d : Byte) (s : State) : (setPayload d s).poll1 = s.poll1 := rfl
@[simp] theorem setPayload_poll2 (d : Byte) (s : State) : (setPayload d s).poll2 = s.poll2 := rfl
@[simp] theorem setPayload_address (d : Byte) (s : State) : (setPayload d s).address = s.address := rfl
@[simp] theorem setPayload_timeout (d : Byte) (s : State) : (setPayload d s).timeout = s.timeout := rfl
@[simp] theorem setPayload_opcode (d : Byte) (s : State) : (setPayload d s).opcode = s.opcode := rfl
@[simp] theorem setPayload_cmd (d : Byte) (s : State) : (setPayload d s).cmd = { s.cmd with b3 := written d } := rfl
@[simp] theorem setPayload_res (d : Byte) (s : State) : (setPayload d s).res = s.res := rfl
@[simp] theorem setPayload_lineOE (d : Byte) (s : State) : (setPayload d s).lineOE = s.lineOE := rfl
@[simp] theorem setPayload_lineOL (d : Byte) (s : State) : (setPayload d s).lineOL = s.lineOL := rfl
@[simp] theorem setPayload_seq (d : Byte) (s : State) : (setPayload d s).seq = s.seq := rfl
@[simp] theorem setPayload_shifter (d : Byte) (s : State) : (setPayload d s).shifter = s.shifter := rfl
@[simp] theorem setPayload_elapsed (d : Byte) (s : State) : (setPayload d s).elapsed = s.elapsed := rfl
@[simp] theorem setPayload_pollOutcome (d : Byte) (s : State) : (setPayload d s).pollOutcome = s.pollOutcome := rfl
@[simp] theorem setPayload_pending (d : Byte) (s : State) : (setPayload d s).pending = s.pending := rfl
@[simp] theorem setPayload_reply (d : Byte) (s : State) : (setPayload d s).reply = s.reply := rfl
@[simp] theorem setPayload_trace (d : Byte) (s : State) : (setPayload d s).trace = s.trace := rfl
@[simp] theorem setPayload_miso (d : Byte) (s : State) : (setPayload d s).miso = s.miso := rfl
@[simp] theorem setPayload_fresh (d : Byte) (s : State) : (setPayload d s).fresh = s.fresh := rfl
@[simp] theorem setPayload_outside (d : Byte) (s : State) : (setPayload d s).outside = s.outside := rfl

@[simp] theorem draw_byte (s : State) : (draw s).1 = Config.drawByte s.fresh := rfl
@[simp] theorem sampleMiso_bit (s : State) : (sampleMiso s).1 = misoNow s := rfl
@[simp] theorem written_value {w : Nat} (v : BitVec w) : (written v).value = v := rfl
@[simp] theorem written_written {w : Nat} (v : BitVec w) : (written v).written = true := rfl
@[simp] theorem unmark_value {w : Nat} (r : Reg w) : (unmark r).value = r.value := rfl
@[simp] theorem unmark_written {w : Nat} (r : Reg w) : (unmark r).written = false := rfl
@[simp] theorem storeFrame_four (f : FrameBuf) (x0 x1 x2 x3 : Byte) :
    storeFrame f [x0, x1, x2, x3] = ⟨written x0, written x1, written x2, written x3⟩ := rfl

/-- `read(R)` of a written register goes on with its value (R7). -/
theorem readReg_written {w : Nat} {name : RegName} {r : Reg w} {cont : BitVec w → Result} (h : r.written = true) :
    readReg name r cont = cont r.value := by simp [readReg, h]

/-- `read(R)` of an unwritten register is the fault (R7). -/
theorem readReg_unwritten {w : Nat} {name : RegName} {r : Reg w} {cont : BitVec w → Result}
    (h : r.written = false) : readReg name r cont = .fault (.unwrittenRead name) := by simp [readReg, h]

/-- A gated SETUP command always completes, by its body or by the gate (R101). -/
theorem gatedSetup_powered {body : State → State} {s : State} (h : powered s = true) :
    gatedSetup body s = .next (body s) := by simp [gatedSetup, h]

theorem gatedSetup_unpowered {body : State → State} {s : State} (h : powered s = false) :
    gatedSetup body s = .next (respond .none s) := by simp [gatedSetup, h]

/-- POWERED is a function of `LINE_OE` alone (R32). -/
theorem powered_congr {s t : State} (h : t.lineOE = s.lineOE) : powered t = powered s := by
  simp [powered, h]

end Sys2Proof.Laws
end

