-- ==== Sys2Proof/Laws/Transfer.lean ====
section
/-! SUPPORT. What TRANSFER can do, said once (`transfer_shifts`), and the clear form of the serial protocol both
strategies refine (`refRun`).

The clear form knows only what the target sees: the slots of the frame, one bit each, against the bits the run has
fixed and the target's view of the lines.
-/
namespace Sys2Proof.Laws

open Sys2Proof.Machine Sys2Proof.Safety

/-- One bit of a frame: its byte index, its bit index and its value (R122). -/
abbrev Slot := Nat × Nat × Bool

/-- The slots of one byte, bit 7 first. -/
def byteSlots (i : Nat) (c : Byte) : List Slot :=
  [(i, 7, c.getLsbD 7), (i, 6, c.getLsbD 6), (i, 5, c.getLsbD 5), (i, 4, c.getLsbD 4),
   (i, 3, c.getLsbD 3), (i, 2, c.getLsbD 2), (i, 1, c.getLsbD 1), (i, 0, c.getLsbD 0)]

/-- The slots of a frame, byte `i` first. -/
def slots : Nat → List Byte → List Slot
  | _, [] => []
  | i, c :: cs => byteSlots i c ++ slots (i + 1) cs

/-- What the target sees of one slot, oldest first (R121). -/
def slotEvents (n h : Nat) (x : Slot) : List LineEvent :=
  [.drive .mosi x.2.2, .wait (.xfer n x.1 x.2.1 .setup) h, .drive .sck true,
   .wait (.xfer n x.1 x.2.1 .high) h, .drive .sck false]

/-- The part of the state a target answers to: the bits the run has fixed, and the target's view, newest first. -/
abbrev Wire := List Bool × List LineEvent

/-- A state's wire. -/
def wireOf (s : State) : Wire := (s.miso, targetView s.trace)

/-- One slot in the clear form: the answer is the next fixed bit, else the oracle's at the active edge. -/
def refSlot (n h : Nat) (x : Slot) (w : Wire) : Bool × Wire :=
  (w.1.headD (Config.misoBit
      (.drive .sck true :: .wait (.xfer n x.1 x.2.1 .setup) h :: .drive .mosi x.2.2 :: w.2)),
   (w.1.tail, (slotEvents n h x).reverse ++ w.2))

/-- A sequence of slots in the clear form. -/
def refRun (n h : Nat) : List Slot → Wire → List Bool × Wire
  | [], w => ([], w)
  | x :: xs, w =>
    ((refSlot n h x w).1 :: (refRun n h xs (refSlot n h x w).2).1, (refRun n h xs (refSlot n h x w).2).2)

theorem refRun_append (n h : Nat) (xs ys : List Slot) (w : Wire) :
    refRun n h (xs ++ ys) w =
      ((refRun n h xs w).1 ++ (refRun n h ys (refRun n h xs w).2).1, (refRun n h ys (refRun n h xs w).2).2) := by
  induction xs generalizing w with
  | nil => rfl
  | cons x xs ih => simp [refRun, ih]

theorem refRun_length (n h : Nat) (xs : List Slot) (w : Wire) : (refRun n h xs w).1.length = xs.length := by
  induction xs generalizing w with
  | nil => rfl
  | cons x xs ih => simp [refRun, ih]

/-- The target sees the protocol's events, in slot order. -/
theorem refRun_view (n h : Nat) (xs : List Slot) (w : Wire) :
    (refRun n h xs w).2.2 = (xs.flatMap (slotEvents n h)).reverse ++ w.2 := by
  induction xs generalizing w with
  | nil => rfl
  | cons x xs ih => simp [refRun, ih, refSlot]

/-- While the run has fixed bits enough, they are the answers, in order. -/
theorem refRun_fixed (n h : Nat) (xs : List Slot) (w : Wire) (hw : xs.length ≤ w.1.length) :
    (refRun n h xs w).1 = w.1.take xs.length ∧ (refRun n h xs w).2.1 = w.1.drop xs.length := by
  induction xs generalizing w with
  | nil => simp [refRun]
  | cons x xs ih =>
    obtain ⟨m, v⟩ := w
    cases m with
    | nil => simp at hw
    | cons b m => simpa [refRun, refSlot] using ih (refSlot n h x (b :: m, v)).2 (by simpa [refSlot] using hw)

/-- What a sequence of slots puts on the lines under a strategy, with the bits sampled (R121, R125). -/
def protocolOf (st : Strategy) (n h : Nat) : List Slot → List Bool → List LineEvent
  | x :: xs, a :: as => bitEvents st n h x.1 x.2.1 x.2.2 a ++ protocolOf st n h xs as
  | _, _ => []

theorem protocolOf_append (st : Strategy) (n h : Nat) (xs ys : List Slot) (as bs : List Bool)
    (hl : as.length = xs.length) :
    protocolOf st n h (xs ++ ys) (as ++ bs) = protocolOf st n h xs as ++ protocolOf st n h ys bs := by
  induction xs generalizing as with
  | nil => simp [List.length_eq_zero_iff.mp (by simpa using hl), protocolOf]
  | cons x xs ih =>
    cases as with
    | nil => simp at hl
    | cons a as => simp [protocolOf, ih as (by simpa using hl)]

/-- What shifting can change: the line levels, the strategy's own state, the trace, the fixed bits and SEQ. -/
def OnlyShifts (s t : State) : Prop :=
  t = { s with lineOL := t.lineOL, shifter := t.shifter, trace := t.trace, miso := t.miso, seq := t.seq }

/-- A run of slots from `s` to `t` under a strategy, in which the bits `bits` were sampled. -/
structure Shifts (st : Strategy) (n h : Nat) (xs : List Slot) (bits : List Bool) (s t : State) : Prop where
  only : OnlyShifts s t
  wire : refRun n h xs (wireOf s) = (bits, wireOf t)
  events : ∃ ev, t.trace = ev ++ s.trace ∧ sampledBits ev.reverse = bits ∧
    (∀ level, edgeLevels level ev.reverse = xs.map (fun x => x.2.2)) ∧
    (∀ unit, xs.length * (2 * h) * unit ≤ durationAt unit ev) ∧
    ev.reverse.filter onProtocol = protocolOf st n h xs bits
  strategy : strategyOf s.shifter = st → strategyOf t.shifter = st
  ind : lineAt t.lineOL .ind = lineAt s.lineOL .ind
  rst : lineAt t.lineOL .rst = lineAt s.lineOL .rst
  sck : lineAt t.lineOL .sck = (xs.isEmpty && lineAt s.lineOL .sck)

theorem OnlyShifts.refl (s : State) : OnlyShifts s s := rfl

theorem OnlyShifts.trans {s t u : State} (h1 : OnlyShifts s t) (h2 : OnlyShifts t u) : OnlyShifts s u := by
  unfold OnlyShifts at *
  rw [h2, h1]

theorem sampledBits_append (a b : List LineEvent) : sampledBits (a ++ b) = sampledBits a ++ sampledBits b := by
  induction a with
  | nil => rfl
  | cons e a ih => cases e <;> simp [sampledBits, ih]

/-- Edge levels of a sequence continue from the level the first part leaves. -/
theorem edgeLevels_append (a : List LineEvent) (level : Bool) :
    ∃ level', ∀ b, edgeLevels level (a ++ b) = edgeLevels level a ++ edgeLevels level' b := by
  induction a generalizing level with
  | nil => exact ⟨level, fun b => rfl⟩
  | cons e a ih =>
    cases e with
    | drive l v =>
      cases l with
      | mosi => obtain ⟨l', h⟩ := ih v; exact ⟨l', fun b => by simp [edgeLevels, h]⟩
      | sck => obtain ⟨l', h⟩ := ih level; exact ⟨l', fun b => by cases v <;> simp [edgeLevels, h]⟩
      | ind => obtain ⟨l', h⟩ := ih level; exact ⟨l', fun b => by simp [edgeLevels, h]⟩
      | rst => obtain ⟨l', h⟩ := ih level; exact ⟨l', fun b => by simp [edgeLevels, h]⟩
    | lines oe ol => obtain ⟨l', h⟩ := ih (lineAt ol .mosi); exact ⟨l', fun b => by simp [edgeLevels, h]⟩
    | mosiRest v => obtain ⟨l', h⟩ := ih v; exact ⟨l', fun b => by simp [edgeLevels, h]⟩
    | wait q u => obtain ⟨l', h⟩ := ih level; exact ⟨l', fun b => by simp [edgeLevels, h]⟩
    | overhead q => obtain ⟨l', h⟩ := ih level; exact ⟨l', fun b => by simp [edgeLevels, h]⟩
    | sample q => obtain ⟨l', h⟩ := ih level; exact ⟨l', fun b => by simp [edgeLevels, h]⟩

theorem durationAt_append (unit : Nat) (a b : List LineEvent) :
    durationAt unit (a ++ b) = durationAt unit a + durationAt unit b := by
  simp [durationAt]

theorem durationAt_reverse (unit : Nat) (a : List LineEvent) : durationAt unit a.reverse = durationAt unit a := by
  simp [durationAt]

/-- No slots: nothing happens. -/
theorem Shifts.nil (st : Strategy) (n h : Nat) (s : State) : Shifts st n h [] [] s s where
  only := OnlyShifts.refl s
  wire := rfl
  events := ⟨[], rfl, rfl, fun _ => rfl, by simp [durationAt], rfl⟩
  strategy := id
  ind := rfl
  rst := rfl
  sck := by simp

/-- One bit is sampled a slot. -/
theorem Shifts.length {st : Strategy} {n h : Nat} {xs : List Slot} {bits : List Bool} {s t : State}
    (hs : Shifts st n h xs bits s t) : bits.length = xs.length := by
  rw [← refRun_length n h xs (wireOf s), hs.wire]

theorem Shifts.append {st : Strategy} {n h : Nat} {xs ys : List Slot} {b1 b2 : List Bool} {s t u : State}
    (h1 : Shifts st n h xs b1 s t) (h2 : Shifts st n h ys b2 t u) : Shifts st n h (xs ++ ys) (b1 ++ b2) s u where
  only := h1.only.trans h2.only
  wire := by rw [refRun_append, h1.wire]; simp [h2.wire]
  events := by
    obtain ⟨e1, t1, s1, l1, d1, p1⟩ := h1.events
    obtain ⟨e2, t2, s2, l2, d2, p2⟩ := h2.events
    refine ⟨e2 ++ e1, by simp [t1, t2], by simp [sampledBits_append, s1, s2], fun level => ?_, fun unit => ?_, ?_⟩
    · obtain ⟨l', hl⟩ := edgeLevels_append e1.reverse level
      simp [hl, l1, l2]
    · have := d1 unit
      have := d2 unit
      simp only [durationAt_append, List.length_append, Nat.add_mul]; omega
    · rw [List.reverse_append, List.filter_append, p1, p2, protocolOf_append st n h xs ys b1 b2 h1.length]
  strategy := fun h => h2.strategy (h1.strategy h)
  ind := h2.ind.trans h1.ind
  rst := h2.rst.trans h1.rst
  sck := by rw [h2.sck, h1.sck]; cases xs <;> cases ys <;> simp

/-- The level of one line after another is set (R30). -/
theorem lineAt_setLevel (ol : BitVec 4) (l m : Line) (v : Bool) :
    lineAt (setLevel ol l v) m = if l = m then v else lineAt ol m := by
  cases l <;> cases m <;> cases v <;> revert ol <;> decide

/-- The HWSHIFT unit's two edges of one bit, regrouped: it samples before the high half-period, not after it
(R125). -/
def hwCycle (n i j h : Nat) (v : Bool) (s : State) : Bool × State :=
  let r := sampleMiso (drive .sck true (waitAt (.xfer n i j .setup) h (drive .mosi v s)))
  (r.1, restMosi (drive .sck false (waitAt (.xfer n i j .high) h r.2)))

theorem targetView_cons (e : LineEvent) (tr : List LineEvent) :
    targetView (e :: tr) = if targetSees e then e :: targetView tr else targetView tr := by
  simp [targetView, List.filter_cons]

theorem misoNow_eq (s : State) : misoNow s = s.miso.headD (Config.misoBit (upToEdge (targetView s.trace))) := by
  unfold misoNow; cases s.miso <;> rfl

/-- The events of a BITBANG bit cycle, newest first (R121). -/
theorem bitCycle_trace (n i j h : Nat) (v : Bool) (s : State) : ∃ o1 o2 o3 o4 o5 m,
    (bitCycle n i j h v s).2.trace =
      [.mosiRest m, .overhead o5, .drive .sck false, .overhead o4, .sample (bitCycle n i j h v s).1,
       .overhead o3, .wait (.xfer n i j .high) h, .drive .sck true, .overhead o2,
       .wait (.xfer n i j .setup) h, .drive .mosi v, .overhead o1] ++ s.trace :=
  ⟨_, _, _, _, _, _, rfl⟩

/-- The events of a HWSHIFT bit, newest first (R125). -/
theorem hwCycle_trace (n i j h : Nat) (v : Bool) (s : State) : ∃ o1 o2 o3 o4 m,
    (hwCycle n i j h v s).2.trace =
      [.mosiRest m, .overhead o4, .drive .sck false, .overhead o3, .wait (.xfer n i j .high) h,
       .sample (hwCycle n i j h v s).1, .drive .sck true, .overhead o2,
       .wait (.xfer n i j .setup) h, .drive .mosi v, .overhead o1] ++ s.trace :=
  ⟨_, _, _, _, _, rfl⟩

theorem bitCycle_shifter (n i j h : Nat) (v : Bool) (s : State) : (bitCycle n i j h v s).2.shifter = s.shifter := by
  simp [bitCycle]
theorem hwCycle_shifter (n i j h : Nat) (v : Bool) (s : State) : (hwCycle n i j h v s).2.shifter = s.shifter := by
  simp [hwCycle]

theorem onlyShifts_drive (l : Line) (v : Bool) (s : State) : OnlyShifts s (drive l v s) := rfl
theorem onlyShifts_otherWork (s : State) : OnlyShifts s (otherWork s) := rfl
theorem onlyShifts_waitAt (q : Seq) (u : Nat) (s : State) : OnlyShifts s (waitAt q u s) := rfl
theorem onlyShifts_restMosi (s : State) : OnlyShifts s (restMosi s) := rfl
theorem onlyShifts_sampleMiso (s : State) : OnlyShifts s (sampleMiso s).2 := rfl

theorem onlyShifts_bitCycle (n i j h : Nat) (v : Bool) (s : State) :
    OnlyShifts s (bitCycle n i j h v s).2 :=
  ((((((onlyShifts_drive ..).trans (onlyShifts_waitAt ..)).trans (onlyShifts_drive ..)).trans
    (onlyShifts_waitAt ..)).trans (onlyShifts_otherWork _)).trans (onlyShifts_sampleMiso _)).trans
    ((onlyShifts_drive ..).trans (onlyShifts_restMosi _))

theorem onlyShifts_hwCycle (n i j h : Nat) (v : Bool) (s : State) :
    OnlyShifts s (hwCycle n i j h v s).2 :=
  ((((onlyShifts_drive ..).trans (onlyShifts_waitAt ..)).trans (onlyShifts_drive ..)).trans
    (onlyShifts_sampleMiso _)).trans
    (((onlyShifts_waitAt ..).trans (onlyShifts_drive ..)).trans (onlyShifts_restMosi _))

/-- One BITBANG bit cycle is one slot (R121). -/
theorem bitCycle_shifts (n i j h : Nat) (v : Bool) (s : State) :
    Shifts .bitbang n h [(i, j, v)] [(bitCycle n i j h v s).1] s (bitCycle n i j h v s).2 where
  only := onlyShifts_bitCycle ..
  wire := by
    simp [refRun, refSlot, wireOf, bitCycle, misoNow_eq, targetView_cons, targetSees, slotEvents, upToEdge]
  events := by
    obtain ⟨o1, o2, o3, o4, o5, m, ht⟩ := bitCycle_trace n i j h v s
    exact ⟨_, ht, by simp [sampledBits], by simp [edgeLevels], fun unit => by
      simp only [durationAt, eventNs, List.map_cons, List.map_nil, List.sum_cons, List.sum_nil, List.length_cons,
        List.length_nil]
      rw [show (0 + 1) * (2 * h) * unit = h * unit + h * unit by ring]
      omega, by
      simp [List.filter_cons, onProtocol, targetSees, protocolOf, bitEvents]⟩
  strategy := fun hst => by rwa [bitCycle_shifter]
  ind := by simp [bitCycle, lineAt_setLevel]
  rst := by simp [bitCycle, lineAt_setLevel]
  sck := by simp [bitCycle, lineAt_setLevel]

/-- One HWSHIFT bit is one slot, and the target cannot tell it from a BITBANG one (R126). -/
theorem hwCycle_shifts (n i j h : Nat) (v : Bool) (s : State) :
    Shifts .hwshift n h [(i, j, v)] [(hwCycle n i j h v s).1] s (hwCycle n i j h v s).2 where
  only := onlyShifts_hwCycle ..
  wire := by
    simp [refRun, refSlot, wireOf, hwCycle, misoNow_eq, targetView_cons, targetSees, slotEvents, upToEdge]
  events := by
    obtain ⟨o1, o2, o3, o4, m, ht⟩ := hwCycle_trace n i j h v s
    exact ⟨_, ht, by simp [sampledBits], by simp [edgeLevels], fun unit => by
      simp only [durationAt, eventNs, List.map_cons, List.map_nil, List.sum_cons, List.sum_nil, List.length_cons,
        List.length_nil]
      rw [show (0 + 1) * (2 * h) * unit = h * unit + h * unit by ring]
      omega, by
      simp [List.filter_cons, onProtocol, targetSees, protocolOf, bitEvents]⟩
  strategy := fun hst => by rwa [hwCycle_shifter]
  ind := by simp [hwCycle, lineAt_setLevel]
  rst := by simp [hwCycle, lineAt_setLevel]
  sck := by simp [hwCycle, lineAt_setLevel]

/-- Writing the strategy's own state is no slot. -/
theorem Shifts.setShifter {st : Strategy} (n h : Nat) (s : State) (x : Shifter) (hx : strategyOf x = st) :
    Shifts st n h [] [] s (setShifter x s) where
  only := rfl
  wire := rfl
  events := ⟨[], rfl, rfl, fun _ => rfl, by simp [durationAt], rfl⟩
  strategy := fun _ => hx
  ind := rfl
  rst := rfl
  sck := by simp

/-- The slots of a byte's `j` low bits, highest first. -/
def downSlots (i : Nat) (c : Byte) : Nat → List Slot
  | 0 => []
  | j + 1 => (i, j, c.getLsbD j) :: downSlots i c j

theorem downSlots_length (i : Nat) (c : Byte) (j : Nat) : (downSlots i c j).length = j := by
  induction j with
  | zero => rfl
  | succ j ih => simp [downSlots, ih]

/-- The mask with `j` bits left to send (R124). -/
def maskLeft : Nat → Byte
  | 0 => 0#8
  | j + 1 => 1#8 <<< j

theorem maskLeft_shift (j : Nat) (hj : j < 8) : maskLeft (j + 1) >>> 1 = maskLeft j := by
  interval_cases j <;> decide

theorem maskLeft_bit (c : Byte) (j : Nat) (hj : j < 8) : ((c &&& maskLeft (j + 1)) != 0#8) = c.getLsbD j := by
  interval_cases j <;> revert c <;> decide

theorem shiftIn_toNat (r : Byte) (b : Bool) : (shiftIn r b).toNat = (2 * r.toNat + b.toNat) % 256 := by
  cases b <;> revert r <;> decide

theorem foldl_shiftIn_toNat (bits : List Bool) (r : Byte) :
    (bits.foldl shiftIn r).toNat = (bits.foldl (fun n b => 2 * n + b.toNat) r.toNat) % 256 := by
  induction bits generalizing r with
  | nil => simp [Nat.mod_eq_of_lt r.isLt]
  | cons b bits ih =>
    have key : ∀ (l : List Bool) (a m : Nat), a % 256 = m % 256 →
        (l.foldl (fun n b => 2 * n + b.toNat) a) % 256 = (l.foldl (fun n b => 2 * n + b.toNat) m) % 256 := by
      intro l
      induction l with
      | nil => intro a m h; simpa using h
      | cons x l ih =>
        intro a m h
        exact ih (2 * a + x.toNat) (2 * m + x.toNat) (by omega)
    simp only [List.foldl_cons, ih, shiftIn_toNat]
    exact key _ _ _ (by omega)

/-- Eight shifts leave nothing of what the register held: it holds the bits, the first one at the top (R120). -/
theorem foldl_shiftIn_byteOf (bits : List Bool) (h : bits.length = 8) (r : Byte) :
    bits.foldl shiftIn r = byteOf bits := by
  apply BitVec.eq_of_toNat_eq
  rw [foldl_shiftIn_toNat, byteOf, BitVec.toNat_ofNat]
  match bits, h with
  | [b0, b1, b2, b3, b4, b5, b6, b7], _ => simp only [List.foldl_cons, List.foldl_nil]; omega

theorem shiftIn_bit (r : Byte) (b : Bool) (m : Nat) (hm : m < 7) :
    (shiftIn r b).getLsbD (7 - m) = r.getLsbD (6 - m) := by
  interval_cases m <;> cases b <;> revert r <;> decide

theorem bitbangBits_shifts (n i h : Nat) (c : Byte) (j : Nat) (hj : j ≤ 8) (acc : Byte) (s : State) :
    ∃ bits, Shifts .bitbang n h (downSlots i c j) bits s (bitbangBits n i h c j (maskLeft j) acc s).2 ∧
      (bitbangBits n i h c j (maskLeft j) acc s).1 = bits.foldl shiftIn acc := by
  induction j generalizing acc s with
  | zero => exact ⟨[], Shifts.setShifter n h s _ rfl, rfl⟩
  | succ j ih =>
    let s0 : State := setShifter (.bitbang (maskLeft (j + 1)) acc) s
    let r := bitCycle n i j h (c.getLsbD j) s0
    have e : bitbangBits n i h c (j + 1) (maskLeft (j + 1)) acc s =
        bitbangBits n i h c j (maskLeft j) (shiftIn acc r.1) r.2 := by
      rw [bitbangBits, maskLeft_bit c j (by omega), maskLeft_shift j (by omega)]
    obtain ⟨bits, hs, hb⟩ := ih (by omega) (shiftIn acc r.1) r.2
    rw [e]
    have h0 := (Shifts.setShifter (st := .bitbang) n h s _ rfl).append (bitCycle_shifts n i j h (c.getLsbD j) s0)
    exact ⟨r.1 :: bits, h0.append hs, by rw [hb]; rfl⟩

/-- The state the HWSHIFT loop stands in with `j` bits left: MOSI already driven, but after the last bit. -/
def hwDriven (j : Nat) (sr : Byte) (s : State) : State := if 0 < j then drive .mosi (sr.getLsbD 7) s else s

theorem hwshiftEdges_two (n i h j : Nat) (hj : j < 8) (sr : Byte) (latch : Bool) (s : State) :
    ∃ x, strategyOf x = .hwshift ∧ hwshiftEdges n i h (2 * j + 2) sr (14 - 2 * j) latch (drive .mosi (sr.getLsbD 7) s) =
      (let r := hwCycle n i j h (sr.getLsbD 7) (setShifter (.hwshift sr (Fin.ofNat 17 (14 - 2 * j)) false) s)
       hwshiftEdges n i h (2 * j) (shiftIn sr r.1) (16 - 2 * j) r.1
         (hwDriven j (shiftIn sr r.1) (setShifter x r.2))) := by
  refine ⟨.hwshift sr (Fin.ofNat 17 (15 - 2 * j)) false, rfl, ?_⟩
  have h1 : (14 - 2 * j + 1) % 2 = 1 := by omega
  have h2 : (14 - 2 * j + 1 + 1) % 2 ≠ 1 := by omega
  have h3 : 7 - (14 - 2 * j) / 2 = j := by omega
  have h4 : 7 - (14 - 2 * j + 1) / 2 = j := by omega
  have h5 : (14 - 2 * j + 1 + 1 < 16) = (0 < j) := by simp; omega
  have h6 : 14 - 2 * j + 1 + 1 = 16 - 2 * j := by omega
  have h7 : 15 - 2 * j = 14 - 2 * j + 1 := by omega
  rw [hwshiftEdges, hwshiftEdges]
  simp only [h1, if_true, h2, if_false, h3, h4, h5, h7, ← h6]
  rfl

theorem hwshiftEdges_shifts (n i h : Nat) (c : Byte) (j : Nat) (hj : j ≤ 8) (sr : Byte) (latch : Bool) (s : State)
    (hsr : ∀ m < j, sr.getLsbD (7 - m) = c.getLsbD (j - 1 - m)) :
    ∃ bits, Shifts .hwshift n h (downSlots i c j) bits s
        (hwshiftEdges n i h (2 * j) sr (16 - 2 * j) latch (hwDriven j sr s)).2 ∧
      (hwshiftEdges n i h (2 * j) sr (16 - 2 * j) latch (hwDriven j sr s)).1 = bits.foldl shiftIn sr := by
  induction j generalizing sr latch s with
  | zero => exact ⟨[], Shifts.setShifter n h s _ rfl, rfl⟩
  | succ j ih =>
    obtain ⟨x, hx, e⟩ := hwshiftEdges_two n i h j (by omega) sr latch s
    have e1 : 2 * (j + 1) = 2 * j + 2 := by omega
    have e2 : 16 - (2 * j + 2) = 14 - 2 * j := by omega
    have e3 : hwDriven (j + 1) sr s = drive .mosi (sr.getLsbD 7) s := by simp [hwDriven]
    have e4 : sr.getLsbD 7 = c.getLsbD j := by simpa using hsr 0 (by omega)
    rw [e1, e2, e3, e]
    let s0 : State := setShifter (.hwshift sr (Fin.ofNat 17 (14 - 2 * j)) false) s
    let r := hwCycle n i j h (sr.getLsbD 7) s0
    obtain ⟨bits, hs, hb⟩ := ih (by omega) (shiftIn sr r.1) r.1 (setShifter x r.2) (fun m hm => by
      rw [shiftIn_bit _ _ _ (by omega), show 6 - m = 7 - (m + 1) by omega, hsr (m + 1) (by omega)]
      congr 1; omega)
    have hc := hwCycle_shifts n i j h (sr.getLsbD 7) s0
    have h0 := (Shifts.setShifter (st := .hwshift) n h s _ rfl).append hc
    have h0 := (h0.append (Shifts.setShifter n h r.2 x hx)).append hs
    rw [e4] at h0
    refine ⟨r.1 :: bits, ?_, hb⟩
    simp only [downSlots]
    rw [← e4] at h0 ⊢
    exact h0

/-- One byte, under either strategy, is its eight slots, and the byte received is the bits sampled (R120, R126). -/
theorem transferByte_shifts (n i h : Nat) (c : Byte) (s : State) :
    ∃ bits, Shifts (strategyOf s.shifter) n h (byteSlots i c) bits s (transferByte n i h c s).2 ∧
      (transferByte n i h c s).1 = byteOf bits ∧ bits.length = 8 := by
  have len : ∀ {st bits t}, Shifts st n h (byteSlots i c) bits s t → bits.length = 8 := fun hs => hs.length
  unfold transferByte
  cases s.shifter with
  | bitbang mask acc =>
    obtain ⟨bits, hs, hb⟩ := bitbangBits_shifts n i h c 8 (by omega) 0#8 s
    exact ⟨bits, hs, hb.trans (foldl_shiftIn_byteOf _ (len hs) _), len hs⟩
  | hwshift sr ec done =>
    obtain ⟨bits, hs, hb⟩ := hwshiftEdges_shifts n i h c 8 (by omega) c false (setShifter (.hwshift c 0 false) s)
      (fun m hm => by congr 1)
    have hs := (Shifts.setShifter (st := .hwshift) n h s _ rfl).append hs
    exact ⟨bits, hs, hb.trans (foldl_shiftIn_byteOf _ (len hs) _), len hs⟩

theorem bytesOf_append (bits rest : List Bool) (hb : bits.length = 8) (m : Nat) :
    bytesOf (m + 1) (bits ++ rest) = byteOf bits :: bytesOf m rest := by
  simp [bytesOf, ← hb]

theorem transferBytes_shifts (n h i : Nat) (out : List Byte) (s : State) :
    ∃ bits, Shifts (strategyOf s.shifter) n h (slots i out) bits s (transferBytes n h i out s).2 ∧
      (transferBytes n h i out s).1 = bytesOf out.length bits ∧ bits.length = 8 * out.length := by
  induction out generalizing i s with
  | nil => exact ⟨[], Shifts.nil .., rfl, rfl⟩
  | cons c cs ih =>
    obtain ⟨b1, h1, e1, l1⟩ := transferByte_shifts n i h c s
    obtain ⟨b2, h2, e2, l2⟩ := ih (i + 1) (transferByte n i h c s).2
    rw [h1.strategy rfl] at h2
    exact ⟨b1 ++ b2, h1.append h2, by simp [transferBytes, e1, e2, bytesOf_append _ _ l1], by
      simp [l1, l2]; omega⟩

/-- EVERYTHING TRANSFER CAN DO (R120 to R128): from `s` it shifts exactly the slots of its bytes, under the strategy the
machine is built with, returns the bits sampled as bytes, and leaves SEQ as it was. -/
theorem transfer_shifts (out : List Byte) (s : State) :
    ∃ bits t0, Shifts (strategyOf s.shifter) out.length (halfPeriod s) (slots 0 out) bits s t0 ∧
      (transfer out s).2 = setSeq s.seq t0 ∧
      (transfer out s).1 = bytesOf out.length bits ∧ bits.length = 8 * out.length := by
  obtain ⟨bits, hs, hb, hl⟩ := transferBytes_shifts out.length (halfPeriod s) 0 out s
  exact ⟨bits, _, hs, rfl, hb, hl⟩

end Sys2Proof.Laws
end

