-- ==== Sys2Proof/Laws/Traffic.lean ====
section
/-! SUPPORT. What a TRANSFER and a frame put on the lines, in bytes: `transfer_sent`, and the composition of such
facts (`Traffic`).
-/
namespace Sys2Proof.Laws

open Sys2Proof.Machine Sys2Proof.Safety

theorem byteOf_bitsOf (c : Byte) : byteOf (bitsOf c) = c := by revert c; decide

theorem bitsOf_byteOf (bits : List Bool) (h : bits.length = 8) : bitsOf (byteOf bits) = bits := by
  match bits, h with
  | [b0, b1, b2, b3, b4, b5, b6, b7], _ =>
    revert b0 b1 b2 b3 b4 b5 b6 b7; decide

theorem bitsOf_length (c : Byte) : (bitsOf c).length = 8 := rfl

theorem bytesOf_flatMap (bs : List Byte) : bytesOf bs.length (bs.flatMap bitsOf) = bs := by
  induction bs with
  | nil => rfl
  | cons c cs ih => simp [bytesOf_append _ _ (bitsOf_length c), byteOf_bitsOf, ih]

theorem flatMap_bytesOf (n : Nat) (bits : List Bool) (h : bits.length = 8 * n) :
    (bytesOf n bits).flatMap bitsOf = bits := by
  induction n generalizing bits with
  | zero => simp [bytesOf, List.length_eq_zero_iff.mp (by simpa using h)]
  | succ n ih =>
    rw [bytesOf, List.flatMap_cons, bitsOf_byteOf _ (by simp; omega), ih _ (by simp; omega), List.take_append_drop]

theorem bytesOf_length (n : Nat) (bits : List Bool) : (bytesOf n bits).length = n := by
  induction n generalizing bits with
  | zero => rfl
  | succ n ih => simp [bytesOf, ih]

theorem flatMap_bitsOf_length (bs : List Byte) : (bs.flatMap bitsOf).length = 8 * bs.length := by
  induction bs with
  | nil => rfl
  | cons c cs ih => simp [ih, bitsOf_length]; omega

/-- A byte sequence is fixed by as many bits as it has. -/
theorem bytesOf_take (n : Nat) (bits : List Bool) : bytesOf n (bits.take (8 * n)) = bytesOf n bits := by
  induction n generalizing bits with
  | zero => rfl
  | succ n ih =>
    rw [bytesOf, bytesOf, List.take_take, List.drop_take, show min 8 (8 * (n + 1)) = 8 by omega,
      show 8 * (n + 1) - 8 = 8 * n by omega, ih]

/-- Between `s` and `t` the bytes `sent` went out and `recv` came in, with the protocol events `evs`, and at least
`units` calibration units passed, however long the unit is. -/
def Traffic (s t : State) (sent recv : List Byte) (units : Nat) (evs : List LineEvent) : Prop :=
  ∃ ev, t.trace = ev ++ s.trace ∧ (∀ level, edgeLevels level ev.reverse = sent.flatMap bitsOf) ∧
    sampledBits ev.reverse = recv.flatMap bitsOf ∧ (∀ unit, units * unit ≤ durationAt unit ev) ∧
    ev.reverse.filter onProtocol = evs

theorem Traffic.none (s t : State) (h : t.trace = s.trace) : Traffic s t [] [] 0 [] :=
  ⟨[], h, fun _ => rfl, rfl, fun _ => by simp, rfl⟩

theorem Traffic.trans {s t u : State} {a b a' b' : List Byte} {n n' : Nat} {e e' : List LineEvent}
    (h1 : Traffic s t a b n e) (h2 : Traffic t u a' b' n' e') :
    Traffic s u (a ++ a') (b ++ b') (n + n') (e ++ e') := by
  obtain ⟨e1, t1, l1, s1, d1, p1⟩ := h1
  obtain ⟨e2, t2, l2, s2, d2, p2⟩ := h2
  refine ⟨e2 ++ e1, by simp [t1, t2], fun level => ?_, by simp [sampledBits_append, s1, s2], fun unit => ?_, ?_⟩
  · obtain ⟨l', hl⟩ := edgeLevels_append e1.reverse level
    simp [hl, l1, l2]
  · have := d1 unit
    have := d2 unit
    rw [durationAt_append, Nat.add_mul]; omega
  · rw [List.reverse_append, List.filter_append, p1, p2]

/-- A change that leaves the trace alone changes no traffic. -/
theorem Traffic.congr {s t s' t' : State} {a b : List Byte} {n : Nat} {e : List LineEvent} (h : Traffic s t a b n e)
    (hs : s'.trace = s.trace) (ht : t'.trace = t.trace) : Traffic s' t' a b n e := by
  obtain ⟨e, t1, r⟩ := h
  exact ⟨e, by rw [ht, t1, hs], r⟩

theorem eventsBetween_eq {s t : State} {ev : List LineEvent} (h : t.trace = ev ++ s.trace) :
    eventsBetween s t = ev.reverse := by
  simp [eventsBetween, h]

/-- The readings of a claim: what was sent, what was received, how long it took, and in which order. -/
theorem Traffic.read {s t : State} {a b : List Byte} {n : Nat} {e : List LineEvent} (h : Traffic s t a b n e) :
    sentBits s t = a.flatMap bitsOf ∧ receivedBits s t = b.flatMap bitsOf ∧ receivedBytes s t = b ∧
      (∀ unit, n * unit ≤ durationAt unit (eventsBetween s t)) ∧ protocolBetween s t = e := by
  obtain ⟨ev, ht, hl, hs, hd, hp⟩ := h
  have he := eventsBetween_eq ht
  have div : ∀ m : Nat, 8 * m / 8 = m := fun m => by omega
  refine ⟨?_, ?_, ?_, fun unit => ?_, ?_⟩
  · rw [sentBits, he, hl]
  · rw [receivedBits, he, hs]
  · rw [receivedBytes, receivedBits, he, hs, flatMap_bitsOf_length, div, bytesOf_flatMap]
  · rw [he, durationAt_reverse]; exact hd unit
  · rw [protocolBetween, he, hp]

/-- What TRANSFER leaves alone: all but the line levels, the strategy's own state, the trace and the fixed bits. -/
def OnlyWires (s t : State) : Prop :=
  t = { s with lineOL := t.lineOL, shifter := t.shifter, trace := t.trace, miso := t.miso }

/-- A frame of bytes `out` was sent and `inn` received between `s` and `t` (R120). -/
structure Sent (out inn : List Byte) (s t : State) : Prop where
  only : OnlyWires s t
  len : inn.length = out.length
  traffic : Traffic s t out inn (8 * out.length * (2 * halfPeriod s))
    (frameEvents (strategyOf s.shifter) (halfPeriod s) out inn)
  strategy : strategyOf t.shifter = strategyOf s.shifter
  fixed : 8 * out.length ≤ s.miso.length →
    inn = bytesOf out.length s.miso ∧ t.miso = s.miso.drop (8 * out.length)
  ind : lineAt t.lineOL .ind = lineAt s.lineOL .ind
  rst : lineAt t.lineOL .rst = lineAt s.lineOL .rst
  sck : out ≠ [] → lineAt t.lineOL .sck = false

theorem slots_length (i : Nat) (out : List Byte) : (slots i out).length = 8 * out.length := by
  induction out generalizing i with
  | nil => rfl
  | cons c cs ih => simp [slots, byteSlots, ih]; omega

theorem slots_bits (i : Nat) (out : List Byte) : (slots i out).map (fun x => x.2.2) = out.flatMap bitsOf := by
  induction out generalizing i with
  | nil => rfl
  | cons c cs ih => simp [slots, byteSlots, bitsOf, ih]

/-- The protocol of a frame's slots is that of its bytes, one after the other. -/
theorem protocolOf_slots (st : Strategy) (n h i : Nat) (out inn : List Byte) (hl : inn.length = out.length) :
    protocolOf st n h (slots i out) (inn.flatMap bitsOf) = bytesEvents st n h i out inn := by
  induction out generalizing i inn with
  | nil => simp [List.length_eq_zero_iff.mp (by simpa using hl), slots, protocolOf, bytesEvents]
  | cons c cs ih =>
    cases inn with
    | nil => simp at hl
    | cons r rs =>
      rw [slots, List.flatMap_cons, protocolOf_append _ _ _ _ _ _ _ rfl, ih (i + 1) rs (by simpa using hl),
        bytesEvents]
      simp [byteSlots, bitsOf, protocolOf, byteEvents]

/-- EVERYTHING TRANSFER CAN DO, in bytes (R120). -/
theorem transfer_sent (out : List Byte) (s : State) : Sent out (transfer out s).1 s (transfer out s).2 := by
  obtain ⟨bits, t0, hs, ht, hb, hl⟩ := transfer_shifts out s
  have htr : (transfer out s).2.trace = t0.trace := by rw [ht]; rfl
  rw [hb]
  refine ⟨?_, bytesOf_length .., ?_, by rw [ht]; exact hs.strategy rfl, fun hm => ?_, ?_, ?_, fun hne => ?_⟩
  · have := hs.only
    rw [ht]
    unfold OnlyShifts at this
    unfold OnlyWires
    rw [this]
    rfl
  · obtain ⟨ev, h1, h2, h3, h4, h5⟩ := hs.events
    refine ⟨ev, htr.trans h1, fun level => ?_, ?_, ?_, ?_⟩
    · rw [h3, slots_bits]
    · rw [h2, flatMap_bytesOf _ _ hl]
    · rw [slots_length] at h4; exact h4
    · rw [h5, frameEvents, ← protocolOf_slots _ _ _ _ _ _ (bytesOf_length ..), flatMap_bytesOf _ _ hl]
  · have hf := refRun_fixed out.length (halfPeriod s) (slots 0 out) (wireOf s) (by rw [slots_length]; exact hm)
    rw [hs.wire, slots_length] at hf
    obtain ⟨f1, f2⟩ := hf
    refine ⟨?_, by rw [ht]; exact f2⟩
    have f1 : bits = List.take (8 * out.length) s.miso := f1
    rw [f1, bytesOf_take]
  · rw [ht]; exact hs.ind
  · rw [ht]; exact hs.rst
  · rw [ht]
    have := hs.sck
    cases out with
    | nil => exact absurd rfl hne
    | cons c cs => simpa [slots, byteSlots] using this

/-- A 4-byte frame, and what it stores (R144). -/
theorem shiftFrame_sent (b3 : Byte) (s : State) :
    ∃ x0 x1 x2 x3 t, Sent [s.cmd.b0.value, s.cmd.b1.value, s.cmd.b2.value, b3] [x0, x1, x2, x3] s t ∧
      shiftFrame b3 s = storeRes [x0, x1, x2, x3] t := by
  have h := transfer_sent [s.cmd.b0.value, s.cmd.b1.value, s.cmd.b2.value, b3] s
  have hl := h.len
  unfold shiftFrame
  generalize hr : transfer [s.cmd.b0.value, s.cmd.b1.value, s.cmd.b2.value, b3] s = r at h hl
  obtain ⟨inn, t⟩ := r
  match inn, hl with
  | [x0, x1, x2, x3], _ => exact ⟨x0, x1, x2, x3, t, h, rfl⟩

end Sys2Proof.Laws
end

