-- ==== Sys2Proof/Laws/Encoder.lean ====
section
/-! SUPPORT. What the encoder can do: the frame bytes by arithmetic (`frame_head`), one encoded frame
(`encodeTransfer_sent`) and the write cycle of an OUT_BYTE (`writeCycle_sent`), on any build.
-/
namespace Sys2Proof.Laws

open Sys2Proof.Machine Sys2Proof.Safety

/-- The three bytes ENCODE builds are those of R88. -/
theorem frame_head (w : DoubleWidth) (op : Byte) (k : Half) :
    [frameByte0 op (effectiveAddress w op k), frameByte1 (effectiveAddress w op k),
      frameByte2 (effectiveAddress w op k)] = frameHeadAt w op k := by
  have h : effectiveAddress w op k = if op.getLsbD 7 then (2 * k.toNat) % 2 ^ w.bits else k.toNat := rfl
  simp only [frameHeadAt, ← h, frameByte0, frameByte1, frameByte2, Nat.shiftRight_eq_div_pow]
  split <;> simp

/-- EVERYTHING ENCODE CAN DO (R140 to R144): one frame from the state whose registers ENCODE has written.  Byte 3 is
`CMD[3]` where it is written, else a draw. -/
theorem encodeTransfer_sent (w : DoubleWidth) (k : Half) (op : Byte) (s : State) : ∃ b3 s1 x0 x1 x2 x3 t,
    (s.cmd.b3.written = true ∧ b3 = s.cmd.b3.value ∧ s1 = buildFrame w k op s ∨
      s.cmd.b3.written = false ∧ s1 = (draw (buildFrame w k op s)).2) ∧
    Sent (frameHeadAt w op k ++ [b3]) [x0, x1, x2, x3] s1 t ∧
    encodeTransfer w k op s = storeRes [x0, x1, x2, x3] t := by
  unfold encodeTransfer payloadByte
  rw [← frame_head]
  cases h : s.cmd.b3.written with
  | true =>
    obtain ⟨x0, x1, x2, x3, t, hs, he⟩ := shiftFrame_sent s.cmd.b3.value (buildFrame w k op s)
    exact ⟨s.cmd.b3.value, buildFrame w k op s, x0, x1, x2, x3, t, .inl ⟨rfl, rfl, rfl⟩, hs, by
      simpa [h] using he⟩
  | false =>
    obtain ⟨x0, x1, x2, x3, t, hs, he⟩ :=
      shiftFrame_sent (draw (buildFrame w k op s)).1 (draw (buildFrame w k op s)).2
    exact ⟨_, _, x0, x1, x2, x3, t, .inr ⟨rfl, rfl⟩, hs, by simpa [h] using he⟩

/-- EVERYTHING THE WRITE CYCLE CAN DO (R163): the write frame carries `d`, then byte 0 of CMD is flipped. -/
theorem writeCycle_sent (b : Build) (d : Byte) (k : Half) (op : Byte) (s : State) : ∃ x0 x1 x2 x3 t,
    Sent (frameHeadAt b.width op k ++ [d]) [x0, x1, x2, x3] (buildFrame b.width k op (setPayload d s)) t ∧
    writeCycle b d k op s = flipOpcode b.flipMask (storeRes [x0, x1, x2, x3] t) := by
  obtain ⟨b3, s1, x0, x1, x2, x3, t, h, hs, he⟩ := encodeTransfer_sent b.width k op (setPayload d s)
  rcases h with ⟨_, hb, h1⟩ | ⟨h, _⟩
  · subst h1
    have hb : b3 = d := hb
    subst hb
    exact ⟨x0, x1, x2, x3, t, hs, by rw [writeCycle, he]⟩
  · simp at h

end Sys2Proof.Laws
end

