-- ==== Sys2Proof/Laws/Poller.lean ====
section
/-! SUPPORT. What the poller can do, whether its timer wraps or not: one read attempt (`pollAttempt_polled`), the
loop (`pollLoop_polled`) and a step of it (`pollFrom_cases`); and then a poll whose timer advances exactly
(`pollFrom_ends`), one whose timer wraps (`pollFrom_wrapped`) and one whose timer does not advance (`pollFrom_stalled`).
-/
namespace Sys2Proof.Laws

open Sys2Proof.Machine Sys2Proof.Safety

/-- The frame `CMD` holds. -/
def cmdBytes (s : State) : List Byte := [s.cmd.b0.value, s.cmd.b1.value, s.cmd.b2.value, s.cmd.b3.value]

/-- What a poll may change (R163, R167). -/
abbrev OnlyPolls := OnlyPollStep

/-- `rs.length` read attempts between `s` and `t`, with the read-backs `rs` (R167). -/
structure Polled (rs : List Byte) (s t : State) : Prop where
  only : OnlyPolls s t
  traffic : ∃ (frames : List (List Byte)) (recv : List Byte), frames.flatten = recv ∧
    frames.length = rs.length ∧ (∀ f ∈ frames, f.length = 4) ∧
    recv.length = 4 * rs.length ∧ fourthBytes recv = rs ∧
    Traffic s t (List.replicate rs.length (cmdBytes s)).flatten recv (rs.length * (32 * (2 * halfPeriod s)))
      (frames.flatMap (frameEvents (strategyOf s.shifter) (halfPeriod s) (cmdBytes s))) ∧
    (32 * rs.length ≤ s.miso.length → recv = bytesOf (4 * rs.length) s.miso) ∧
    (rs ≠ [] → writtenFrame (recv.drop (4 * rs.length - 4)) t.res)
  strategy : strategyOf t.shifter = strategyOf s.shifter
  ind : lineAt t.lineOL .ind = lineAt s.lineOL .ind
  rst : lineAt t.lineOL .rst = lineAt s.lineOL .rst
  sck : lineAt t.lineOL .sck = (rs.isEmpty && lineAt s.lineOL .sck)
  resKept : rs = [] → t.res = s.res
  res : rs ≠ [] → t.res.b0.written = true ∧ t.res.b1.written = true ∧ t.res.b2.written = true ∧
    some t.res.b3 = rs.getLast?.map written
  fixed : 32 * rs.length ≤ s.miso.length → t.miso = s.miso.drop (32 * rs.length)

theorem Polled.nil (s : State) : Polled [] s s where
  only := rfl
  traffic := ⟨[], [], rfl, rfl, by simp, rfl, rfl, by simpa using Traffic.none s s rfl, fun _ => rfl, by simp⟩
  strategy := rfl
  ind := rfl
  rst := rfl
  sck := by simp
  resKept := fun _ => rfl
  res := by simp
  fixed := by simp

theorem fourthBytes_append (a b : List Byte) (n : Nat) (h : a.length = 4 * n) :
    fourthBytes (a ++ b) = fourthBytes a ++ fourthBytes b := by
  induction n generalizing a with
  | zero => simp [List.length_eq_zero_iff.mp (by simpa using h), fourthBytes]
  | succ n ih =>
    match a, h with
    | x0 :: x1 :: x2 :: x3 :: rest, h =>
      simp [fourthBytes, ih rest (by simp at h; omega)]

theorem bytesOf_add (m n : Nat) (bits : List Bool) :
    bytesOf (m + n) bits = bytesOf m bits ++ bytesOf n (bits.drop (8 * m)) := by
  induction m generalizing bits with
  | zero => simp [bytesOf]
  | succ m ih =>
    rw [show m + 1 + n = (m + n) + 1 by omega, bytesOf, ih, bytesOf, List.drop_drop,
      show 8 + 8 * m = 8 * (m + 1) by omega]
    rfl

theorem OnlyPolls.fields {s t : State} (h : OnlyPolls s t) :
    t.sckPeriod = s.sckPeriod ∧ t.poll1 = s.poll1 ∧ t.poll2 = s.poll2 ∧ t.timeout = s.timeout ∧ t.cmd = s.cmd ∧
      t.lineOE = s.lineOE := by
  rw [h]; simp

theorem Polled.append {r1 r2 : List Byte} {s t u : State} (h1 : Polled r1 s t) (h2 : Polled r2 t u) :
    Polled (r1 ++ r2) s u where
  only := by
    have a := h1.only
    have b := h2.only
    unfold OnlyPolls OnlyPollStep at *
    rw [b, a]
  traffic := by
    obtain ⟨f1, _, _, _, f5, _⟩ := h1.only.fields
    obtain ⟨as, a, ja, na, qa, la, fa, ta, ma, wa⟩ := h1.traffic
    obtain ⟨bs, b, jb, nb, qb, lb, fb, tb, mb, wb⟩ := h2.traffic
    have hc : cmdBytes t = cmdBytes s := by simp [cmdBytes, f5]
    have hh : halfPeriod t = halfPeriod s := by simp [halfPeriod, f1]
    rw [hc, hh, h1.strategy] at tb
    refine ⟨as ++ bs, a ++ b, by rw [List.flatten_append, ja, jb], by simp [na, nb], fun f hf => ?_,
      by simp [la, lb]; omega, by rw [fourthBytes_append _ _ _ la, fa, fb], ?_, fun hm => ?_,
      fun hne => ?_⟩
    · rcases List.mem_append.mp hf with h | h
      · exact qa f h
      · exact qb f h
    · have := ta.trans tb
      rw [List.length_append, List.replicate_add, List.flatten_append, Nat.add_mul, List.flatMap_append]
      exact this
    · simp only [List.length_append] at hm
      rw [ma (by omega), mb (by rw [h1.fixed (by omega)]; simp; omega), h1.fixed (by omega), List.length_append,
        Nat.mul_add, bytesOf_add]
      congr 3; omega
    · rcases eq_or_ne r2 [] with h | h
      · subst h
        rw [List.append_nil] at hne ⊢
        have hb : b = [] := List.length_eq_zero_iff.mp (by simpa using lb)
        rw [hb, List.append_nil, h2.resKept rfl]
        exact wa hne
      · have hl : 1 ≤ r2.length := List.length_pos_iff.mpr h
        rw [List.length_append, List.drop_append, List.drop_eq_nil_of_le (by omega), List.nil_append, la,
          show 4 * (r1.length + r2.length) - 4 - 4 * r1.length = 4 * r2.length - 4 by omega]
        exact wb h
  strategy := h2.strategy.trans h1.strategy
  ind := h2.ind.trans h1.ind
  rst := h2.rst.trans h1.rst
  sck := by rw [h2.sck, h1.sck]; cases r1 <;> cases r2 <;> simp
  resKept := fun h => by
    obtain ⟨ha, hb⟩ := List.append_eq_nil_iff.mp h
    rw [h2.resKept hb, h1.resKept ha]
  res := fun hne => by
    rcases eq_or_ne r2 [] with h | h
    · rw [h2.resKept h, h, List.append_nil]
      exact h1.res (by simpa [h] using hne)
    · rw [List.getLast?_append_of_ne_nil _ h]
      exact h2.res h
  fixed := fun hm => by
    simp only [List.length_append] at hm
    rw [h2.fixed (by rw [h1.fixed (by omega)]; simp; omega), h1.fixed (by omega), List.drop_drop, List.length_append]
    congr 1; omega

theorem Sent.setSeqRes {out : List Byte} {s t : State} {x0 x1 x2 x3 : Byte} {q : Seq}
    (h : Sent out [x0, x1, x2, x3] (setSeq q s) t) (hout : out = cmdBytes s) :
    Polled [x3] s (storeRes [x0, x1, x2, x3] t) where
  only := by
    have := h.only
    unfold OnlyWires at this
    unfold OnlyPolls OnlyPollStep
    rw [this]
    rfl
  traffic := by
    subst hout
    refine ⟨[[x0, x1, x2, x3]], [x0, x1, x2, x3], rfl, rfl, by simp, rfl, rfl, ?_,
      fun hm => (h.fixed (by simpa [cmdBytes] using hm)).1, fun _ => rfl⟩
    have hh : halfPeriod (setSeq q s) = halfPeriod s := rfl
    simpa [cmdBytes, hh] using h.traffic.congr (s' := s) (t' := storeRes [x0, x1, x2, x3] t) rfl rfl
  strategy := h.strategy
  ind := h.ind
  rst := h.rst
  sck := by simpa using h.sck (by simp [hout, cmdBytes])
  resKept := by simp
  res := by simp
  fixed := fun hm => by
    subst hout
    simpa [cmdBytes] using (h.fixed (by simpa [cmdBytes] using hm)).2

/-- A change to ELAPSED, POLL_OUTCOME and SEQ after attempts. -/
theorem Polled.settle {rs : List Byte} {s t u : State} (h : Polled rs s t)
    (hu : u = { t with elapsed := u.elapsed, pollOutcome := u.pollOutcome, seq := u.seq }) : Polled rs s u := by
  have e := h.only
  unfold OnlyPolls OnlyPollStep at e
  refine ⟨?_, ?_, ?_, ?_, ?_, ?_, ?_, ?_, ?_⟩
  · unfold OnlyPolls OnlyPollStep; rw [hu, e]
  · obtain ⟨fs, a, j, n, q, l, f, tr, m, w⟩ := h.traffic
    exact ⟨fs, a, j, n, q, l, f, tr.congr rfl (by rw [hu]), m, by rw [hu]; exact w⟩
  · rw [hu]; exact h.strategy
  · rw [hu]; exact h.ind
  · rw [hu]; exact h.rst
  · rw [hu]; exact h.sck
  · rw [hu]; exact h.resKept
  · rw [hu]; exact h.res
  · rw [hu]; exact h.fixed

/-- The comparator looks at registers a poll does not change (R165). -/
theorem OnlyPolls.matchByte {s t : State} (h : OnlyPolls s t) (r : Byte) : matchByte t r = matchByte s r := by
  obtain ⟨_, h2, h3, _, h5, _⟩ := h.fields
  simp [Machine.matchByte, h2, h3, h5]

theorem OnlyPolls.pollIncrement {s t : State} (h : OnlyPolls s t) : pollIncrement t = pollIncrement s := by
  simp [Machine.pollIncrement, h.fields.1]

theorem advance_exact (e inc : Nat) : advanceElapsed false e inc = e + inc := rfl

/-- The poll timer after `n` misses (R166, R173). -/
def timerAfter (wrap16 : Bool) (inc : Nat) : Nat → Nat → Nat
  | 0, e => e
  | n + 1, e => timerAfter wrap16 inc n (advanceElapsed wrap16 e inc)

theorem timerAfter_exact (inc n e : Nat) : timerAfter false inc n e = e + n * inc := by
  induction n generalizing e with
  | zero => simp [timerAfter]
  | succ n ih => simp only [timerAfter, ih, advance_exact, Nat.add_mul]; omega

theorem timerAfter_wrapped (inc n e : Nat) (he : e < 65536) :
    timerAfter true inc n e = (e + n * inc) % 65536 := by
  induction n generalizing e with
  | zero => simp [timerAfter, Nat.mod_eq_of_lt he]
  | succ n ih =>
    simp only [timerAfter, advanceElapsed, if_true, ih _ (Nat.mod_lt _ (by decide)), Nat.add_mul]
    omega

/-- What the verdict on an attempt can be (R167). -/
theorem pollVerdict_cases (wrap16 : Bool) (k : Nat) (s : State) :
    let e := advanceElapsed wrap16 s.elapsed (pollIncrement s)
    (matchByte s s.res.b3.value = true ∧ pollVerdict wrap16 k s = endPoll .confirmed s) ∨
    (matchByte s s.res.b3.value = false ∧ e < s.timeout.value.toNat ∧
      pollVerdict wrap16 k s = setSeq (.poll (k + 1)) (setElapsed e s)) ∨
    (matchByte s s.res.b3.value = false ∧ s.timeout.value.toNat ≤ e ∧
      pollVerdict wrap16 k s = endPoll .timedOut (setElapsed e s)) := by
  intro e
  have key : pollVerdict wrap16 k s = if matchByte s s.res.b3.value then endPoll .confirmed s
      else if timerRuns (setElapsed e s) then setSeq (.poll (k + 1)) (setElapsed e s)
      else endPoll .timedOut (setElapsed e s) := rfl
  rw [key]
  cases matchByte s s.res.b3.value with
  | true => exact .inl ⟨rfl, rfl⟩
  | false =>
    by_cases hlt : e < s.timeout.value.toNat
    · have ht : timerRuns (setElapsed e s) = true := decide_eq_true hlt
      exact .inr (.inl ⟨rfl, hlt, if_pos ht⟩)
    · have ht : timerRuns (setElapsed e s) = false := decide_eq_false hlt
      exact .inr (.inr ⟨rfl, by omega, by simp [ht]⟩)

/-- EVERYTHING ONE READ ATTEMPT CAN DO (R167): one read frame, whose last byte `r` decides. -/
theorem pollAttempt_polled (wrap16 : Bool) (k : Nat) (s : State) : ∃ r t, t = pollAttempt wrap16 k s ∧ Polled [r] s t ∧
    ((matchByte s r = true ∧ t.pollOutcome = .confirmed ∧ t.seq = .idle ∧ t.elapsed = s.elapsed) ∨
     (matchByte s r = false ∧ t.elapsed = advanceElapsed wrap16 s.elapsed (pollIncrement s) ∧
       ((t.elapsed < s.timeout.value.toNat ∧ t.seq = .poll (k + 1) ∧ t.pollOutcome = s.pollOutcome) ∨
        (s.timeout.value.toNat ≤ t.elapsed ∧ t.seq = .idle ∧ t.pollOutcome = .timedOut)))) := by
  obtain ⟨x0, x1, x2, x3, t0, hs, he⟩ := shiftFrame_sent s.cmd.b3.value (setSeq (.poll k) s)
  have hp : Polled [x3] s (storeRes [x0, x1, x2, x3] t0) := hs.setSeqRes rfl
  have hw := hs.only
  unfold OnlyWires at hw
  have e1 : t0.elapsed = s.elapsed := by rw [hw]; rfl
  have e2 : t0.timeout = s.timeout := by rw [hw]; rfl
  have e3 : t0.pollOutcome = s.pollOutcome := by rw [hw]; rfl
  have hm := hp.only.matchByte x3
  have hi := hp.only.pollIncrement
  have hv : pollAttempt wrap16 k s = pollVerdict wrap16 k (storeRes [x0, x1, x2, x3] t0) := by rw [pollAttempt, he]
  have hc := pollVerdict_cases wrap16 k (storeRes [x0, x1, x2, x3] t0)
  simp only [storeRes_res, storeFrame_four, written_value, hm, hi, storeRes_elapsed, storeRes_timeout, e1, e2] at hc
  refine ⟨x3, pollAttempt wrap16 k s, rfl, ?_⟩
  rw [hv]
  rcases hc with ⟨m, h⟩ | ⟨m, tl, h⟩ | ⟨m, tl, h⟩
  · rw [h]; exact ⟨hp.settle rfl, .inl ⟨m, rfl, rfl, e1⟩⟩
  · rw [h]; exact ⟨hp.settle rfl, .inr ⟨m, rfl, .inl ⟨tl, rfl, e3⟩⟩⟩
  · rw [h]; exact ⟨hp.settle rfl, .inr ⟨m, rfl, .inr ⟨tl, rfl, rfl⟩⟩⟩

/-- EVERYTHING THE POLL LOOP CAN DO (R167): the attempts before the last all missed with the timer still running;
the last one matched, or ran the timer out, or was the budget's last. -/
theorem pollLoop_polled (wrap16 : Bool) (budget k : Nat) (s : State) :
    let t := pollLoop wrap16 budget k s
    let timer := fun n => timerAfter wrap16 (pollIncrement s) n s.elapsed
    ∃ rs, Polled rs s t ∧
    ((∃ init r, rs = init ++ [r] ∧ rs.length ≤ budget ∧ (∀ x ∈ init, matchByte s x = false) ∧
        (∀ j, 1 ≤ j → j ≤ init.length → timer j < s.timeout.value.toNat) ∧ t.seq = .idle ∧
        ((matchByte s r = true ∧ t.pollOutcome = .confirmed ∧ t.elapsed = timer init.length) ∨
         (matchByte s r = false ∧ t.pollOutcome = .timedOut ∧ t.elapsed = timer rs.length ∧
            s.timeout.value.toNat ≤ t.elapsed))) ∨
     (rs.length = budget ∧ (∀ x ∈ rs, matchByte s x = false) ∧ t.pollOutcome = s.pollOutcome ∧
        t.elapsed = timer budget ∧ (∀ j, 1 ≤ j → j ≤ budget → timer j < s.timeout.value.toNat) ∧
        (budget = 0 ∧ t = s ∨ t.seq = .poll (k + budget)))) := by
  induction budget generalizing k s with
  | zero => exact ⟨[], Polled.nil s, .inr ⟨rfl, by simp, rfl, rfl, fun j h1 h2 => by omega, .inl ⟨rfl, rfl⟩⟩⟩
  | succ budget ih =>
    intro u timer
    obtain ⟨r, t, ht, hp, hv⟩ := pollAttempt_polled wrap16 k s
    have hm := hp.only.matchByte
    have hi := hp.only.pollIncrement
    have hto := hp.only.fields.2.2.2.1
    rcases hv with ⟨m, o, q, e⟩ | ⟨m, e, ⟨tl, q, o⟩ | ⟨tl, q, o⟩⟩
    · have hl : u = t := by simp [u, pollLoop, ← ht, q]
      rw [hl]
      exact ⟨[r], hp, .inl ⟨[], r, rfl, by simp, by simp, fun j h1 h2 => absurd (Nat.le_trans h1 h2) (by simp), q,
        .inl ⟨m, o, e⟩⟩⟩
    · have hl : u = pollLoop wrap16 budget (k + 1) t := by simp [u, pollLoop, ← ht, q]
      rw [hl]
      obtain ⟨rs, hps, hcase⟩ := ih (k + 1) t
      have hstep : ∀ n, timerAfter wrap16 (pollIncrement t) n t.elapsed = timer (n + 1) := fun n => by
        rw [hi, e]; rfl
      have h1 : timer 1 < s.timeout.value.toNat := by rw [← hstep 0]; exact tl
      have hrun : ∀ m, (∀ j, 1 ≤ j → j ≤ m → timer (j + 1) < s.timeout.value.toNat) →
          ∀ j, 1 ≤ j → j ≤ m + 1 → timer j < s.timeout.value.toNat := fun m h j a b => by
        obtain ⟨i, rfl⟩ : ∃ i, j = i + 1 := ⟨j - 1, by omega⟩
        rcases Nat.eq_zero_or_pos i with rfl | hi
        · exact h1
        · exact h i hi (by omega)
      simp only [hm, hto, o, hstep] at hcase
      refine ⟨r :: rs, hp.append hps, ?_⟩
      rcases hcase with ⟨init, x, a1, a2, a3, a4, a5, a6⟩ | ⟨a1, a2, a3, a4, a5, a6⟩
      · exact .inl ⟨r :: init, x, by rw [a1]; rfl, by simpa using a2, by simpa [m] using a3, hrun _ a4, a5, a6⟩
      · refine .inr ⟨by simpa using a1, by simpa [m] using a2, a3, a4, hrun _ a5, .inr ?_⟩
        rcases a6 with ⟨hb, heq⟩ | a6
        · subst hb
          rw [heq]
          exact q
        · rw [a6]; congr 1; omega
    · have hl : u = t := by simp [u, pollLoop, ← ht, q]
      rw [hl]
      exact ⟨[r], hp, .inl ⟨[], r, rfl, by simp, by simp, fun j h1 h2 => absurd (Nat.le_trans h1 h2) (by simp), q,
        .inr ⟨m, o, e, tl⟩⟩⟩

theorem pollBudget_advancing {s : State} (h : 0 < pollIncrement s) : pollBudget s = 2048 := by
  simp [pollBudget, Nat.pos_iff_ne_zero.mp h]

theorem pollBudget_pos (s : State) : 1 ≤ pollBudget s := by
  unfold pollBudget; split <;> omega

/-- EVERYTHING ONE STEP OF A POLL CAN DO (R167, R168, R173), on any build: no attempt before the last matches, and the timer
ran on after each; the last one matches, or ends the poll with the timer at TIMEOUT, or leaves it waiting with the budget of
the step used up. -/
theorem pollFrom_cases (wrap16 : Bool) (k : Nat) (s : State) :
    let t := pollFrom wrap16 k s
    let timer := fun n => timerAfter wrap16 (pollIncrement s) n s.elapsed
    ∃ init r, Polled (init ++ [r]) s t ∧ (∀ x ∈ init, matchByte s x = false) ∧
    (∀ j, 1 ≤ j → j ≤ init.length → timer j < s.timeout.value.toNat) ∧ init.length + 1 ≤ pollBudget s ∧
    ((matchByte s r = true ∧ t.pollOutcome = .confirmed ∧ t.seq = .idle ∧ t.elapsed = timer init.length) ∨
     (matchByte s r = false ∧ t.elapsed = timer (init.length + 1) ∧
       ((t.pollOutcome = .timedOut ∧ t.seq = .idle ∧ s.timeout.value.toNat ≤ t.elapsed) ∨
        (t.pollOutcome = s.pollOutcome ∧ t.seq = .poll (k + pollBudget s) ∧ init.length + 1 = pollBudget s ∧
          t.elapsed < s.timeout.value.toNat)))) := by
  intro t timer
  have hpos := pollBudget_pos s
  obtain ⟨rs, hp, ⟨init, r, h1, h2, h3, h4, h5, h6⟩ | ⟨h1, h2, h3, h4, h5, h6⟩⟩ :=
    pollLoop_polled wrap16 (pollBudget s) k s
  · subst h1
    simp only [List.length_append, List.length_singleton] at h2 h6
    refine ⟨init, r, hp, h3, h4, h2, ?_⟩
    rcases h6 with ⟨a, b, c⟩ | ⟨a, b, c, d⟩
    · exact .inl ⟨a, b, h5, c⟩
    · exact .inr ⟨a, c, .inl ⟨b, h5, d⟩⟩
  · have hne : rs ≠ [] := fun h => by simp [h] at h1; omega
    have hq : rs = rs.dropLast ++ [rs.getLast hne] := (List.dropLast_append_getLast hne).symm
    have hl : rs.dropLast.length + 1 = pollBudget s := by simp [h1]; omega
    refine ⟨rs.dropLast, rs.getLast hne, hq ▸ hp, fun x hx => h2 x (List.dropLast_subset _ hx),
      fun j a b => h5 j a (by omega), by omega, .inr ⟨h2 _ (List.getLast_mem hne), by rw [hl]; exact h4, .inr ?_⟩⟩
    rcases h6 with ⟨hb, _⟩ | h6
    · omega
    · refine ⟨h3, h6, hl, ?_⟩
      have := h5 (pollBudget s) hpos (Nat.le_refl _)
      exact h4 ▸ this

/-- A poll makes at least one attempt, whether its timer advances or not (R167). -/
theorem pollFrom_polled (wrap16 : Bool) (k : Nat) (s : State) : ∃ rs, rs ≠ [] ∧ Polled rs s (pollFrom wrap16 k s) := by
  obtain ⟨init, r, hp, _⟩ := pollFrom_cases wrap16 k s
  exact ⟨init ++ [r], by simp, hp⟩

/-- A poll whose timer advances exactly always ends in its step (R168): the budget is never used up. -/
theorem pollFrom_ends (k : Nat) (s : State) (hinc : 0 < pollIncrement s) : ∃ init r,
    Polled (init ++ [r]) s (pollFrom false k s) ∧ (∀ x ∈ init, matchByte s x = false) ∧
    (init = [] ∨ s.elapsed + init.length * pollIncrement s < s.timeout.value.toNat) ∧
    (pollFrom false k s).seq = .idle ∧
    ((matchByte s r = true ∧ (pollFrom false k s).pollOutcome = .confirmed ∧
        (pollFrom false k s).elapsed = s.elapsed + init.length * pollIncrement s) ∨
     (matchByte s r = false ∧ (pollFrom false k s).pollOutcome = .timedOut ∧
        (pollFrom false k s).elapsed = s.elapsed + (init.length + 1) * pollIncrement s ∧
        s.timeout.value.toNat ≤ (pollFrom false k s).elapsed)) := by
  have h := pollFrom_cases false k s
  simp only [timerAfter_exact, pollBudget_advancing hinc] at h
  obtain ⟨init, r, hp, hm, hj, _, hc⟩ := h
  have hrun : init = [] ∨ s.elapsed + init.length * pollIncrement s < s.timeout.value.toNat := by
    rcases eq_or_ne init [] with h | h
    · exact .inl h
    · exact .inr (hj _ (List.length_pos_iff.mpr h) (Nat.le_refl _))
  rcases hc with ⟨a, b, c, d⟩ | ⟨a, b, ⟨c, d, e⟩ | ⟨_, _, c, d⟩⟩
  · exact ⟨init, r, hp, hm, hrun, c, .inl ⟨a, b, d⟩⟩
  · exact ⟨init, r, hp, hm, hrun, d, .inr ⟨a, c, b, e⟩⟩
  · exfalso
    have hT := s.timeout.value.isLt
    have h32 : 32 ≤ pollIncrement s := by
      unfold pollIncrement at *
      omega
    have : 2048 * 32 ≤ (init.length + 1) * pollIncrement s := by rw [c]; exact Nat.mul_le_mul_left _ h32
    omega

/-- A poll whose timer wraps (R173): it ends with a match or the first time the timer reaches TIMEOUT, or goes on after
the step's budget with the timer never having reached it. -/
theorem pollFrom_wrapped (k : Nat) (s : State) (he : s.elapsed < 65536) :
    let t := pollFrom true k s
    ∃ init r, Polled (init ++ [r]) s t ∧ (∀ x ∈ init, matchByte s x = false) ∧
    (∀ j, 1 ≤ j → j ≤ init.length → (s.elapsed + j * pollIncrement s) % 65536 < s.timeout.value.toNat) ∧
    init.length + 1 ≤ pollBudget s ∧
    ((matchByte s r = true ∧ t.pollOutcome = .confirmed ∧ t.seq = .idle ∧
        t.elapsed = (s.elapsed + init.length * pollIncrement s) % 65536) ∨
     (matchByte s r = false ∧ t.elapsed = (s.elapsed + (init.length + 1) * pollIncrement s) % 65536 ∧
       ((t.pollOutcome = .timedOut ∧ t.seq = .idle ∧ s.timeout.value.toNat ≤ t.elapsed) ∨
        (t.pollOutcome = s.pollOutcome ∧ t.seq = .poll (k + pollBudget s) ∧ init.length + 1 = pollBudget s ∧
          t.elapsed < s.timeout.value.toNat)))) := by
  have h := pollFrom_cases true k s
  simp only [timerAfter_wrapped _ _ _ he] at h
  exact h

/-- A poll whose timer does not advance makes one attempt a step (R168). -/
theorem pollFrom_stalled (wrap16 : Bool) (k : Nat) (s : State) (hinc : pollIncrement s = 0) :
    pollFrom wrap16 k s = pollAttempt wrap16 k s := by
  have hb : pollBudget s = 1 := by simp [pollBudget, hinc]
  rw [pollFrom, hb, pollLoop, pollLoop]
  split <;> rfl

end Sys2Proof.Laws
end

