-- ==== Sys2Proof/Laws/Commands.lean ====
section
/-! SUPPORT. What the operations the shifting commands call can do: a raw frame (`rawFrame_sent`), the write frame of an
OUT_BYTE with the poll it starts (`writeFrame_starts`); and what this machine's own build is (`execFor_build`,
`stepFor_build`).
-/
namespace Sys2Proof.Laws

open Sys2Proof.Machine Sys2Proof.Safety

/-- EVERYTHING A RAW FRAME CAN DO (R129, R130): it exchanges the payload for as many bytes, and answers them. -/
theorem rawFrame_sent (payload : List Byte) (s : State) : ∃ recv t, Sent payload recv s t ∧
    rawFrame payload s = respond (.immediate recv) t :=
  ⟨_, _, transfer_sent payload s, rfl⟩

/-- EVERYTHING THE WRITE FRAME OF AN OUT_BYTE CAN DO (R163): the poll starts in the state `v`, whose CMD holds the read
frame of the same location, and nothing but ADDRESS, CMD, RES, ELAPSED, SEQ, the answer and the wires has moved. -/
theorem writeFrame_starts (b : Build) (d : Byte) (k : Half) (op : Byte) (s : State) : ∃ x0 x1 x2 x3 v,
    poll b.wrap16 (writeCycle b d k op (answer .out s)) = pollFrom b.wrap16 1 v ∧
    v = { s with
      address := written (k + 1#16), cmd := v.cmd, res := ⟨written x0, written x1, written x2, written x3⟩,
      elapsed := 0, seq := .poll 1, reply := .out, fresh := s.fresh + 1, lineOL := v.lineOL, shifter := v.shifter,
      trace := v.trace, miso := v.miso } ∧
    writtenFrame (pollHeadAt b.width b.flipMask op k ++ [d]) v.cmd ∧
    Traffic s v (frameHeadAt b.width op k ++ [d]) [x0, x1, x2, x3] (32 * (2 * halfPeriod s))
      (frameEvents (strategyOf s.shifter) (halfPeriod s) (frameHeadAt b.width op k ++ [d]) [x0, x1, x2, x3]) ∧
    strategyOf v.shifter = strategyOf s.shifter ∧
    (32 ≤ s.miso.length → [x0, x1, x2, x3] = bytesOf 4 s.miso ∧ v.miso = s.miso.drop 32) ∧
    lineAt v.lineOL .ind = lineAt s.lineOL .ind ∧ lineAt v.lineOL .rst = lineAt s.lineOL .rst ∧
    lineAt v.lineOL .sck = false := by
  obtain ⟨x0, x1, x2, x3, t, hs, he⟩ := writeCycle_sent b d k op (answer .out s)
  have ho := hs.only
  unfold OnlyWires at ho
  refine ⟨x0, x1, x2, x3, setElapsed 0 (setSeq (.poll 1) (writeCycle b d k op (answer .out s))), rfl, ?_, ?_,
    hs.traffic.congr rfl (by rw [he]; rfl), by rw [he]; exact hs.strategy, fun h => by rw [he]; exact hs.fixed h,
    by rw [he]; exact hs.ind, by rw [he]; exact hs.rst, by rw [he]; exact hs.sck (by simp)⟩
  · rw [he, ho]; rfl
  · unfold writtenFrame
    rw [pollHeadAt, ← frame_head, he]
    simp
    rw [ho]
    simp [buildFrame, written, setPayload]

/-- This machine's own build gives every instruction the meaning of `exec` (R5). -/
theorem execFor_build (i : Instr) (s : State) : execFor Config.build i s = exec i s := by cases i <;> rfl

/-- This machine's own build steps as `step` says (R5). -/
theorem stepFor_build (s : State) : stepFor Config.build s = step s := by
  have h : execFor Config.build = exec := funext fun i => funext fun s => execFor_build i s
  unfold stepFor step
  rw [h]
  rfl

end Sys2Proof.Laws
end

