-- ==== Sys2Proof/Laws/PerInstr.lean ====
section
/-! SUPPORT. Statements for every instruction, one lemma a constructor.  `TableRow`: the selector of an encoded
well-formed instruction is matched by the row of spec/opcode_table.json the instruction belongs to (R83, R84).
-/
namespace Sys2Proof.Laws.TableRow

/-- The instruction's own row of the opcode table matches its encoding's selector (R83). -/
def Statement (i : Instr) : Prop := i.wellFormed = true → (rowOf i).covers (selector (encode i)) = true

theorem echo (p : Packet) : Statement (.echo p) := by
  intro h
  have : p.b1 = 0#8 := by simpa [Instr.wellFormed] using h
  simp [encode, encodeWith, selector, rowOf, Row.covers, this]

theorem read : Statement .read := fun _ => rfl

theorem write (v i : Half) : Statement (.write v i) := by
  simp [Statement, encode, encodeWith, setupFields, setupCommand, selector, rowOf, Row.covers]

theorem clr (v i : Half) : Statement (.clr v i) := by
  simp [Statement, encode, encodeWith, setupFields, setupCommand, selector, rowOf, Row.covers]

theorem set (v i : Half) : Statement (.set v i) := by
  simp [Statement, encode, encodeWith, setupFields, setupCommand, selector, rowOf, Row.covers]

theorem powerup (a b : Byte) : Statement (.powerup a b) := by
  simp [Statement, encode, encodeWith, setupCommand, selector, rowOf, Row.covers]

theorem powerdown : Statement .powerdown := fun _ => rfl

theorem spi (a b c d : Byte) : Statement (.spi a b c d) := by
  simp [Statement, encode, encodeWith, setupCommand, selector, rowOf, Row.covers]

theorem pollBytes (a b : Byte) : Statement (.pollBytes a b) := by
  simp [Statement, encode, encodeWith, setupCommand, selector, rowOf, Row.covers]

theorem flashRead (a : Half) : Statement (.flashRead a) := by
  simp [Statement, encode, encodeWith, setupFields, setupCommand, selector, rowOf, Row.covers]

theorem flashWrite (a t : Half) : Statement (.flashWrite a t) := by
  simp [Statement, encode, encodeWith, setupFields, setupCommand, selector, rowOf, Row.covers]

theorem eepromRead (a : Half) : Statement (.eepromRead a) := by
  simp [Statement, encode, encodeWith, setupFields, setupCommand, selector, rowOf, Row.covers]

theorem eepromWrite (a t : Half) : Statement (.eepromWrite a t) := by
  simp [Statement, encode, encodeWith, setupFields, setupCommand, selector, rowOf, Row.covers]

theorem ddrwrite (v i : Half) : Statement (.ddrwrite v i) := by
  simp [Statement, encode, encodeWith, setupFields, setupCommand, selector, rowOf, Row.covers]

theorem spi1 (a : Byte) : Statement (.spi1 a) := by
  simp [Statement, encode, encodeWith, setupCommand, selector, rowOf, Row.covers, Config.spi1Code]

theorem unknown0F : Statement .unknown0F := fun _ => rfl

theorem unknown10 (low : BitVec 4) : Statement (.unknown10 low) := by
  intro _; revert low; decide

theorem unknown20 (low : BitVec 5) : Statement (.unknown20 low) := by
  intro _; revert low; decide

theorem unknown40 (low : BitVec 6) : Statement (.unknown40 low) := by
  intro _; revert low; decide

theorem unknown80 (low : BitVec 7) : Statement (.unknown80 low) := by
  intro _; revert low; decide

theorem inByte : Statement .inByte := fun _ => rfl

theorem outByte (d : Byte) : Statement (.outByte d) := by
  simp [Statement, encode, encodeWith, strobeCommand, selector, rowOf, Row.covers]

theorem reserved : Statement .reserved := fun _ => rfl

end Sys2Proof.Laws.TableRow
end

