-- ==== Sys2Proof/Tests/Slice0.lean ====
section
/-! SUPPORT. Tests whose expected results are the spec's own examples (95_test_vectors.md, by vector name), and a
witness for the hypotheses of each statement.
-/
namespace Sys2Proof.Tests

open Sys2Proof.Machine Sys2Proof.Safety

/-! Small states. -/

/-- A powered BITBANG machine with `SCK_PERIOD = 4`, IND asserted, every other register unwritten. -/
def bench : State :=
  { State.reset with shifter := .bitbang 0#8 0#8, lineOE := 0b1111#4, lineOL := 0b0001#4, sckPeriod := ⟨4#8, true⟩ }

/-- The same machine built with the hardware shift unit. -/
def benchHw : State := { bench with shifter := .hwshift 0#8 0 false }

/-- The target's answers are fixed to these bytes, in order. -/
def answers (bs : List Byte) (s : State) : State := { s with miso := bs.flatMap bitsOf }

/-- Ready for an OUT_BYTE: the common start of the poller's vectors, `POLL1 = FF`, `POLL2 = 00`. -/
def writer (sck : Byte) (op : Byte) (addr timeout : Half) : State :=
  { bench with sckPeriod := ⟨sck, true⟩, poll1 := ⟨0xFF#8, true⟩, poll2 := ⟨0x00#8, true⟩,
               address := ⟨addr, true⟩, timeout := ⟨timeout, true⟩, opcode := ⟨op, true⟩ }

/-- Frames the target answers: one for the write frame, then one for each read-back. -/
def readings (rs : List Byte) : List Byte := (0x00#8 :: rs).flatMap fun r => [0x00#8, 0x00#8, 0x00#8, r]

/-- An observation of the next state, where there is one. -/
def after {α : Type} (f : State → α) (i : Instr) (s : State) : Option α :=
  match exec i s with
  | .next t => some (f t)
  | .fault _ => none
  | .refused _ => none

/-- The fault, where there is one. -/
def faultOf (i : Instr) (s : State) : Option Fault :=
  match exec i s with
  | .next _ => none
  | .fault f => some f
  | .refused _ => none

/-- A machine whose poll hangs: `SCK_PERIOD = 0`, `TIMEOUT = 1`, waiting for attempt 2 (R168). -/
def hung : State :=
  { writer 0#8 0x40#8 1#16 1#16 with seq := .poll 2, cmd := ⟨⟨0x20#8, true⟩, ⟨0#8, true⟩, ⟨0#8, true⟩, ⟨0xFF#8, true⟩⟩ }

/-- A machine of the strategy this build has. -/
def asBuilt (s : State) : State := { s with shifter := Shifter.initial Config.strategy }

/-! Well-formedness and decoding. -/

/-- An ECHO packet whose bRequest is not 0 is no ECHO (R102). -/
theorem test_wellFormed_refuses_echo : (Instr.echo ⟨0xC0, 0x01, 0, 0, 0, 0, 0, 0⟩).wellFormed = false := by decide

theorem test_decode_echo : decode ⟨0#2, ⟨0xC0, 0x00, 0xDE, 0xAD, 0xBE, 0xEF, 0x01, 0x02⟩, 0⟩ =
    .echo ⟨0xC0, 0x00, 0xDE, 0xAD, 0xBE, 0xEF, 0x01, 0x02⟩ := by decide  -- DS1
theorem test_decode_read : decode ⟨0#2, ⟨0xC0, 0x01, 0, 0, 0, 0, 1, 0⟩, 0⟩ = .read := by decide  -- DS3
theorem test_decode_write : decode ⟨0#2, ⟨0x40, 0x02, 0xFF, 0x00, 0x3B, 0x00, 0, 0⟩, 0⟩ =
    .write 0x00FF#16 0x003B#16 := by decide  -- DS4
theorem test_decode_clr : decode ⟨0#2, ⟨0x40, 0x03, 0x01, 0x02, 0, 0x80, 0, 0⟩, 0⟩ =
    .clr 0x0201#16 0x8000#16 := by decide  -- R82
theorem test_decode_set : decode ⟨0#2, ⟨0x40, 0x04, 0x02, 0, 0, 0, 0, 0⟩, 0⟩ = .set 2#16 0#16 := by decide  -- R106
theorem test_decode_powerup : decode ⟨0#2, ⟨0x40, 0x05, 0x0A, 0xFF, 0x00, 0x01, 0, 0⟩, 0⟩ =
    .powerup 0x0A#8 0x00#8 := by decide  -- PW3
theorem test_decode_powerdown : decode ⟨0#2, ⟨0x40, 0x06, 0, 0, 0, 0, 0, 0⟩, 0⟩ = .powerdown := by decide  -- PW6
theorem test_decode_spi : decode ⟨0#2, ⟨0xC0, 0x07, 0xAC, 0x53, 0x12, 0x34, 0, 0⟩, 0⟩ =
    .spi 0xAC#8 0x53#8 0x12#8 0x34#8 := by decide  -- R129
theorem test_decode_pollBytes : decode ⟨0#2, ⟨0x40, 0x08, 0xFF, 0x00, 0, 0, 0, 0⟩, 0⟩ =
    .pollBytes 0xFF#8 0x00#8 := by decide  -- S3
theorem test_decode_flashRead : decode ⟨0#2, ⟨0xC0, 0x09, 0, 0, 0x10, 0, 0, 0⟩, 0⟩ =
    .flashRead 0x0010#16 := by decide  -- S2
theorem test_decode_flashWrite : decode ⟨0#2, ⟨0x40, 0x0A, 0x2C, 0x01, 0x01, 0x01, 0, 0⟩, 0⟩ =
    .flashWrite 0x0101#16 300#16 := by decide  -- P3
theorem test_decode_eepromRead : decode ⟨0#2, ⟨0xC0, 0x0B, 0xFF, 0xFF, 0x03, 0x00, 0, 0⟩, 0⟩ =
    .eepromRead 0x0003#16 := by decide  -- R146
theorem test_decode_eepromWrite : decode ⟨0#2, ⟨0x40, 0x0C, 0xC8, 0x00, 0x05, 0x00, 0, 0⟩, 0⟩ =
    .eepromWrite 5#16 200#16 := by decide  -- P2
theorem test_decode_ddrwrite : decode ⟨0#2, ⟨0x40, 0x0D, 0, 0, 0, 0, 0, 0⟩, 0⟩ = .ddrwrite 0#16 0#16 := by decide  -- DS5
theorem test_decode_spi1 : decode ⟨0#2, ⟨0xC0, 0x0E, 0x30, 0xFF, 0xFF, 0xFF, 0, 0⟩, 0⟩ = .spi1 0x30#8 := by decide  -- TR5
theorem test_decode_unknown0F : decode ⟨0#2, ⟨0x40, 0x0F, 0x34, 0x12, 0x78, 0x56, 0, 0⟩, 0⟩ = .unknown0F := by decide  -- DS7
theorem test_decode_unknown10 : decode ⟨0#2, ⟨0x40, 0x1A, 0, 0, 0, 0, 0, 0⟩, 0⟩ = .unknown10 0xA#4 := by decide  -- R83
theorem test_decode_unknown20 : decode ⟨0#2, ⟨0x40, 0x3F, 0, 0, 0, 0, 0, 0⟩, 0⟩ = .unknown20 0x1F#5 := by decide  -- R83
theorem test_decode_unknown40 : decode ⟨0#2, ⟨0x40, 0x40, 0, 0, 0, 0, 0, 0⟩, 0⟩ = .unknown40 0#6 := by decide  -- R83
theorem test_decode_unknown80 : decode ⟨0#2, ⟨0x40, 0xFF, 0xFF, 0xFF, 0xFF, 0xFF, 0xFF, 0xFF⟩, 0⟩ =
    .unknown80 0x7F#7 := by decide  -- DS8
theorem test_decode_inByte : decode ⟨1#2, ⟨0, 0, 0, 0, 0, 0, 0, 0⟩, 0⟩ = .inByte := by decide  -- R80
theorem test_decode_outByte : decode ⟨2#2, ⟨0, 0, 0, 0, 0, 0, 0, 0⟩, 0x5A⟩ = .outByte 0x5A#8 := by decide  -- PW10
theorem test_decode_reserved : decode ⟨3#2, ⟨0, 5, 0, 0, 0, 0, 0, 0⟩, 0⟩ = .reserved := by decide  -- DS9

/-- The words of the opcode table, bit 9:8 the kind and bit 7:0 the code (R83). -/
theorem test_table_words : decodeTableWord 16 0x00E = some (.spi1 0#8) ∧ decodeTableWord 16 0x100 = some .inByte ∧
    decodeTableWord 24 0x5A0200 = some (.outByte 0x5A#8) ∧ decodeTableWord 16 0x300 = some .reserved := by decide

/-- The first command after reset runs: an OUT_BYTE while unpowered is accepted (PW10). -/
theorem test_first_step : step (State.reset.withFetchWord 16 0x200) = exec (.outByte 0#8) State.reset := rfl

/-- The assembler's lines of programs P2 and P4 (R93). -/
theorem test_assembler :
    asmLine (.eepromWrite 5#16 200#16) = some "EEPROM_WRITE addr=0x0005 timeout=0x00C8" ∧
    asmLine (.spi 0xAC 0x53 0 0) = some "SPI 0xAC,0x53,0x00,0x00" ∧ asmLine (.outByte 0x5A) = some "OUT 0x5A" := by
  decide

/-! The commands. -/

theorem test_echo : after (fun t => t.reply) (.echo ⟨0xC0, 0, 0x11, 0x22, 0x33, 0x44, 0x55, 0x66⟩) bench =
    some (.setup (.immediate [0xC0, 0, 0x11, 0x22, 0x33, 0x44, 0x55, 0x66])) := by decide  -- PR4
theorem test_ddrwrite : after (fun t => (t.lineOE, t.reply)) (.ddrwrite 0#16 0#16) bench =
    some (0b1111#4, .setup .none) := by decide  -- DS5
theorem test_unknown_code : after (fun t => (t.address, t.timeout, t.reply)) .unknown0F (writer 4 0x40 0x0200 50) =
    some (⟨0x0200#16, true⟩, ⟨50#16, true⟩, .setup .none) := by decide  -- DS7
theorem test_powerup : after (fun t => (t.sckPeriod, t.lineOE, t.lineOL)) (.powerup 4#8 1#8) State.reset =
    some (⟨4#8, true⟩, 0b1111#4, 0b0011#4) := by decide  -- PW1
theorem test_powerup_any_flag : after (fun t => (t.sckPeriod, t.lineOL)) (.powerup 0#8 0x80#8) State.reset =
    some (⟨0#8, true⟩, 0b0011#4) := by decide  -- PW4
theorem test_powerdown : after (fun t => (t.lineOE, t.lineOL, allUnwritten t)) .powerdown (writer 4 0x40 0 0) =
    some (0#4, 0#4, true) := by decide  -- PW6
theorem test_spi : after (fun t => t.reply) (.spi 0xAC 0x53 0 0) (answers [0x00, 0xAC, 0x53, 0x00] bench) =
    some (.setup (.immediate [0x00, 0xAC, 0x53, 0x00])) := by decide  -- TR3
theorem test_spi_unpowered : after (fun t => (t.reply, t.trace)) (.spi 0xAC 0x53 0 0) State.reset =
    some (.setup .none, []) := by decide  -- PW7
theorem test_spi1_bits : after (fun t => (sentBits bench t, t.reply)) (.spi1 0xA5) (answers [0x61] bench) =
    some ([true, false, true, false, false, true, false, true], .setup (.immediate [0x61])) := by
  decide +kernel  -- TR1
theorem test_spi1_hwshift : after (fun t => (sentBits benchHw t, t.reply)) (.spi1 0x81) (answers [0x61] benchHw) =
    some ([true, false, false, false, false, false, false, true], .setup (.immediate [0x61])) := by
  decide +kernel  -- TR9
theorem test_pollBytes : after (fun t => (t.poll1, t.poll2, t.reply)) (.pollBytes 0xFF 0x00) bench =
    some (⟨0xFF, true⟩, ⟨0x00, true⟩, .setup .none) := by decide  -- R160
theorem test_flashRead : after (fun t => (t.address, t.opcode, t.reply)) (.flashRead 0x0010) bench =
    some (⟨0x0010, true⟩, ⟨0x20, true⟩, .setup .streamed) := by decide  -- S2
theorem test_flashRead_unpowered : after (fun t => (t.address.written, t.reply)) (.flashRead 0x0010) State.reset =
    some (false, .setup .none) := by decide  -- PW8
theorem test_flashWrite : after (fun t => (t.address, t.timeout, t.opcode)) (.flashWrite 0x0101 300) bench =
    some (⟨0x0101, true⟩, ⟨300, true⟩, ⟨0x40, true⟩) := by decide  -- P3
theorem test_eepromRead : after (fun t => (t.address, t.opcode, t.reply)) (.eepromRead 0x0003) bench =
    some (⟨0x0003, true⟩, ⟨0xA0, true⟩, .setup .streamed) := by decide  -- R146
theorem test_eepromWrite : after (fun t => (t.address, t.timeout, t.opcode)) (.eepromWrite 5 200) bench =
    some (⟨5, true⟩, ⟨200, true⟩, ⟨0xC0, true⟩) := by decide  -- P2
theorem test_inByte_wraps :
    after (fun t => ((sentBits bench t).take 24, t.address)) .inByte (writer 4 0x20 0xFFFF 0) =
      some ([0x28, 0x7F, 0xFF].flatMap bitsOf, ⟨0x0000, true⟩) := by decide +kernel  -- EN6
theorem test_inByte_eeprom :
    after (fun t => ((sentBits bench t).take 24, t.reply)) .inByte
      (answers [0xFF, 0xA0, 0x12, 0x3C] (writer 4 0xA0 0x1234 0)) =
      some ([0xA0, 0x12, 0x34].flatMap bitsOf, .inData 0x3C) := by decide +kernel  -- EN7
theorem test_inByte_unwritten : faultOf .inByte bench = some (.unwrittenRead .address) := by decide  -- EN15
theorem test_outByte_frames : after (fun t => (sentBits bench t, t.address, t.reply)) (.outByte 0xFF)
    (answers (readings [0xFF]) (writer 4 0x40 0x0101 100)) =
      some ([0x48, 0x00, 0x80, 0xFF, 0x28, 0x00, 0x80, 0xFF].flatMap bitsOf, ⟨0x0102, true⟩, .out) := by
  decide +kernel  -- PO22
theorem test_outByte_last_attempt : after (fun t => (t.pollOutcome, t.elapsed, t.opcode)) (.outByte 0xAB)
    (answers (readings [0xFF, 0xFF, 0xFF, 0xAB]) (writer 1 0x40 0 100)) = some (.confirmed, 96, ⟨0x40, true⟩) := by
  decide +kernel  -- PO7
theorem test_reserved : faultOf .reserved bench = some .reservedCommand := by decide  -- DS9

/-! The clauses of the poll statements at their boundaries. -/

/-- `INC > 0`, no match: exactly N = 4 attempts (PO9). -/
theorem witness_poll_times_out : after (fun t => (readBacks bench t, t.pollOutcome, t.elapsed)) (.outByte 0xAB)
    (answers (readings [0xFF, 0xFF, 0xFF, 0xFF]) (writer 1 0x40 0 97)) =
      some ([0xFF, 0xFF, 0xFF, 0xFF], .timedOut, 128) := by decide +kernel
/-- `INC = 0`, `TIMEOUT = 0`: one attempt (PO10). -/
theorem witness_poll_zero_period_zero_timeout : after (fun t => (t.pollOutcome, t.elapsed, t.seq)) (.outByte 0xAB)
    (answers (readings [0xFF]) (writer 0 0x40 0 0)) = some (.timedOut, 0, .idle) := by decide +kernel
/-- `INC = 0`, `TIMEOUT = 1`, a miss: the poll waits for attempt 2 (PO11, PO12). -/
theorem witness_poll_zero_period_waits : after (fun t => (t.elapsed, t.seq, t.pollOutcome)) (.outByte 0xAB)
    (answers (readings [0x00]) (writer 0 0x40 0 1)) = some (0, .poll 2, .none) := by decide +kernel
/-- A sentinel read back is no confirmation (PO13 with one attempt). -/
theorem witness_poll_sentinel : after (fun t => (t.pollOutcome, t.elapsed)) (.outByte 0xFF)
    (answers (readings [0xFF]) (writer 4 0x40 0 0)) = some (.timedOut, 128) := by decide +kernel

/-- RES is the whole last frame, and only its byte 3 is compared (PO20). -/
theorem witness_poll_res : after (fun t => (t.res, t.pollOutcome)) (.outByte 0xAB)
    (answers [0, 0, 0, 0, 0xAB, 0xAB, 0xAB, 0x00] (writer 4 0x40 0 100)) =
      some (⟨⟨0xAB, true⟩, ⟨0xAB, true⟩, ⟨0xAB, true⟩, ⟨0x00, true⟩⟩, .timedOut) := by decide +kernel

/-! Builds with other values of the parameters (R5): the EEPROM vectors at width 17 and the poll vectors with a wrapping
timer, for every target that never answers the written byte. -/

theorem test_inByte_width17 :
    (match execFor { Config.build with width := .w17 } .inByte (writer 4 0xA0 0x8000 0) with
      | .next t => some ((sentBits bench t).take 24, t.address)
      | .fault _ => none
      | .refused _ => none) = some ([0xA0, 0x80, 0x00].flatMap bitsOf, ⟨0x8001, true⟩) := by decide +kernel  -- EN11
/-- R84, 92 D3: where SPI1_CODE is 0xE0, code 0xE0 is SPI1 and code 14 is an unknown one. -/
theorem test_other_spi1Code : decodeWith 0xE0#8 ⟨0#2, ⟨0xC0, 0xE0, 0x30, 0, 0, 0, 0, 0⟩, 0⟩ = .spi1 0x30#8 ∧
    decodeWith 0xE0#8 ⟨0#2, ⟨0xC0, 0x0E, 0x30, 0, 0, 0, 0, 0⟩, 0⟩ = .unknown0F := by decide
/-- R26, R145, R164: a build with other opcodes and another mask writes with its own. -/
theorem test_other_opcodes :
    let b := { Config.build with opcFlashRead := 0x21#8, opcFlashWrite := 0x11#8, flipMask := 0x30#8 }
    (match execFor b (.flashRead 0x0010#16) bench with
      | .next t => some (t.opcode, t.address)
      | .fault _ => none
      | .refused _ => none) = some (⟨0x21#8, true⟩, ⟨0x0010#16, true⟩) ∧
    (match execFor b (.outByte 0xFF) (answers (readings [0xFF]) (writer 4 0x11 0x0101 0)) with
      | .next t => some (sentBits bench t)
      | .fault _ => none
      | .refused _ => none) = some ([0x19, 0x00, 0x80, 0xFF, 0x29, 0x00, 0x80, 0xFF].flatMap bitsOf) := by
  decide +kernel
/-- 64000 + 8000 wraps to 6464, below TIMEOUT 65535: the poll goes on (R173). -/
theorem test_wrapped_verdict :
    (let t := pollVerdict true 9 { writer 250 0x40 0 65535 with elapsed := 64000, res := { bench.res with b3 := ⟨0xFF#8, true⟩ } }
     (t.elapsed, t.seq, t.pollOutcome)) = (6464, .poll 10, .none) := by decide
/-- PO16: SCK_PERIOD = 250 and TIMEOUT = 65535 never time out. -/
theorem test_wrapped_PO16 (v : State) (h1 : v.sckPeriod.value = 250#8) (h2 : v.timeout.value = 65535#16)
    (h3 : v.elapsed = 0) : ∃ init r, Laws.Polled (init ++ [r]) v (pollFrom true 1 v) ∧
      (matchByte v r = false → (pollFrom true 1 v).seq = .poll 2049) := by
  have hi : pollIncrement v = 8000 := by simp [pollIncrement, h1]
  obtain ⟨init, r, hp, _, _, _, hc⟩ := Laws.pollFrom_wrapped 1 v (by omega)
  rw [Laws.pollBudget_advancing (by omega)] at hc
  simp only [hi, h2, h3] at hc
  refine ⟨init, r, hp, fun m => ?_⟩
  rcases hc with ⟨q, _⟩ | ⟨_, e, ⟨_, _, c⟩ | ⟨_, b, _⟩⟩
  · rw [m] at q; cases q
  · simp at c; omega
  · exact b
/-- PO17: SCK_PERIOD = 4 and TIMEOUT = 65408 time out at attempt 511, with ELAPSED 65408. -/
theorem test_wrapped_PO17 (v : State) (h1 : v.sckPeriod.value = 4#8) (h2 : v.timeout.value = 65408#16)
    (h3 : v.elapsed = 0) : ∃ init r, Laws.Polled (init ++ [r]) v (pollFrom true 1 v) ∧
      (matchByte v r = false → init.length + 1 = 511 ∧ (pollFrom true 1 v).elapsed = 65408 ∧
        (pollFrom true 1 v).pollOutcome = .timedOut ∧ (pollFrom true 1 v).seq = .idle) := by
  have hi : pollIncrement v = 128 := by simp [pollIncrement, h1]
  obtain ⟨init, r, hp, _, hj, _, hc⟩ := Laws.pollFrom_wrapped 1 v (by omega)
  rw [Laws.pollBudget_advancing (by omega)] at hc
  simp only [hi, h2, h3] at hc hj
  have h511 : init.length < 511 := by
    by_contra h
    have := hj 511 (by omega) (by omega)
    simp at this
  refine ⟨init, r, hp, fun m => ?_⟩
  rcases hc with ⟨q, _⟩ | ⟨_, e, ⟨a, b, c⟩ | ⟨_, _, c, _⟩⟩
  · rw [m] at q; cases q
  · simp at c
    exact ⟨by omega, by omega, a, b⟩
  · omega
/-- PO19: SCK_PERIOD = 4 and TIMEOUT = 65409 never time out. -/
theorem test_wrapped_PO19 (v : State) (h1 : v.sckPeriod.value = 4#8) (h2 : v.timeout.value = 65409#16)
    (h3 : v.elapsed = 0) : ∃ init r, Laws.Polled (init ++ [r]) v (pollFrom true 1 v) ∧
      (matchByte v r = false → (pollFrom true 1 v).seq = .poll 2049) := by
  have hi : pollIncrement v = 128 := by simp [pollIncrement, h1]
  obtain ⟨init, r, hp, _, _, _, hc⟩ := Laws.pollFrom_wrapped 1 v (by omega)
  rw [Laws.pollBudget_advancing (by omega)] at hc
  simp only [hi, h2, h3] at hc
  refine ⟨init, r, hp, fun m => ?_⟩
  rcases hc with ⟨q, _⟩ | ⟨_, e, ⟨_, _, c⟩ | ⟨_, b, _⟩⟩
  · rw [m] at q; cases q
  · simp at c; omega
  · exact b
theorem witness_test_wrapped :
    (writer 250 0x40 0 65535).sckPeriod.value = 250#8 ∧ (writer 250 0x40 0 65535).timeout.value = 65535#16 ∧
    (writer 4 0x40 0 65408).sckPeriod.value = 4#8 ∧ (writer 4 0x40 0 65408).timeout.value = 65408#16 ∧
    (writer 4 0x40 0 65409).timeout.value = 65409#16 ∧ (writer 4 0x40 0 65408).elapsed = 0 := by decide

/-! Witnesses: for each statement with hypotheses, something that meets them all. -/

theorem witness_EchoReturnsItsPacket : (⟨0xC0, 0, 1, 2, 3, 4, 5, 6⟩ : Packet).b1 = 0#8 := rfl
theorem witness_ReadReturnsOneDrawnByte : (⟨0xC0, 1, 0, 0, 0, 0, 1, 0⟩ : Packet).b1 = 1#8 := rfl
theorem witness_GpioRequestsLeaveTheBlock :
    (⟨0x40, 2, 0xFF, 0, 0, 0, 0, 0⟩ : Packet).b1 = 2#8 ∧ (⟨0x40, 3, 2, 0, 0, 0, 0, 0⟩ : Packet).b1 = 3#8 ∧
    (⟨0x40, 4, 2, 0, 0, 0, 0, 0⟩ : Packet).b1 = 4#8 ∧ (⟨0x40, 13, 0, 0, 0, 0, 0, 0⟩ : Packet).b1 = 13#8 :=
  ⟨rfl, rfl, rfl, rfl⟩
theorem witness_UnknownCodesChangeNothing :
    15 ≤ (⟨0x40, 15, 0, 0, 0, 0, 0, 0⟩ : Packet).b1.toNat ∧ 15 ≤ (⟨0x40, 255, 0, 0, 0, 0, 0, 0⟩ : Packet).b1.toNat := by
  decide
theorem witness_PowerupWritesPeriodAndLines : (⟨0x40, 5, 4, 0, 1, 0, 0, 0⟩ : Packet).b1 = 5#8 := rfl
theorem witness_PowerdownReleasesAndUnmarks : (⟨0x40, 6, 0, 0, 0, 0, 0, 0⟩ : Packet).b1 = 6#8 := rfl
theorem witness_GatedCommandsAreNoOpsUnpowered : powered State.reset = false := by decide
theorem witness_FlashReadSetsAddressAndOpcode :
    (⟨0xC0, 9, 0, 0, 0x10, 0, 0, 0⟩ : Packet).b1 = 9#8 ∧ powered bench = true ∧ powered State.reset = false := by decide
theorem witness_EepromReadSetsAddressAndOpcode :
    (⟨0xC0, 11, 0, 0, 3, 0, 0, 0⟩ : Packet).b1 = 11#8 ∧ powered bench = true ∧ powered State.reset = false := by decide
theorem witness_PollBytesSetsTheSentinels :
    (⟨0x40, 8, 0xFF, 0, 0, 0, 0, 0⟩ : Packet).b1 = 8#8 ∧ powered bench = true ∧ powered State.reset = false := by decide
theorem witness_FlashWriteSetsAddressTimeoutOpcode :
    (⟨0x40, 10, 100, 0, 0, 0, 0, 0⟩ : Packet).b1 = 10#8 ∧ powered bench = true ∧ powered State.reset = false := by decide
theorem witness_EepromWriteSetsAddressTimeoutOpcode :
    (⟨0x40, 12, 200, 0, 5, 0, 0, 0⟩ : Packet).b1 = 12#8 ∧ powered bench = true ∧ powered State.reset = false := by decide
theorem witness_SpiExchangesFourBytes :
    (⟨0xC0, 7, 0xAC, 0x53, 0, 0, 0, 0⟩ : Packet).b1 = 7#8 ∧ powered bench = true ∧ powered State.reset = false ∧
    32 ≤ (answers [0, 0xAC, 0x53, 0] bench).miso.length := by decide
theorem witness_SpiOneExchangesOneByte :
    (⟨0xC0, 14, 0x30, 0, 0, 0, 0, 0⟩ : Packet).b1 = 14#8 ∧ powered bench = true ∧ powered State.reset = false ∧
    8 ≤ (answers [0x1E] bench).miso.length := by decide
theorem witness_OneByteFrameIsEightBitCycles : powered bench = true ∧ powered benchHw = true := by decide
theorem witness_TransfersLeaveClockIdle :
    powered (writer 4 0x40 0 0) = true ∧ (∃ t, exec (.spi 1 2 3 4) (writer 4 0x40 0 0) = .next t) ∧
    (∃ t, exec (.spi1 1) (writer 4 0x40 0 0) = .next t) ∧ (∃ t, exec .inByte (writer 4 0x40 0 0) = .next t) ∧
    (∃ t, exec (.outByte 1) (writer 4 0x40 0 0) = .next t) := ⟨rfl, ⟨_, rfl⟩, ⟨_, rfl⟩, ⟨_, rfl⟩, ⟨_, rfl⟩⟩
theorem witness_InByteReadsThroughOneFrame :
    let s := answers [0, 0, 0, 0x3C] (writer 4 0x20 0xFFFF 0)
    powered s = true ∧ s.address.written = true ∧ s.opcode.written = true ∧ 32 ≤ s.miso.length := by decide
theorem witness_InByteReadsThroughOneFrame_payload :
    powered hung = true ∧ hung.address.written = true ∧ hung.opcode.written = true ∧ hung.cmd.b3.written = true := by
  decide
theorem witness_InByteFaultsOnUnwritten :
    powered bench = true ∧ bench.address.written = false ∧
    (let s := { bench with address := ⟨0#16, true⟩ }
     powered s = true ∧ s.address.written = true ∧ s.opcode.written = false) := by decide
theorem witness_OutByteFaultsOnFirstUnwritten :
    let w := writer 4 0x40 0 0
    powered bench = true ∧ bench.address.written = false ∧
    ({ w with opcode := ⟨0#8, false⟩ } : State).opcode.written = false ∧
    ({ w with timeout := ⟨0#16, false⟩ } : State).timeout.written = false ∧
    ({ w with poll1 := ⟨0#8, false⟩ } : State).poll1.written = false ∧
    ({ w with poll2 := ⟨0#8, false⟩ } : State).poll2.written = false ∧
    w.address.written = true ∧ w.opcode.written = true ∧ w.timeout.written = true ∧ w.poll1.written = true := by decide
theorem witness_OutByteWritesThenPolls :
    powered (writer 1 0x40 0 100) = true ∧ writeReady (writer 1 0x40 0 100) = true := by decide
theorem witness_OutByteWritesThenPolls_fixed :
    let s := answers (readings [0xAB]) (writer 4 0x40 0 100)
    powered s = true ∧ writeReady s = true ∧ 32 * (1 + 1) ≤ s.miso.length := by decide
theorem witness_PollAttemptsAreBounded :
    powered (writer 1 0x40 0 97) = true ∧ writeReady (writer 1 0x40 0 97) = true ∧
    powered (writer 0 0x40 0 0) = true ∧ writeReady (writer 0 0x40 0 0) = true ∧
    hung.seq = .poll 2 ∧ hung.sckPeriod.value.toNat = 0 ∧ hung.elapsed < hung.timeout.value.toNat := by decide
theorem witness_FirstMatchEndsThePollAtOnce :
    let s := answers (readings [0xAB]) (writer 4 0x40 0 100)
    powered s = true ∧ writeReady s = true ∧ 64 ≤ s.miso.length ∧
    (byteOf ((s.miso.drop 56).take 8) = 0xAB#8 ∧ byteOf ((s.miso.drop 56).take 8) ≠ s.poll1.value ∧
      byteOf ((s.miso.drop 56).take 8) ≠ s.poll2.value) := by decide
theorem witness_ZeroTimeoutMakesOneAttempt :
    let s := writer 4 0x40 0 0
    powered s = true ∧ writeReady s = true ∧ s.timeout.value = 0#16 := by decide
theorem witness_SentinelBytesNeverConfirm :
    let s := writer 2 0x40 0 200
    powered s = true ∧ writeReady s = true ∧ (0xFF#8 = s.poll1.value ∨ 0xFF#8 = s.poll2.value) ∧
    0 < s.sckPeriod.value.toNat ∧ (writer 0 0x40 0 1).sckPeriod.value.toNat = 0 ∧
    0 < (writer 0 0x40 0 1).timeout.value.toNat := by decide
theorem witness_OutByteTimeBounds :
    let s := writer 1 0x40 0 1
    powered s = true ∧ writeReady s = true ∧ 0 < s.sckPeriod.value.toNat ∧ 0 < s.timeout.value.toNat := by decide
theorem witness_FramesTakeTheirNominalTime :
    powered (writer 1 0x40 0 0) = true ∧ 0 < (writer 1 0x40 0 0).sckPeriod.value.toNat ∧
    (∃ t, exec (.spi1 1) (writer 1 0x40 0 0) = .next t) ∧ (∃ t, exec (.spi 1 2 3 4) (writer 1 0x40 0 0) = .next t) ∧
    (∃ t, exec .inByte (writer 1 0x40 0 0) = .next t) := ⟨rfl, by decide, ⟨_, rfl⟩, ⟨_, rfl⟩, ⟨_, rfl⟩⟩
theorem witness_PollVerdictFollowsComparatorThenTimer :
    let s := { writer 1 0x40 0 33 with cmd := { bench.cmd with b3 := ⟨0xAB#8, true⟩ },
                                       res := { bench.res with b3 := ⟨0xAB#8, true⟩ } }
    (s.res.b3.value = s.cmd.b3.value ∧ s.res.b3.value ≠ s.poll1.value ∧ s.res.b3.value ≠ s.poll2.value) ∧
    bench.res.b3.value = bench.poll1.value ∧
    s.elapsed + 32 * s.sckPeriod.value.toNat < s.timeout.value.toNat ∧
    (writer 1 0x40 0 32).timeout.value.toNat ≤ s.elapsed + 32 * s.sckPeriod.value.toNat ∧
    (let u := { writer 250 0x40 0 65535 with elapsed := 64000 }
     (u.elapsed + 32 * u.sckPeriod.value.toNat) % 65536 < u.timeout.value.toNat ∧
     u.timeout.value.toNat ≤ u.elapsed + 32 * u.sckPeriod.value.toNat) := by decide
theorem witness_StrobeUsesTheLastSetup :
    let s := writer 4 0x40 0 0
    powered s = true ∧ s.timeout.written = true ∧ s.poll1.written = true ∧ s.poll2.written = true := by decide
theorem witness_OnlyPowerCommandsMoveThePowerState :
    (∃ t, exec .powerdown bench = .next t) ∧ (∃ t, exec (.powerup 4 1) State.reset = .next t) ∧
    (∃ t, exec .read bench = .next t) := ⟨⟨_, rfl⟩, ⟨_, rfl⟩, ⟨_, rfl⟩⟩
theorem witness_UnpoweredCommandsAreQuiet :
    powered State.reset = false ∧ State.reset.lineOL = 0b0000#4 ∧ (∀ sck rst, Instr.inByte ≠ .powerup sck rst) ∧
    Instr.inByte ≠ .reserved := ⟨rfl, rfl, fun _ _ h => Instr.noConfusion h, fun h => Instr.noConfusion h⟩
/-- POWERDOWN, SPI and IN of program P4, from reset. -/
theorem witness_IdleSafetyOverRuns :
    let cs := [encode .powerdown, encode (.spi 0xAC 0x53 0 0), encode .inByte]
    let s := { State.reset with pending := cs }
    powered s = false ∧ s.lineOL = 0b0000#4 ∧ s.seq = .idle ∧ s.pending = cs ∧
    (∀ c ∈ cs, decode c ≠ .reserved ∧ ∀ sck rst, decode c ≠ .powerup sck rst) := by
  refine ⟨rfl, rfl, rfl, rfl, fun c hc => ?_⟩
  have h1 : decode (encode .powerdown) = .powerdown := by decide
  have h2 : decode (encode (.spi 0xAC 0x53 0 0)) = .spi 0xAC 0x53 0 0 := by decide
  have h3 : decode (encode .inByte) = .inByte := by decide
  simp only [List.mem_cons, List.not_mem_nil, or_false] at hc
  rcases hc with rfl | rfl | rfl
  · rw [h1]; exact ⟨nofun, nofun⟩
  · rw [h2]; exact ⟨nofun, nofun⟩
  · rw [h3]; exact ⟨nofun, nofun⟩

theorem witness_AddressMovesOnlyBySetupAndStrobe :
    (∃ t, exec (.flashRead 7) bench = .next t) ∧ (∃ t, exec (.flashRead 7) State.reset = .next t) ∧
    (∃ t, exec .inByte (writer 4 0x20 0xFFFF 0) = .next t) ∧ (∃ t, exec (.outByte 1) (writer 4 0x40 0xFFFF 0) = .next t) ∧
    (∃ t, exec .powerdown bench = .next t) := ⟨⟨_, rfl⟩, ⟨_, rfl⟩, ⟨_, rfl⟩, ⟨_, rfl⟩, ⟨_, rfl⟩⟩
theorem witness_StrobesWalkTheAddressCounter :
    let cs := [encode .inByte, encode (.outByte 0x5A)]
    let s := { writer 4 0x40 0xFFFF 0 with pending := cs ++ [encode .powerdown] }
    (∀ c ∈ cs, c.kind = 1#2 ∨ c.kind = 2#2) ∧ s.seq = .idle ∧ powered s = true ∧ s.address.written = true ∧
    s.opcode.written = true ∧ (∃ c ∈ cs, c.kind = 2#2) ∧ writeReady s = true ∧ 0 < s.sckPeriod.value.toNat ∧
    s.pending = cs ++ [encode .powerdown] ∧ 2 ≤ cs.length := by decide
/-- The INs of program P1, with POLL1, POLL2 and TIMEOUT unwritten, and SCK_PERIOD = 0 besides. -/
theorem witness_StrobesWalkTheAddressCounter_reads :
    let cs := [encode .inByte, encode .inByte]
    let s := { bench with sckPeriod := ⟨0#8, true⟩, address := ⟨0x10#16, true⟩, opcode := ⟨0x20#8, true⟩, pending := cs }
    (∀ c ∈ cs, c.kind = 1#2 ∨ c.kind = 2#2) ∧ s.seq = .idle ∧ powered s = true ∧ s.address.written = true ∧
    s.opcode.written = true ∧ (¬ ∃ c ∈ cs, c.kind = 2#2) ∧ writeReady s = false ∧ s.pending = cs ++ [] := by decide
/-- An OUT_BYTE with SCK_PERIOD = 0 and TIMEOUT = 0. -/
theorem witness_StrobesWalkTheAddressCounter_zero :
    let s := { writer 0 0x40 0 0 with pending := [encode (.outByte 0x5A)] }
    (∃ c ∈ [encode (.outByte 0x5A)], c.kind = 2#2) ∧ writeReady s = true ∧ s.timeout.value = 0#16 ∧
    s.pending = [encode (.outByte 0x5A)] ++ [] := by decide
/-- TIMEOUT at the bound 65536 - g and one above it (PO17, PO19), and a poll that goes on. -/
theorem witness_WrappedPollEndsOrGoesOn :
    let s := writer 4 0x40 0 65408
    let u := writer 4 0x40 0 65409
    powered s = true ∧ writeReady s = true ∧ 0 < s.sckPeriod.value.toNat ∧
    s.timeout.value.toNat ≤ 65536 - Nat.gcd (32 * s.sckPeriod.value.toNat) 65536 ∧
    writeReady u = true ∧ 65536 - Nat.gcd (32 * u.sckPeriod.value.toNat) 65536 < u.timeout.value.toNat ∧
    ({ u with seq := .poll 2049 } : State).seq = .poll 2049 ∧
    u.elapsed = 2048 * (32 * u.sckPeriod.value.toNat) % 65536 ∧
    ({ Config.build with wrap16 := true } : Build).wrap16 = true := by decide
/-- SCK_PERIOD = 0: TIMEOUT at the bound 0 and one above it, and a poll that goes on (PO10, PO11). -/
theorem witness_WrappedPollEndsOrGoesOn_zero :
    let s := writer 0 0x40 0 0
    let u := writer 0 0x40 0 1
    powered s = true ∧ writeReady s = true ∧ s.timeout.value.toNat ≤ 65536 - Nat.gcd (32 * s.sckPeriod.value.toNat) 65536 ∧
    writeReady u = true ∧ 65536 - Nat.gcd (32 * u.sckPeriod.value.toNat) 65536 < u.timeout.value.toNat ∧
    hung.seq = .poll 2 ∧ hung.elapsed = 1 * (32 * hung.sckPeriod.value.toNat) % 65536 ∧
    65536 - Nat.gcd (32 * hung.sckPeriod.value.toNat) 65536 < hung.timeout.value.toNat := by decide
theorem witness_WrappedSentinelPollsHang :
    let s := writer 4 0x40 0 65408
    let u := writer 4 0x40 0 65409
    powered s = true ∧ writeReady s = true ∧ 0 < s.sckPeriod.value.toNat ∧ 0xFF#8 = s.poll1.value ∧
    s.timeout.value.toNat ≤ 65536 - Nat.gcd (32 * s.sckPeriod.value.toNat) 65536 ∧
    powered u = true ∧ writeReady u = true ∧ 0xFF#8 = u.poll1.value ∧
    65536 - Nat.gcd (32 * u.sckPeriod.value.toNat) 65536 < u.timeout.value.toNat ∧
    ({ Config.build with wrap16 := true } : Build).wrap16 = true := by decide
theorem witness_WrappedSentinelPollsHang_zero :
    let s := writer 0 0x40 0 0
    let u := writer 0 0x40 0 1
    powered s = true ∧ writeReady s = true ∧ 0xFF#8 = s.poll1.value ∧
    s.timeout.value.toNat ≤ 65536 - Nat.gcd (32 * s.sckPeriod.value.toNat) 65536 ∧
    powered u = true ∧ writeReady u = true ∧ 0xFF#8 = u.poll1.value ∧
    65536 - Nat.gcd (32 * u.sckPeriod.value.toNat) 65536 < u.timeout.value.toNat := by decide
theorem witness_StrobesFollowTheBuildsWidth :
    Instr.read ≠ .inByte ∧ (∀ d, Instr.read ≠ .outByte d) ∧ (∀ a, Instr.read ≠ .flashRead a) ∧
    (∀ a, Instr.read ≠ .eepromRead a) ∧ (∀ a t, Instr.read ≠ .flashWrite a t) ∧ (∀ a t, Instr.read ≠ .eepromWrite a t) ∧
    powered (writer 4 0xA0 0xFFFF 0) = true ∧
    (writer 4 0xA0 0xFFFF 0).address.written = true ∧ (writer 4 0xA0 0xFFFF 0).opcode.written = true ∧
    writeReady (writer 4 0xA0 0xFFFF 0) = true :=
  ⟨nofun, nofun, nofun, nofun, nofun, nofun, by decide, by decide, by decide, by decide⟩
theorem witness_FrameCarriesTheEffectiveAddress :
    (0xA0#8).getLsbD 3 = false ∧ (0xA0#8).getLsbD 7 = true ∧ (0x20#8).getLsbD 3 = false ∧ (0x20#8).getLsbD 7 = false := by
  decide
/-- EN10 to EN13: the lost top bit at width 16, kept at width 17. -/
theorem test_eeprom_widths :
    effectiveAddress .w16 0xA0 0x8000 = 0 ∧ effectiveAddress .w17 0xA0 0x8000 = 0x10000 ∧
    effectiveAddress .w16 0xA0 0xFFFF = 0xFFFE ∧ effectiveAddress .w17 0xA0 0xFFFF = 0x1FFFE ∧
    frameByte1 0x1FFFE = 0xFF#8 ∧ frameByte2 0x1FFFE = 0xFF#8 := by decide
theorem witness_EepromAddressIsTwiceTheFlashAddress : (0xA0#8).getLsbD 7 = true ∧ (0x20#8).getLsbD 7 = false := by decide
theorem witness_OnlyTwoFaultsExist :
    exec .reserved bench = .fault .reservedCommand ∧ exec .inByte bench = .fault (.unwrittenRead .address) ∧
    exec (.outByte 1) bench = .fault (.unwrittenRead .address) := ⟨rfl, rfl, rfl⟩
theorem witness_RepliesAreLegalDataPhases :
    (∃ t, exec .read bench = .next t) ∧ legalReply (.setup (.immediate [1, 2, 3, 4])) ∧ 3 < [1, 2, 3, 4].length :=
  ⟨⟨_, rfl⟩, .inr (.inl rfl), by decide⟩
theorem witness_IgnoredFieldsDoNotMatter :
    let p : Packet := ⟨0x40, 5, 4, 0, 1, 0, 0, 0⟩
    let q : Packet := ⟨0xC0, 5, 4, 0xFF, 1, 0xFF, 0xFF, 0xFF⟩
    q.b1 = p.b1 ∧ p.b1 ≠ 0#8 ∧ p.b1 = 5#8 ∧ q.b2 = p.b2 ∧ q.b4 = p.b4 ∧
    (⟨0, 8, 1, 2, 9, 9, 9, 9⟩ : Packet).b1 = 8#8 ∧ (⟨0, 9, 9, 9, 1, 2, 9, 9⟩ : Packet).b1 = 9#8 ∧
    (⟨0, 11, 9, 9, 1, 2, 9, 9⟩ : Packet).b1 = 11#8 ∧ (⟨0, 14, 1, 9, 9, 9, 9, 9⟩ : Packet).b1 = 14#8 ∧
    (⟨0, 0, 1, 2, 3, 4, 5, 6⟩ : Packet).b1 = 0#8 := by decide
theorem witness_DecodeInvertsEncode :
    (Instr.echo ⟨0xC0, 0, 1, 2, 3, 4, 5, 6⟩).wellFormed = true ∧ (Instr.unknown80 0x7F#7).wellFormed = true := by decide
theorem witness_StepRunsTheDecodedCommand :
    let s := { bench with pending := [encode (.flashRead 7), encode .inByte] }
    s.seq = .idle ∧ s.pending = encode (.flashRead 7) :: [encode .inByte] := by decide
theorem witness_BusyEngineAcceptsNothing :
    State.reset.seq = .idle ∧ State.reset.pending = [] ∧ hung.seq = .poll 2 := by decide

theorem witness_PollStepsResendTheReadFrame :
    let s := answers [0, 0, 0, 0x3C] hung
    s.seq = .poll 2 ∧ s.sckPeriod.value = 0#8 ∧ 32 * (0 + 1) ≤ s.miso.length ∧
    ({ writer 4 0x40 0 65409 with seq := .poll 2049 } : State).seq = .poll 2049 := by decide
theorem witness_FramesAreBitCyclesInOrder :
    let s := writer 4 0x40 0 100
    powered s = true ∧ s.address.written = true ∧ s.opcode.written = true ∧ writeReady s = true ∧
    hung.cmd.b3.written = true ∧ hung.seq = .poll 2 := by decide
/-- Codes at both ends of each range, SPI1_CODE at its default and at a value above 14. -/
theorem witness_SetupsAndDecoderFollowTheBuild :
    let b : Build := { Config.build with spi1Code := 0xFF#8 }
    powered bench = true ∧ powered State.reset = false ∧ (0#8).toNat ≤ 13 ∧ (13#8).toNat ≤ 13 ∧
    14 ≤ (14#8).toNat ∧ 14#8 = Config.build.spi1Code ∧ 14 ≤ (0xFF#8).toNat ∧ 0xFF#8 = b.spi1Code ∧ 14#8 ≠ b.spi1Code ∧
    (encode .inByte).kind ≠ 0#2 ∧
    (let s := { bench with pending := [encode .inByte] }
     s.seq = .idle ∧ s.pending = encode .inByte :: []) := by decide

/-- A build whose SPI1_CODE is a code R84 gives another command, which keeps it (log entry 10). -/
theorem witness_SetupsAndDecoderFollowTheBuild_shared :
    let b : Build := { Config.build with spi1Code := 7#8 }
    let p : Packet := ⟨0xC0, 7, 0xAC, 0x53, 0, 0, 0, 0⟩
    p.b1 = b.spi1Code ∧ p.b1.toNat ≤ 13 ∧ 14 ≤ (14#8).toNat ∧ 14#8 ≠ b.spi1Code ∧
    decodeWith b.spi1Code ⟨0#2, p, 0⟩ = .spi 0xAC#8 0x53#8 0#8 0#8 := by decide

/-- The invariant's strategy is the build's, whichever it is. -/
theorem strategyOf_initial (st : Strategy) : strategyOf (Shifter.initial st) = st := by cases st <;> rfl

/-- The invariant holds of a machine ready to write, with the opcode of FLASH_WRITE. -/
theorem witness_Inv_ready : Inv (asBuilt (writer 4 0x40 0 100)) where
  lines := .inr ⟨rfl, rfl, rfl⟩
  seq := trivial
  unpowered := fun h => nomatch h
  powered := fun _ => rfl
  opcode := fun _ => .inr (.inr (.inl rfl))
  reply := trivial
  strategy := strategyOf_initial _

/-- And of a machine whose poll hangs. -/
theorem witness_Inv_hung : Inv (asBuilt hung) where
  lines := .inr ⟨rfl, rfl, rfl⟩
  seq := by refine ⟨by decide, by decide, by decide, by decide, by decide, by decide, by decide⟩
  unpowered := fun h => nomatch h
  powered := fun _ => rfl
  opcode := fun _ => .inr (.inr (.inl rfl))
  reply := trivial
  strategy := strategyOf_initial _

theorem witness_EveryStepKeepsTheInvariant :
    Inv (asBuilt hung) ∧ (∃ t, step (asBuilt hung) = .next t) ∧ Inv (asBuilt (writer 4 0x40 0 100)) ∧
    (∃ t, step (asBuilt (writer 4 0x40 0 100)) = .next t) :=
  ⟨witness_Inv_hung, ⟨_, rfl⟩, witness_Inv_ready, ⟨_, rfl⟩⟩

theorem witness_InvariantStepsAreNeverRefused : Inv (asBuilt hung) ∧ Inv (asBuilt (writer 4 0x40 0 100)) :=
  ⟨witness_Inv_hung, witness_Inv_ready⟩

end Sys2Proof.Tests
end

section
/-! SUPPORT. The decoder and the setup commands of any build, and O60. -/
namespace Sys2Proof.Proofs

open Sys2Proof.Machine Sys2Proof.Safety Sys2Proof.Laws

/-! The request codes (R84, R85, R108). -/

/-- Codes 0 to 13 decode without a look at `SPI1_CODE` (R84; log entry 10). -/
theorem decodeCode_of_le {code : Byte} (h : code.toNat ≤ 13) (spi spi' : Byte) (p : Packet) :
    decodeCode spi code p = decodeCode spi' code p := by
  obtain ⟨n, hn, rfl⟩ : ∃ n ≤ 13, code = BitVec.ofNat 8 n := ⟨code.toNat, h, by simp⟩
  interval_cases n <;> rfl

/-- The row of a code no command has (R85, R108). -/
def unknownOf (code : Byte) : Instr :=
  if code.toNat < 16 then .unknown0F
  else if code.toNat < 32 then .unknown10 (code.extractLsb' 0 4)
  else if code.toNat < 64 then .unknown20 (code.extractLsb' 0 5)
  else if code.toNat < 128 then .unknown40 (code.extractLsb' 0 6)
  else .unknown80 (code.extractLsb' 0 7)

/-- A code from 14 up is SPI1's or no command's (R84, R108). -/
theorem decodeCode_of_ge {code : Byte} (h : 14 ≤ code.toNat) (spi : Byte) (p : Packet) :
    decodeCode spi code p = if code = spi then .spi1 p.b2 else unknownOf code := by
  have hne : ∀ k : Byte, k.toNat ≤ 13 → code ≠ k := by
    rintro k hk rfl
    omega
  simp (disch := decide) only [decodeCode, unknownOf, hne, if_false]

/-- On any build a code no command has is acknowledged and does nothing else (R108). -/
theorem execFor_unknownOf (b : Build) (code : Byte) (s : State) : execFor b (unknownOf code) s = ignored s := by
  unfold unknownOf
  split_ifs <;> rfl

theorem decodeWith_setup (spi : Byte) (p : Packet) (d : Byte) :
    decodeWith spi ⟨0#2, p, d⟩ = decodeCode spi p.b1 p := rfl

/-- The strobes and the reserved kind decode without a look at `SPI1_CODE` (R83). -/
theorem decodeWith_of_kind_ne {c : PortCommand} (h : c.kind ≠ 0#2) (spi spi' : Byte) :
    decodeWith spi c = decodeWith spi' c := by
  simp [decodeWith, h]

/-! The setups that load OPCODE (R145, R146, R161, R162). -/

theorem readSetup_powered {s : State} (h : powered s = true) (op : Byte) (addr : Half) :
    readSetup op addr s = .next { s with
      address := ⟨addr, true⟩, opcode := ⟨op, true⟩, reply := .setup .streamed, fresh := s.fresh + 1 } :=
  gatedSetup_powered h

theorem writeSetup_powered {s : State} (h : powered s = true) (op : Byte) (addr timeout : Half) :
    writeSetup op addr timeout s = .next { s with
      address := ⟨addr, true⟩, timeout := ⟨timeout, true⟩, opcode := ⟨op, true⟩,
      reply := .setup .none, fresh := s.fresh + 1 } :=
  gatedSetup_powered h

theorem readSetup_unpowered {s : State} (h : powered s = false) (op : Byte) (addr : Half) :
    readSetup op addr s = .next (respond .none s) := gatedSetup_unpowered h

theorem writeSetup_unpowered {s : State} (h : powered s = false) (op : Byte) (addr timeout : Half) :
    writeSetup op addr timeout s = .next (respond .none s) := gatedSetup_unpowered h

/-- A step of an idle engine runs the next command, as the decoder gives it (R100, R110). -/
theorem stepWith_idle {s : State} {c : PortCommand} {rest : List PortCommand} (hq : s.seq = .idle)
    (hc : s.pending = c :: rest) (read : PortCommand → Instr) (run : Instr → State → Result)
    (goOn : Nat → State → State) : stepWith read run goOn s = run (read c) { s with pending := rest } := by
  simp [stepWith, takeCommand, hq, hc]

/-- Settles O60: the setups by the gate, the decoder by the request code, the step by the command taken. -/
theorem setupsAndDecoderFollowTheBuild : Obligations.SetupsAndDecoderFollowTheBuild := by
  intro b
  refine ⟨fun addr timeout s hp => ?_, ?_, fun p d => ⟨?_, ?_, ?_⟩, fun c hk => ?_, fun s c rest hq hc => ?_⟩
  · exact ⟨readSetup_powered hp .., readSetup_powered hp .., writeSetup_powered hp .., writeSetup_powered hp ..⟩
  · rintro i s hp (⟨a, rfl⟩ | ⟨a, rfl⟩ | ⟨a, t, rfl⟩ | ⟨a, t, rfl⟩)
    · exact readSetup_unpowered hp ..
    · exact readSetup_unpowered hp ..
    · exact writeSetup_unpowered hp ..
    · exact writeSetup_unpowered hp ..
  · intro hle
    exact decodeCode_of_le hle ..
  · intro hge heq
    rw [decodeWith_setup, decodeCode_of_ge hge, if_pos heq]
  · intro hge hne s
    rw [decodeWith_setup, decodeCode_of_ge hge, if_neg hne, execFor_unknownOf]
    rfl
  · exact decodeWith_of_kind_ne hk ..
  · exact stepWith_idle hq hc ..

end Sys2Proof.Proofs
end

section
/-! SUPPORT. The invariant of a run, one lemma for what each command may do to it, and O56. -/
namespace Sys2Proof.Proofs

open Sys2Proof.Machine Sys2Proof.Safety Sys2Proof.Laws

theorem readReg_eq_next {w : Nat} {name : RegName} {r : Reg w} {cont : BitVec w → Result} {t : State} :
    readReg name r cont = .next t ↔ r.written = true ∧ cont r.value = .next t := by
  cases h : r.written with
  | true => simp [readReg_written h]
  | false => simp [readReg_unwritten h]

theorem seqRest_of_idle {s : State} (h : s.seq = .idle) : SeqRest s := by
  simp [SeqRest, h]

/-! What a command may change without a look at the power state. -/

/-- The queue, the free values' index and the pins outside are no part of the invariant. -/
theorem inv_of_onlyInputs {s t : State} (h : Safety.Inv s)
    (ht : t = { s with pending := t.pending, fresh := t.fresh, outside := t.outside }) : Safety.Inv t := by
  rw [ht]
  exact ⟨h.lines, h.seq, h.unpowered, h.powered, h.opcode, h.reply, h.strategy⟩

theorem inv_answer {r : Reply} {s : State} (h : Safety.Inv s) (hr : legalReply r) : Safety.Inv (answer r s) :=
  ⟨h.lines, h.seq, h.unpowered, h.powered, h.opcode, hr, h.strategy⟩

theorem inv_respond {p : DataPhase} {s : State} (h : Safety.Inv s) (hp : legalReply (.setup p)) :
    Safety.Inv (respond p s) :=
  inv_answer h hp

/-! What a command may change while powered. -/

/-- What a command of a powered machine may do to the fields the invariant speaks of, SEQ and the answer apart: the
lines stay driven with IND as it was and an idle SCK idle, OPCODE stays or becomes a legal one, the strategy stays. -/
structure PoweredMove (s t : State) : Prop where
  lineOE : t.lineOE = s.lineOE
  ind : lineAt t.lineOL .ind = lineAt s.lineOL .ind
  sck : lineAt s.lineOL .sck = false → lineAt t.lineOL .sck = false
  sckPeriod : t.sckPeriod = s.sckPeriod
  opcode : t.opcode = s.opcode ∨ legalOpcode t.opcode.value
  strategy : strategyOf t.shifter = strategyOf s.shifter

/-- Writes of the other registers and of the frame buffers are powered moves. -/
theorem PoweredMove.of_eq {s t : State} (hoe : t.lineOE = s.lineOE) (hol : t.lineOL = s.lineOL)
    (hsck : t.sckPeriod = s.sckPeriod) (hop : t.opcode = s.opcode) (hst : t.shifter = s.shifter) : PoweredMove s t :=
  ⟨hoe, by rw [hol], fun h => by rw [hol, h], hsck, .inl hop, by rw [hst]⟩

theorem PoweredMove.refl (s : State) : PoweredMove s s := .of_eq rfl rfl rfl rfl rfl

theorem PoweredMove.trans {s t u : State} (h1 : PoweredMove s t) (h2 : PoweredMove t u) : PoweredMove s u where
  lineOE := h2.lineOE.trans h1.lineOE
  ind := h2.ind.trans h1.ind
  sck := h2.sck ∘ h1.sck
  sckPeriod := h2.sckPeriod.trans h1.sckPeriod
  opcode := by
    rcases h2.opcode with h | h
    · rw [h]; exact h1.opcode
    · exact .inr h
  strategy := h2.strategy.trans h1.strategy

/-- Of a powered machine the invariant's lines are the driven ones (R182). -/
theorem linesDriven {s : State} (h : Safety.Inv s) (hp : powered s = true) :
    s.lineOE = 0b1111#4 ∧ lineAt s.lineOL .ind = true ∧ lineAt s.lineOL .sck = false := by
  rcases h.lines with ⟨h0, _⟩ | h1
  · simp [powered, h0] at hp
  · exact h1

/-- A powered move keeps the invariant where SEQ and the answer are right again. -/
theorem inv_of_poweredMove {s t : State} (h : Safety.Inv s) (hp : powered s = true) (hm : PoweredMove s t)
    (hq : SeqRest t) (hr : legalReply t.reply) : Safety.Inv t where
  lines := by
    obtain ⟨hoe, hind, hsck⟩ := linesDriven h hp
    exact .inr ⟨hm.lineOE.trans hoe, hm.ind.trans hind, hm.sck hsck⟩
  seq := hq
  unpowered := fun hn => by simp [powered_congr hm.lineOE, hp] at hn
  powered := fun _ => by rw [hm.sckPeriod]; exact h.powered hp
  opcode := fun hw => by
    rcases hm.opcode with ho | ho
    · rw [ho] at hw ⊢; exact h.opcode hw
    · exact ho
  reply := hr
  strategy := hm.strategy.trans h.strategy

/-- A TRANSFER is a powered move that leaves SEQ and the answer (R120, R127). -/
theorem poweredMove_of_sent {out inn : List Byte} {s t : State} (h : Sent out inn s t) (hne : out ≠ []) :
    PoweredMove s t ∧ t.seq = s.seq ∧ t.reply = s.reply := by
  have ho := h.only
  unfold OnlyWires at ho
  refine ⟨⟨?_, h.ind, fun _ => h.sck hne, ?_, .inl ?_, h.strategy⟩, ?_, ?_⟩ <;> rw [ho]

/-- So are the read attempts of a poll, but for SEQ (R167). -/
theorem poweredMove_of_polled {rs : List Byte} {s t : State} (h : Polled rs s t) : PoweredMove s t where
  lineOE := by rw [h.only]
  ind := h.ind
  sck := fun hs => by rw [h.sck, hs, Bool.and_false]
  sckPeriod := by rw [h.only]
  opcode := .inl (by rw [h.only])
  strategy := h.strategy

/-! The poller (R167, R168). -/

/-- A poll that goes on: powered, its registers written, its timer at 0. -/
structure PollReady (s : State) : Prop where
  powered : powered s = true
  ready : writeReady s = true
  payload : s.cmd.b3.written = true
  elapsed : s.elapsed = 0

/-- Where a poll goes on after a step of it the timer cannot advance, so it stands still at 0 (R168; log entry 13). -/
theorem seqRest_pollFrom {k : Nat} {s : State} (h : PollReady s) (hk : 1 ≤ k) : SeqRest (pollFrom false k s) := by
  rcases Nat.eq_zero_or_pos (pollIncrement s) with hinc | hinc
  · obtain ⟨r, t, ht, hpolled, hcase⟩ := pollAttempt_polled false k s
    rw [pollFrom_stalled false k s hinc, ← ht]
    rcases hcase with ⟨_, _, hq, _⟩ | ⟨_, he, ⟨hlt, hq, _⟩ | ⟨_, hq, _⟩⟩
    · exact seqRest_of_idle hq
    · have hsck : s.sckPeriod.value = 0#8 := by
        unfold pollIncrement at hinc
        apply BitVec.eq_of_toNat_eq
        simpa using hinc
      have hel : t.elapsed = 0 := by rw [he, hinc, h.elapsed]; rfl
      rw [hel] at hlt
      have ho := hpolled.only
      unfold OnlyPolls OnlyPollStep at ho
      unfold SeqRest
      rw [hq]
      refine ⟨by omega, ?_, ?_, ?_, ?_, hel, ?_⟩ <;> rw [ho]
      exacts [h.powered, h.ready, h.payload, hsck, hlt]
    · exact seqRest_of_idle hq
  · obtain ⟨_, _, _, _, _, hq, _⟩ := pollFrom_ends k s hinc
    exact seqRest_of_idle hq

/-- From a state a powered move has led to, a poll keeps the invariant, whether it ends in its step or not. -/
theorem inv_pollFrom {s v : State} {k : Nat} (h : Safety.Inv s) (hm : PoweredMove s v) (hv : PollReady v)
    (hk : 1 ≤ k) (hr : legalReply v.reply) : Safety.Inv (pollFrom false k v) := by
  obtain ⟨rs, _, hpolled⟩ := pollFrom_polled false k v
  have hp : powered s = true := (powered_congr hm.lineOE).symm.trans hv.powered
  refine inv_of_poweredMove h hp (hm.trans (poweredMove_of_polled hpolled)) (seqRest_pollFrom hv hk) ?_
  rw [hpolled.only]
  exact hr

theorem pollReady_of_seq {s : State} {k : Nat} (h : Safety.Inv s) (hq : s.seq = .poll k) : PollReady s ∧ 1 ≤ k := by
  have hrest := h.seq
  unfold SeqRest at hrest
  rw [hq] at hrest
  obtain ⟨hk, hp, hw, hb, _, he, _⟩ := hrest
  exact ⟨⟨hp, hw, hb, he⟩, by omega⟩

/-! The commands. -/

/-- A command run from IDLE keeps the invariant when it completes. -/
def KeepsInv (run : State → Result) : Prop :=
  ∀ s t, Safety.Inv s → s.seq = .idle → run s = .next t → Safety.Inv t

theorem keepsInv_next {f : State → State} (h : ∀ s, Safety.Inv s → s.seq = .idle → Safety.Inv (f s)) :
    KeepsInv (fun s => .next (f s)) := by
  rintro s t hs hq ⟨⟩
  exact h s hs hq

theorem keepsInv_gatedSetup {body : State → State}
    (h : ∀ s, Safety.Inv s → s.seq = .idle → powered s = true → Safety.Inv (body s)) :
    KeepsInv (gatedSetup body) := by
  intro s t hs hq hrun
  cases hp : powered s with
  | true =>
    rw [gatedSetup_powered hp] at hrun
    cases hrun
    exact h s hs hq hp
  | false =>
    rw [gatedSetup_unpowered hp] at hrun
    cases hrun
    exact inv_respond hs trivial

theorem keepsInv_execEcho (data : Packet) : KeepsInv (execEcho data) :=
  keepsInv_next fun _ hs _ => inv_respond hs (.inr (.inr rfl))

theorem keepsInv_execRead : KeepsInv execRead :=
  keepsInv_next fun _ hs _ => inv_respond (inv_of_onlyInputs hs rfl) (.inl rfl)

theorem keepsInv_outsideRequest (r : GpioRequest) : KeepsInv (outsideRequest r) :=
  keepsInv_next fun _ hs _ => inv_respond (inv_of_onlyInputs hs rfl) trivial

theorem keepsInv_ignored : KeepsInv ignored := keepsInv_next fun _ hs _ => inv_respond hs trivial

theorem keepsInv_execReserved : KeepsInv execReserved := by
  rintro s t _ _ ⟨⟩

theorem lineAt_powerupLevels (flag : Bool) :
    lineAt (powerupLevels flag) .ind = true ∧ lineAt (powerupLevels flag) .sck = false := by
  cases flag <;> decide

theorem keepsInv_execPowerup (sck rst : Byte) : KeepsInv (execPowerup sck rst) :=
  keepsInv_next fun _ hs hq => {
    lines := .inr ⟨rfl, lineAt_powerupLevels _⟩
    seq := seqRest_of_idle hq
    unpowered := nofun
    powered := fun _ => rfl
    opcode := hs.opcode
    reply := trivial
    strategy := hs.strategy }

theorem releaseLines_released (s : State) : (releaseLines s).lineOE = 0#4 ∧ (releaseLines s).lineOL = 0#4 ∧
    (releaseLines s).seq = s.seq ∧ (releaseLines s).shifter = s.shifter := by
  unfold releaseLines
  split <;> exact ⟨rfl, rfl, rfl, rfl⟩

theorem keepsInv_execPowerdown : KeepsInv execPowerdown :=
  keepsInv_next fun s hs hq =>
    have ⟨hoe, hol, hseq, hshift⟩ := releaseLines_released s
    { lines := .inl ⟨hoe, hol⟩
      seq := seqRest_of_idle (hseq.trans hq)
      unpowered := fun _ => rfl
      powered := fun hp => by simp [powered, hoe] at hp
      opcode := nofun
      reply := trivial
      strategy := by simpa [hshift] using hs.strategy }

/-- SPI and SPI1 answer as many bytes as they send (R129, R130). -/
theorem keepsInv_gatedRawFrame {payload : List Byte} (hl : payload.length = 1 ∨ payload.length = 4) :
    KeepsInv (gatedSetup (rawFrame payload)) := by
  refine keepsInv_gatedSetup fun s hs hq hp => ?_
  obtain ⟨recv, t, hsent, hraw⟩ := rawFrame_sent payload s
  have hne : payload ≠ [] := by rintro rfl; simp at hl
  obtain ⟨hm, hseq, hreply⟩ := poweredMove_of_sent hsent hne
  rw [hraw]
  have ht : Safety.Inv t := inv_of_poweredMove hs hp hm (seqRest_of_idle (hseq.trans hq)) (hreply ▸ hs.reply)
  refine inv_respond ht ?_
  rw [legalReply, hsent.len]
  exact hl.imp_right .inl

theorem keepsInv_execPollBytes (p1 p2 : Byte) : KeepsInv (execPollBytes p1 p2) :=
  keepsInv_gatedSetup fun _ hs hq hp =>
    inv_of_poweredMove hs hp (.of_eq rfl rfl rfl rfl rfl) (seqRest_of_idle hq) trivial

theorem keepsInv_readSetup {op : Byte} (hop : legalOpcode op) (addr : Half) : KeepsInv (readSetup op addr) :=
  keepsInv_gatedSetup fun _ hs hq hp =>
    inv_of_poweredMove hs hp ⟨rfl, rfl, id, rfl, .inr hop, rfl⟩ (seqRest_of_idle hq) trivial

theorem keepsInv_writeSetup {op : Byte} (hop : legalOpcode op) (addr timeout : Half) :
    KeepsInv (writeSetup op addr timeout) :=
  keepsInv_gatedSetup fun _ hs hq hp =>
    inv_of_poweredMove hs hp ⟨rfl, rfl, id, rfl, .inr hop, rfl⟩ (seqRest_of_idle hq) trivial

/-- ENCODE is a powered move that leaves SEQ (R140 to R144). -/
theorem poweredMove_encodeTransfer (w : DoubleWidth) (k : Half) (op : Byte) (s : State) :
    PoweredMove s (encodeTransfer w k op s) ∧ (encodeTransfer w k op s).seq = s.seq := by
  obtain ⟨b3, s1, x0, x1, x2, x3, t, hfrom, hsent, heq⟩ := encodeTransfer_sent w k op s
  obtain ⟨hm1, hseq1⟩ : PoweredMove s s1 ∧ s1.seq = s.seq := by
    rcases hfrom with ⟨_, _, rfl⟩ | ⟨_, rfl⟩
    · exact ⟨.of_eq rfl rfl rfl rfl rfl, rfl⟩
    · exact ⟨.of_eq rfl rfl rfl rfl rfl, rfl⟩
  obtain ⟨hm, hseq, _⟩ := poweredMove_of_sent hsent (by simp)
  rw [heq]
  exact ⟨(hm1.trans hm).trans (.of_eq rfl rfl rfl rfl rfl), hseq.trans hseq1⟩

theorem keepsInv_inByte (w : DoubleWidth) : KeepsInv (inByte w) := by
  intro s t hs hq hrun
  unfold inByte at hrun
  split at hrun
  next hp =>
    simp only [readReg_eq_next] at hrun
    obtain ⟨_, _, ⟨⟩⟩ := hrun
    obtain ⟨hm, hseq⟩ := poweredMove_encodeTransfer w s.address.value s.opcode.value s
    exact inv_of_poweredMove hs hp (hm.trans (.of_eq rfl rfl rfl rfl rfl)) (seqRest_of_idle (hseq.trans hq)) trivial
  next =>
    cases hrun
    exact inv_answer (inv_of_onlyInputs hs rfl) trivial

/-- The read frame of a poll holds the byte the OUT_BYTE wrote (R163, R164). -/
theorem payload_of_pollFrame {w : DoubleWidth} {m op d : Byte} {k : Half} {f : FrameBuf}
    (h : writtenFrame (pollHeadAt w m op k ++ [d]) f) : f.b3 = written d := by
  simp only [writtenFrame, pollHeadAt, frameHeadAt, List.cons_append, List.nil_append, List.map_cons,
    List.cons.injEq] at h
  obtain ⟨_, _, _, hb3, _⟩ := h
  exact hb3

theorem keepsInv_outByte {b : Build} (hb : b.wrap16 = false) (d : Byte) : KeepsInv (outByte b d) := by
  intro s t hs _ hrun
  unfold outByte at hrun
  split at hrun
  next hp =>
    simp only [readReg_eq_next] at hrun
    obtain ⟨_, hop, hto, hp1, hp2, ⟨⟩⟩ := hrun
    obtain ⟨x0, x1, x2, x3, v, hpoll, hv, hcmd, _, hstrat, _, hind, _, hsck⟩ :=
      writeFrame_starts b d s.address.value s.opcode.value s
    rw [hpoll, hb]
    have hmove : PoweredMove s v := ⟨by rw [hv], hind, fun _ => hsck, by rw [hv], .inl (by rw [hv]), hstrat⟩
    have hready : PollReady v := by
      refine ⟨(powered_congr hmove.lineOE).trans hp, ?_, ?_, by rw [hv]⟩
      · rw [hv]; simp [writeReady, hop, hto, hp1, hp2]
      · rw [payload_of_pollFrame hcmd, written_written]
    exact inv_pollFrom hs hmove hready (Nat.le_refl 1) (by rw [hv]; trivial)
  next =>
    cases hrun
    exact inv_answer hs trivial

/-- Every command run from IDLE keeps the invariant (R100). -/
theorem keepsInv_exec (i : Instr) : KeepsInv (exec i) := by
  cases i with
  | echo data => exact keepsInv_execEcho data
  | read => exact keepsInv_execRead
  | write v i => exact keepsInv_outsideRequest (.write v i)
  | clr v i => exact keepsInv_outsideRequest (.clr v i)
  | set v i => exact keepsInv_outsideRequest (.set v i)
  | ddrwrite v i => exact keepsInv_outsideRequest (.ddrwrite v i)
  | powerup sck rst => exact keepsInv_execPowerup sck rst
  | powerdown => exact keepsInv_execPowerdown
  | spi d0 d1 d2 d3 => exact keepsInv_gatedRawFrame (.inr rfl)
  | spi1 d0 => exact keepsInv_gatedRawFrame (.inl rfl)
  | pollBytes p1 p2 => exact keepsInv_execPollBytes p1 p2
  | flashRead addr => exact keepsInv_readSetup (.inl rfl) addr
  | eepromRead addr => exact keepsInv_readSetup (.inr (.inl rfl)) addr
  | flashWrite addr timeout => exact keepsInv_writeSetup (.inr (.inr (.inl rfl))) addr timeout
  | eepromWrite addr timeout => exact keepsInv_writeSetup (.inr (.inr (.inr rfl))) addr timeout
  | unknown0F => exact keepsInv_ignored
  | unknown10 _ => exact keepsInv_ignored
  | unknown20 _ => exact keepsInv_ignored
  | unknown40 _ => exact keepsInv_ignored
  | unknown80 _ => exact keepsInv_ignored
  | inByte => exact keepsInv_inByte _
  | outByte d => exact keepsInv_outByte rfl d
  | reserved => exact keepsInv_execReserved

/-- What a step that answers a next state has done (R9, R110, R168, R211). -/
theorem step_cases {s t : State} (h : step s = .next t) :
    (s.seq = .idle ∧ s.pending = [] ∧ t = s) ∨
    (s.seq = .idle ∧ ∃ c rest, s.pending = c :: rest ∧ exec (decode c) { s with pending := rest } = .next t) ∨
    (∃ k, s.seq = .poll k ∧ t = pollFrom false k s) := by
  cases hq : s.seq with
  | idle =>
    cases hc : s.pending with
    | nil =>
      have hstep : step s = .next s := by simp [step, stepWith, takeCommand, hq, hc]
      rw [hstep] at h
      cases h
      exact .inl ⟨rfl, rfl, rfl⟩
    | cons c rest =>
      rw [step, stepWith_idle hq hc] at h
      exact .inr (.inl ⟨rfl, c, rest, rfl, hq ▸ h⟩)
  | poll k =>
    have hstep : step s = .next (pollFrom false k s) := by simp [step, stepWith, hq, Config.pollElapsedWrap16]
    rw [hstep] at h
    cases h
    exact .inr (.inr ⟨k, rfl, rfl⟩)
  | xfer n i j phase =>
    have hstep : step s = .refused .transferInProgress := by simp [step, stepWith, hq]
    rw [hstep] at h
    cases h

/-- Settles O56: an idle step waits or runs a command, each of which keeps the invariant; a busy one goes on with a poll
whose timer stands still. -/
theorem everyStepKeepsTheInvariant : Obligations.EveryStepKeepsTheInvariant := by
  intro s t hs hstep
  rcases step_cases hstep with ⟨_, _, rfl⟩ | ⟨hq, c, rest, _, hrun⟩ | ⟨k, hq, rfl⟩
  · exact hs
  · exact keepsInv_exec (decode c) { s with pending := rest } t (inv_of_onlyInputs hs rfl) hq hrun
  · obtain ⟨hready, hk⟩ := pollReady_of_seq hs hq
    exact inv_pollFrom hs (PoweredMove.refl s) hready hk hs.reply

end Sys2Proof.Proofs
end

section
/-! SUPPORT. What each command does to ADDRESS when it completes, and O39. -/
namespace Sys2Proof.Proofs

open Sys2Proof.Machine Sys2Proof.Safety Sys2Proof.Laws

/-! The shared operations (R120, R129, R140, R163, R167, R181). -/

/-- A TRANSFER touches no register (R120). -/
theorem address_of_sent {out inn : List Byte} {s t : State} (h : Sent out inn s t) : t.address = s.address := by
  rw [h.only]

/-- The read attempts of a poll resend the frame in CMD, without another ENCODE (R164, R167). -/
theorem address_of_polled {rs : List Byte} {s t : State} (h : Polled rs s t) : t.address = s.address := by
  rw [h.only]

@[simp] theorem rawFrame_address (payload : List Byte) (s : State) : (rawFrame payload s).address = s.address := by
  obtain ⟨recv, t, hsent, hraw⟩ := rawFrame_sent payload s
  rw [hraw, respond_address, address_of_sent hsent]

@[simp] theorem releaseLines_address (s : State) : (releaseLines s).address = s.address := by
  unfold releaseLines
  split <;> rfl

/-- ENCODE advances the counter once, whichever payload byte it sends (R140, R143). -/
@[simp] theorem encodeTransfer_address (w : DoubleWidth) (k : Half) (op : Byte) (s : State) :
    (encodeTransfer w k op s).address = written (k + 1#16) := by
  obtain ⟨b3, s1, x0, x1, x2, x3, t, hfrom, hsent, heq⟩ := encodeTransfer_sent w k op s
  rw [heq, storeRes_address, address_of_sent hsent]
  rcases hfrom with ⟨_, _, rfl⟩ | ⟨_, rfl⟩
  · exact buildFrame_address w k op s
  · exact buildFrame_address w k op s

/-- The write cycle of an OUT_BYTE and the poll it starts advance the counter once, by the write cycle's ENCODE
(R148, R163). -/
theorem poll_writeCycle_address (b : Build) (d : Byte) (k : Half) (op : Byte) (s : State) :
    (poll b.wrap16 (writeCycle b d k op (answer .out s))).address = written (k + 1#16) := by
  obtain ⟨_, _, _, _, v, hpoll, hv, _⟩ := writeFrame_starts b d k op s
  obtain ⟨rs, _, hpolled⟩ := pollFrom_polled b.wrap16 1 v
  rw [hpoll, address_of_polled hpolled, hv]

/-! The commands, when they complete. -/

/-- A gated SETUP command moves ADDRESS as its body does while powered, and not at all while unpowered (R101). -/
theorem gatedSetup_address {body : State → State} {s t : State} (h : gatedSetup body s = .next t) :
    t.address = if powered s then (body s).address else s.address := by
  cases hp : powered s with
  | true =>
    rw [gatedSetup_powered hp] at h
    cases h
    rfl
  | false =>
    rw [gatedSetup_unpowered hp] at h
    cases h
    rfl

theorem gatedSetup_keeps_address {body : State → State} {s t : State} (h : gatedSetup body s = .next t)
    (hbody : ∀ s, (body s).address = s.address) : t.address = s.address := by
  rw [gatedSetup_address h, hbody, ite_self]

theorem readSetup_address {op : Byte} {addr : Half} {s t : State} (h : readSetup op addr s = .next t) :
    t.address = if powered s then ⟨addr, true⟩ else s.address := gatedSetup_address h

theorem writeSetup_address {op : Byte} {addr timeout : Half} {s t : State}
    (h : writeSetup op addr timeout s = .next t) :
    t.address = if powered s then ⟨addr, true⟩ else s.address := gatedSetup_address h

theorem execPollBytes_address {p1 p2 : Byte} {s t : State} (h : execPollBytes p1 p2 s = .next t) :
    t.address = s.address := gatedSetup_keeps_address h fun _ => rfl

theorem inByte_address {w : DoubleWidth} {s t : State} (h : inByte w s = .next t) :
    t.address = if powered s then ⟨s.address.value + 1#16, true⟩ else s.address := by
  unfold inByte at h
  split at h
  next hp =>
    simp only [readReg_eq_next] at h
    obtain ⟨_, _, ⟨⟩⟩ := h
    rw [if_pos hp, answer_address, encodeTransfer_address, written]
  next hp =>
    cases h
    rw [if_neg hp, answer_address, draw_address]

theorem outByte_address {b : Build} {d : Byte} {s t : State} (h : outByte b d s = .next t) :
    t.address = if powered s then ⟨s.address.value + 1#16, true⟩ else s.address := by
  unfold outByte at h
  split at h
  next hp =>
    simp only [readReg_eq_next] at h
    obtain ⟨_, _, _, _, _, ⟨⟩⟩ := h
    rw [if_pos hp, poll_writeCycle_address, written]
  next hp =>
    cases h
    rw [if_neg hp, answer_address]

theorem execPowerdown_address {s t : State} (h : execPowerdown s = .next t) : t.address = unmark s.address := by
  cases h
  rw [respond_address, clearMarks_address, releaseLines_address]

/-- Settles O39: the setups by the gate, the strobes by the one ENCODE each makes, the other commands by what their
operations leave. -/
theorem addressMovesOnlyBySetupAndStrobe : Obligations.AddressMovesOnlyBySetupAndStrobe := by
  intro i s t h
  cases i with
  | flashRead addr => exact readSetup_address h
  | eepromRead addr => exact readSetup_address h
  | flashWrite addr timeout => exact writeSetup_address h
  | eepromWrite addr timeout => exact writeSetup_address h
  | inByte => exact inByte_address h
  | outByte d => exact outByte_address h
  | powerdown => exact congrArg Reg.written (execPowerdown_address h)
  | spi d0 d1 d2 d3 => exact gatedSetup_keeps_address h (rawFrame_address _)
  | spi1 d0 => exact gatedSetup_keeps_address h (rawFrame_address _)
  | pollBytes p1 p2 => exact execPollBytes_address h
  | reserved => cases h
  | echo data => cases h; rfl
  | read => cases h; rfl
  | write v i => cases h; rfl
  | clr v i => cases h; rfl
  | set v i => cases h; rfl
  | ddrwrite v i => cases h; rfl
  | powerup sck rst => cases h; rfl
  | unknown0F => cases h; rfl
  | unknown10 _ => cases h; rfl
  | unknown20 _ => cases h; rfl
  | unknown40 _ => cases h; rfl
  | unknown80 _ => cases h; rfl

end Sys2Proof.Proofs
end

section
/-! SUPPORT. The bytes of a setup packet (O47), and the address a frame carries (O41). -/
namespace Sys2Proof.Proofs

open Sys2Proof.Machine Sys2Proof.Safety Sys2Proof.Laws

/-! The setup packet (R65, R81, R82). -/

/-- A byte appended to a word of any width is the low byte of the result (R6); `joinBytes_toNat` is the case of two
bytes. -/
theorem append_byte_toNat {w : Nat} (x : BitVec w) (b : Byte) : (x ++ b).toNat = b.toNat + 256 * x.toNat := by
  have := b.isLt
  rw [BitVec.toNat_append, ← Nat.shiftLeft_add_eq_or_of_lt b.isLt, Nat.shiftLeft_eq]
  omega

/-- The packet's word read byte by byte, `data[0]` lowest (R81). -/
theorem packet_word_toNat (p : Packet) : p.word.toNat = p.b0.toNat + 256 * (p.b1.toNat + 256 * (p.b2.toNat + 256 *
    (p.b3.toNat + 256 * (p.b4.toNat + 256 * (p.b5.toNat + 256 * (p.b6.toNat + 256 * p.b7.toNat)))))) := by
  have h : p.word.toNat = _ := append_byte_toNat (p.b7 ++ p.b6 ++ p.b5 ++ p.b4 ++ p.b3 ++ p.b2 ++ p.b1) p.b0
  rw [h]
  simp only [append_byte_toNat]

/-- Bits `[8i+7:8i]` of a word are its `i`-th digit to base 256. -/
theorem extractByte_toNat {w : Nat} (x : BitVec w) (i : Nat) :
    (x.extractLsb' (8 * i) 8).toNat = x.toNat / 256 ^ i % 256 := by
  rw [BitVec.extractLsb'_toNat, Nat.shiftRight_eq_div_pow, Nat.pow_mul]

/-- Byte `i` of the packet is byte `i` of its word (R81). -/
theorem packet_bytes_eq_word (p : Packet) {i : Nat} (hi : i < 8) :
    p.bytes[i]? = some (p.word.extractLsb' (8 * i) 8) := by
  have hlen : i < p.bytes.length := hi
  rw [List.getElem?_eq_getElem hlen]
  refine congrArg some (BitVec.eq_of_toNat_eq ?_)
  rw [extractByte_toNat, packet_word_toNat]
  interval_cases i <;> simp only [Packet.bytes, List.getElem_cons_zero, List.getElem_cons_succ] <;> omega

/-- Settles O47: the fields are joined bytes, and the packet's word holds its bytes in order. -/
theorem packetFieldsAreLittleEndian : Obligations.PacketFieldsAreLittleEndian :=
  fun p => ⟨joinBytes_toNat p.b3 p.b2, joinBytes_toNat p.b5 p.b4, fun _ => packet_bytes_eq_word p⟩

/-! The frame of an effective address (R140 to R142). -/

theorem effectiveAddress_eeprom {op : Byte} (h : op.getLsbD 7 = true) (w : DoubleWidth) (k : Half) :
    effectiveAddress w op k = (2 * k.toNat) % 2 ^ w.bits := if_pos h

theorem effectiveAddress_flash {op : Byte} (h : op.getLsbD 7 = false) (w : DoubleWidth) (k : Half) :
    effectiveAddress w op k = k.toNat := by
  rw [effectiveAddress, eepromMode, h, if_neg Bool.false_ne_true]

/-- Width 17 keeps the whole doubled counter (R140). -/
theorem effectiveAddress_w17 {op : Byte} (h : op.getLsbD 7 = true) (k : Half) :
    effectiveAddress .w17 op k = 2 * k.toNat := by
  rw [effectiveAddress_eeprom h, DoubleWidth.bits]
  omega

/-- Bytes 1 and 2 are bits [16:1] of the effective address, big-endian (R142). -/
theorem frameBytes_toNat (a : Nat) : (frameByte1 a ++ frameByte2 a).toNat = a / 2 % 65536 := by
  simp only [append_byte_toNat, frameByte1, frameByte2, BitVec.toNat_ofNat, Nat.shiftRight_eq_div_pow]
  omega

/-- An even effective address leaves the opcode as it is (R141). -/
theorem frameByte0_even (op : Byte) {a : Nat} (h : a % 2 = 0) : frameByte0 op a = op := by
  simp [frameByte0, h]

/-- Bit 3 of byte 0 tells an odd effective address (R141). -/
theorem frameByte0_bit3 {op : Byte} (hop : op.getLsbD 3 = false) (a : Nat) :
    (frameByte0 op a).getLsbD 3 = decide (a % 2 = 1) := by
  rw [frameByte0, BitVec.getLsbD_or, hop, Bool.false_or]
  by_cases h : a % 2 = 1
  · rw [if_pos h, decide_eq_true h]; rfl
  · rw [if_neg h, decide_eq_false h]; rfl

/-- In EEPROM mode at width 16 the frame loses the counter's top bit. -/
theorem eepromFrame_w16 {op : Byte} (h : op.getLsbD 7 = true) (k : Half) :
    let a := effectiveAddress .w16 op k
    a = (2 * k.toNat) % 65536 ∧ (frameByte1 a ++ frameByte2 a).toNat = k.toNat % 32768 ∧ frameByte0 op a = op := by
  have ha : effectiveAddress .w16 op k = (2 * k.toNat) % 65536 := effectiveAddress_eeprom h .w16 k
  refine ⟨ha, ?_, frameByte0_even op ?_⟩
  · rw [frameBytes_toNat, ha]; omega
  · rw [ha]; omega

/-- In EEPROM mode at width 17 the frame carries the whole counter. -/
theorem eepromFrame_w17 {op : Byte} (h : op.getLsbD 7 = true) (k : Half) :
    let a := effectiveAddress .w17 op k
    a = 2 * k.toNat ∧ frameByte1 a ++ frameByte2 a = k ∧ frameByte0 op a = op := by
  have ha := effectiveAddress_w17 h k
  refine ⟨ha, BitVec.eq_of_toNat_eq ?_, frameByte0_even op ?_⟩
  · rw [frameBytes_toNat, ha]; omega
  · rw [ha]; omega

/-- In flash mode the counter itself is the effective address, at either width. -/
theorem flashFrame {op : Byte} (hop : op.getLsbD 3 = false) (h : op.getLsbD 7 = false) (w : DoubleWidth) (k : Half) :
    let a := effectiveAddress w op k
    a = k.toNat ∧ (frameByte1 a ++ frameByte2 a).toNat = k.toNat / 2 ∧
      (frameByte0 op a).getLsbD 3 = k.getLsbD 0 := by
  have ha := effectiveAddress_flash h w k
  refine ⟨ha, ?_, ?_⟩
  · rw [frameBytes_toNat, ha]; omega
  · rw [frameByte0_bit3 hop, ha, BitVec.getLsbD, Nat.testBit_zero]

/-- Settles O41: the frame in EEPROM mode at each width, and in flash mode. -/
theorem frameCarriesTheEffectiveAddress : Obligations.FrameCarriesTheEffectiveAddress :=
  fun _ k hop => ⟨fun h => ⟨eepromFrame_w16 h k, eepromFrame_w17 h k⟩, fun h w => flashFrame hop h w k⟩

end Sys2Proof.Proofs
end

section
/-! SUPPORT. The decoder against the encoder (O50, O51), the opcode table (O48), the ignored fields (O49), the reserved
kind (O6) and the spec's own words (O52). -/
namespace Sys2Proof.Proofs

open Sys2Proof.Machine Sys2Proof.Safety Sys2Proof.Laws

/-! The decoder on setup packets, by request code (R83, R84). -/

/-- The selector of a SETUP command is its request code (R83). -/
theorem selector_setup (p : Packet) (d : Byte) : selector ⟨0#2, p, d⟩ = 0#2 ++ p.b1 := rfl

theorem decode_setup {p : Packet} {code : Byte} (h : p.b1 = code) (d : Byte) :
    decode ⟨0#2, p, d⟩ = decodeCode Config.spi1Code code p := by
  rw [← h]; rfl

theorem decodeCode_echo (spi : Byte) (p : Packet) : decodeCode spi 0#8 p = .echo p := rfl

/-- POWERUP uses bytes 2 and 4 (R180). -/
theorem decodeCode_powerup (spi : Byte) (p : Packet) : decodeCode spi 5#8 p = .powerup p.b2 p.b4 :=
  congrArg₂ Instr.powerup (loByte_joinBytes p.b3 p.b2) (loByte_joinBytes p.b5 p.b4)

/-- POLL_BYTES uses bytes 2 and 3 (R160). -/
theorem decodeCode_pollBytes (spi : Byte) (p : Packet) : decodeCode spi 8#8 p = .pollBytes p.b2 p.b3 :=
  congrArg₂ Instr.pollBytes (loByte_joinBytes p.b3 p.b2) (hiByte_joinBytes p.b3 p.b2)

/-- FLASH_READ uses bytes 4 and 5 (R145). -/
theorem decodeCode_flashRead (spi : Byte) (p : Packet) :
    decodeCode spi 9#8 p = .flashRead (joinBytes p.b5 p.b4) := rfl

/-- EEPROM_READ uses bytes 4 and 5 (R146). -/
theorem decodeCode_eepromRead (spi : Byte) (p : Packet) :
    decodeCode spi 11#8 p = .eepromRead (joinBytes p.b5 p.b4) := rfl

/-- SPI1 uses byte 2 (R130). -/
theorem decodeCode_spi1 (p : Packet) : decodeCode Config.spi1Code 14#8 p = .spi1 p.b2 := rfl

/-- No code but ECHO's uses more of the packet than bytes 2 to 5 (R91). -/
theorem decodeCode_congr {code : Byte} (h0 : code ≠ 0#8) {p q : Packet} (h2 : q.b2 = p.b2) (h3 : q.b3 = p.b3)
    (h4 : q.b4 = p.b4) (h5 : q.b5 = p.b5) (spi : Byte) : decodeCode spi code q = decodeCode spi code p := by
  simp only [decodeCode, if_neg h0, Packet.wValue, Packet.wIndex, h2, h3, h4, h5]

/-- On this machine's build the codes from 15 up are no command's (R85, R108). -/
theorem decodeCode_unknown {code : Byte} (h : 15 ≤ code.toNat) (p : Packet) :
    decodeCode Config.spi1Code code p = unknownOf code := by
  have hne : code ≠ Config.spi1Code := by
    rintro rfl
    exact absurd h (by decide)
  rw [decodeCode_of_ge (by omega), if_neg hne]

/-! The rows of the unknown codes: fixed high bits and the code's low bits (R84). -/

/-- High bits over `n` low bits, read as a number. -/
theorem append_toNat {m n : Nat} (hi : BitVec m) (lo : BitVec n) : (hi ++ lo).toNat = hi.toNat * 2 ^ n + lo.toNat := by
  rw [BitVec.toNat_append, ← Nat.shiftLeft_add_eq_or_of_lt lo.isLt, Nat.shiftLeft_eq]

theorem le_append_toNat {k m n : Nat} {hi : BitVec m} {lo : BitVec n} (h : k ≤ hi.toNat * 2 ^ n) :
    k ≤ (hi ++ lo).toNat := by
  rw [append_toNat]
  exact Nat.le_add_right_of_le h

/-- A word is its own high bits over its own low bits. -/
theorem append_low {m n : Nat} {hi : BitVec m} {x : BitVec (m + n)} (h : x.toNat / 2 ^ n = hi.toNat) :
    hi ++ x.extractLsb' 0 n = x := by
  apply BitVec.eq_of_toNat_eq
  rw [append_toNat, BitVec.extractLsb'_toNat, Nat.shiftRight_zero, ← h, Nat.div_add_mod']

theorem unknownOf_unknown10 (low : BitVec 4) : unknownOf (0b0001#4 ++ low) = .unknown10 low := by
  have h : (0b0001#4 ++ low).toNat = 16 + low.toNat := append_toNat 0b0001#4 low
  rw [unknownOf, if_neg (by omega), if_pos (by omega), BitVec.extractLsb'_append_eq_right]

theorem unknownOf_unknown20 (low : BitVec 5) : unknownOf (0b001#3 ++ low) = .unknown20 low := by
  have h : (0b001#3 ++ low).toNat = 32 + low.toNat := append_toNat 0b001#3 low
  rw [unknownOf, if_neg (by omega), if_neg (by omega), if_pos (by omega), BitVec.extractLsb'_append_eq_right]

theorem unknownOf_unknown40 (low : BitVec 6) : unknownOf (0b01#2 ++ low) = .unknown40 low := by
  have h : (0b01#2 ++ low).toNat = 64 + low.toNat := append_toNat 0b01#2 low
  rw [unknownOf, if_neg (by omega), if_neg (by omega), if_neg (by omega), if_pos (by omega),
    BitVec.extractLsb'_append_eq_right]

theorem unknownOf_unknown80 (low : BitVec 7) : unknownOf (0b1#1 ++ low) = .unknown80 low := by
  have h : (0b1#1 ++ low).toNat = 128 + low.toNat := append_toNat 0b1#1 low
  rw [unknownOf, if_neg (by omega), if_neg (by omega), if_neg (by omega), if_neg (by omega),
    BitVec.extractLsb'_append_eq_right]

/-- An unknown code is laid out as itself (R93; log entry 20). -/
theorem encode_unknownOf {code : Byte} (h : 15 ≤ code.toNat) :
    encode (unknownOf code) = setupFields typeOut code 0#16 0#16 := by
  have layout : ∀ code', code' = code → setupFields typeOut code' 0#16 0#16 = setupFields typeOut code 0#16 0#16 :=
    fun _ e => by rw [e]
  have hlt := code.isLt
  unfold unknownOf
  split_ifs with h16 h32 h64 h128
  · exact layout _ (BitVec.eq_of_toNat_eq (show 15 = code.toNat by omega))
  · exact layout _ (append_low (hi := 0b0001#4) (show code.toNat / 16 = 1 by omega))
  · exact layout _ (append_low (hi := 0b001#3) (show code.toNat / 32 = 1 by omega))
  · exact layout _ (append_low (hi := 0b01#2) (show code.toNat / 64 = 1 by omega))
  · exact layout _ (append_low (hi := 0b1#1) (show code.toNat / 128 = 1 by omega))

/-! Decode and encode agree (R84, R93). -/

/-- A request laid out under an unknown code decodes to that code's row (R108). -/
theorem decode_setupFields_unknown {code : Byte} (h : 15 ≤ code.toNat) (type : Byte) (v i : Half) :
    decode (setupFields type code v i) = unknownOf code :=
  decodeCode_unknown h _

/-- Settles O50, one case a row: a 16-bit field is its two bytes joined again, an unknown code its high and low
bits. -/
theorem decodeInvertsEncode : Obligations.DecodeInvertsEncode := by
  intro i hwf
  cases i with
  | echo p =>
    have hb : p.b1 = 0#8 := eq_of_beq hwf
    exact decode_setup hb 0#8
  | read => rfl
  | write v i => exact congrArg₂ Instr.write (joinBytes_bytes v) (joinBytes_bytes i)
  | clr v i => exact congrArg₂ Instr.clr (joinBytes_bytes v) (joinBytes_bytes i)
  | set v i => exact congrArg₂ Instr.set (joinBytes_bytes v) (joinBytes_bytes i)
  | ddrwrite v i => exact congrArg₂ Instr.ddrwrite (joinBytes_bytes v) (joinBytes_bytes i)
  | powerup sck rst => exact decodeCode_powerup Config.spi1Code _
  | powerdown => rfl
  | spi d0 d1 d2 d3 => rfl
  | pollBytes p1 p2 => exact decodeCode_pollBytes Config.spi1Code _
  | flashRead addr => exact congrArg Instr.flashRead (joinBytes_bytes addr)
  | flashWrite addr timeout => exact congrArg₂ Instr.flashWrite (joinBytes_bytes addr) (joinBytes_bytes timeout)
  | eepromRead addr => exact congrArg Instr.eepromRead (joinBytes_bytes addr)
  | eepromWrite addr timeout => exact congrArg₂ Instr.eepromWrite (joinBytes_bytes addr) (joinBytes_bytes timeout)
  | spi1 d0 => exact decodeCode_spi1 _
  | unknown0F => rfl
  | unknown10 low =>
    exact (decode_setupFields_unknown (le_append_toNat (by decide)) ..).trans (unknownOf_unknown10 low)
  | unknown20 low =>
    exact (decode_setupFields_unknown (le_append_toNat (by decide)) ..).trans (unknownOf_unknown20 low)
  | unknown40 low =>
    exact (decode_setupFields_unknown (le_append_toNat (by decide)) ..).trans (unknownOf_unknown40 low)
  | unknown80 low =>
    exact (decode_setupFields_unknown (le_append_toNat (by decide)) ..).trans (unknownOf_unknown80 low)
  | inByte => rfl
  | outByte d => rfl
  | reserved => rfl

theorem wellFormed_unknownOf (code : Byte) : (unknownOf code).wellFormed = true := by
  unfold unknownOf
  split_ifs <;> rfl

/-- The decoder's answer for a setup packet is well-formed, and its encoding has the packet's request code (R84). -/
theorem decode_setup_wellFormed (p : Packet) (d : Byte) :
    (decode ⟨0#2, p, d⟩).wellFormed = true ∧ selector (encode (decode ⟨0#2, p, d⟩)) = 0#2 ++ p.b1 := by
  rcases Nat.lt_or_ge p.b1.toNat 15 with h | h
  · obtain ⟨b0, b1, b2, b3, b4, b5, b6, b7⟩ := p
    obtain ⟨n, hn, rfl⟩ : ∃ n < 15, b1 = BitVec.ofNat 8 n := ⟨b1.toNat, h, by simp⟩
    interval_cases n <;> exact ⟨rfl, rfl⟩
  · have hd : decode ⟨0#2, p, d⟩ = unknownOf p.b1 := decodeCode_unknown h p
    rw [hd, encode_unknownOf h]
    exact ⟨wellFormed_unknownOf p.b1, rfl⟩

/-- A property of commands holds of all of them when it holds of every setup packet, both strobes and the reserved
kind (R80, R83). -/
theorem portCommand_cases {P : PortCommand → Prop} (setup : ∀ p d, P ⟨0#2, p, d⟩) (inByte : ∀ p d, P ⟨1#2, p, d⟩)
    (outByte : ∀ p d, P ⟨2#2, p, d⟩) (reserved : ∀ p d, P ⟨3#2, p, d⟩) (c : PortCommand) : P c := by
  obtain ⟨kind, p, d⟩ := c
  obtain ⟨n, hn, rfl⟩ : ∃ n < 4, kind = BitVec.ofNat 2 n := ⟨kind.toNat, kind.isLt, by simp⟩
  interval_cases n
  exacts [setup p d, inByte p d, outByte p d, reserved p d]

/-- Settles O51, by the command's kind. -/
theorem decodedInstructionsAreWellFormed : Obligations.DecodedInstructionsAreWellFormed :=
  portCommand_cases decode_setup_wellFormed (fun _ _ => ⟨rfl, rfl⟩) (fun _ _ => ⟨rfl, rfl⟩) (fun _ _ => ⟨rfl, rfl⟩)

/-! The opcode table (R83). -/

/-- A well-formed instruction's own row matches its encoding (R83). -/
theorem rowOf_covers_encode (i : Instr) (h : i.wellFormed = true) : (rowOf i).covers (selector (encode i)) = true := by
  cases i with
  | echo p => exact TableRow.echo p h
  | read => exact TableRow.read h
  | write v i => exact TableRow.write v i h
  | clr v i => exact TableRow.clr v i h
  | set v i => exact TableRow.set v i h
  | powerup sck rst => exact TableRow.powerup sck rst h
  | powerdown => exact TableRow.powerdown h
  | spi d0 d1 d2 d3 => exact TableRow.spi d0 d1 d2 d3 h
  | pollBytes p1 p2 => exact TableRow.pollBytes p1 p2 h
  | flashRead addr => exact TableRow.flashRead addr h
  | flashWrite addr timeout => exact TableRow.flashWrite addr timeout h
  | eepromRead addr => exact TableRow.eepromRead addr h
  | eepromWrite addr timeout => exact TableRow.eepromWrite addr timeout h
  | ddrwrite v i => exact TableRow.ddrwrite v i h
  | spi1 d0 => exact TableRow.spi1 d0 h
  | unknown0F => exact TableRow.unknown0F h
  | unknown10 low => exact TableRow.unknown10 low h
  | unknown20 low => exact TableRow.unknown20 low h
  | unknown40 low => exact TableRow.unknown40 low h
  | unknown80 low => exact TableRow.unknown80 low h
  | inByte => exact TableRow.inByte h
  | outByte d => exact TableRow.outByte d h
  | reserved => exact TableRow.reserved h

/-- The row of a decoded command matches the command's own selector (R83). -/
theorem rowOf_decode_covers (c : PortCommand) : (rowOf (decode c)).covers (selector c) = true := by
  obtain ⟨hwf, hsel⟩ := decodedInstructionsAreWellFormed c
  rw [← hsel]
  exact rowOf_covers_encode (decode c) hwf

theorem rowOf_mem_rows (i : Instr) : rowOf i ∈ rows := by
  cases i <;> simp [rowOf, rows]

/-- Some bit that both rows fix has two values in them. -/
def Row.Disjoint (r r' : Row) : Prop := r.value &&& r'.mask ≠ r'.value &&& r.mask

/-- No selector is matched by two disjoint rows. -/
theorem Row.Disjoint.not_both {r r' : Row} (h : Row.Disjoint r r') {sel : BitVec 10} (hr : r.covers sel = true) :
    r'.covers sel = false := by
  rw [← Bool.not_eq_true]
  intro hr'
  have e : sel &&& r.mask = r.value := eq_of_beq hr
  have e' : sel &&& r'.mask = r'.value := eq_of_beq hr'
  apply h
  rw [← e, ← e', BitVec.and_assoc, BitVec.and_assoc, BitVec.and_comm r.mask]

theorem Row.Disjoint.symm {r r' : Row} (h : Row.Disjoint r r') : Row.Disjoint r' r := Ne.symm h

/-- The rows of the opcode table are disjoint two by two. -/
theorem rows_pairwise_disjoint : rows.Pairwise Row.Disjoint := by
  unfold Row.Disjoint
  decide

/-- Of rows that are disjoint two by two, a row that matches is the only one. -/
theorem filter_covers_eq_singleton {l : List Row} (hl : l.Pairwise Row.Disjoint) {r : Row} (hr : r ∈ l)
    {sel : BitVec 10} (hc : r.covers sel = true) : l.filter (fun r => r.covers sel) = [r] := by
  obtain ⟨before, after, rfl⟩ := List.append_of_mem hr
  obtain ⟨_, hafter, hbefore⟩ := List.pairwise_append.mp hl
  refine List.filter_eq_cons_iff.mpr ⟨before, after, rfl, fun x hx => ?_, hc, ?_⟩
  · rw [(hbefore x hx r List.mem_cons_self).symm.not_both hc]
    exact Bool.false_ne_true
  · refine List.filter_eq_nil_iff.mpr fun x hx => ?_
    rw [(List.rel_of_pairwise_cons hafter hx).not_both hc]
    exact Bool.false_ne_true

/-- The rows of the strobes and of the reserved kind look at KIND alone (R83). -/
theorem covers_of_kindMask {r : Row} (hr : r.mask = 0x300) (kind : BitVec 2) (code code' : Byte) :
    r.covers (kind ++ code) = r.covers (kind ++ code') := by
  have hmask : r.mask = 3#2 ++ 0#8 := hr
  rw [Row.covers, Row.covers, hmask, BitVec.and_append, BitVec.and_append, BitVec.and_zero, BitVec.and_zero]

theorem rowOf_decode_mask {c : PortCommand} (hk : c.kind ≠ 0#2) : (rowOf (decode c)).mask = 0x300 := by
  unfold decode decodeWith
  rw [if_neg hk]
  split_ifs <;> rfl

/-- Where KIND is not SETUP, B is 0 (R83). -/
theorem selector_of_kind_ne {c : PortCommand} (hk : c.kind ≠ 0#2) : selector c = c.kind ++ 0#8 :=
  congrArg (c.kind ++ ·) (if_neg hk)

/-- A command with the given KIND and request code, whatever the kind. -/
def commandAt (kind : BitVec 2) (code : Byte) : PortCommand := ⟨kind, ⟨0, code, 0, 0, 0, 0, 0, 0⟩, 0⟩

/-- Every selector value is matched by the row of some command, the values no command on the port has included (R83). -/
theorem rowOf_commandAt_covers (kind : BitVec 2) (code : Byte) :
    (rowOf (decode (commandAt kind code))).covers (kind ++ code) = true := by
  have h := rowOf_decode_covers (commandAt kind code)
  by_cases hk : kind = 0#2
  · subst hk
    exact h
  · rw [covers_of_kindMask (rowOf_decode_mask hk) kind code 0#8]
    rwa [selector_of_kind_ne hk] at h

/-- Settles O48: the rows are disjoint, and the row of a decoded command matches. -/
theorem everySelectorHasItsOneRow : Obligations.EverySelectorHasItsOneRow := by
  have one : ∀ {i sel}, (rowOf i).covers sel = true → rows.filter (fun r => r.covers sel) = [rowOf i] :=
    filter_covers_eq_singleton rows_pairwise_disjoint (rowOf_mem_rows _)
  refine ⟨fun sel => ?_, fun c => one (rowOf_decode_covers c)⟩
  have hsel : sel.extractLsb' 8 2 ++ sel.extractLsb' 0 8 = sel := BitVec.extractLsb'_append_extractLsb'
  exact ⟨_, one (hsel ▸ rowOf_commandAt_covers (sel.extractLsb' 8 2) (sel.extractLsb' 0 8))⟩

/-! The fields a command ignores (R91). -/

/-- Settles O49: each code decodes from the bytes it uses. -/
theorem ignoredFieldsDoNotMatter : Obligations.IgnoredFieldsDoNotMatter := by
  intro p q d e hb
  refine ⟨fun h0 h2 h3 h4 h5 => ?_, fun hc h2 h4 => ?_, fun hc h2 h3 => ?_, ?_, fun hc h2 => ?_, fun hc => ?_⟩
  · rw [decode_setup hb, decode_setup rfl, decodeCode_congr h0 h2 h3 h4 h5]
  · rw [decode_setup (hb.trans hc), decode_setup hc, decodeCode_powerup, decodeCode_powerup, h2, h4]
  · rw [decode_setup (hb.trans hc), decode_setup hc, decodeCode_pollBytes, decodeCode_pollBytes, h2, h3]
  · rintro (hc | hc) h4 h5
    · rw [decode_setup (hb.trans hc), decode_setup hc, decodeCode_flashRead, decodeCode_flashRead, h4, h5]
    · rw [decode_setup (hb.trans hc), decode_setup hc, decodeCode_eepromRead, decodeCode_eepromRead, h4, h5]
  · rw [decode_setup (hb.trans hc), decode_setup hc, decodeCode_spi1, decodeCode_spi1, h2]
  · rw [decode_setup (hb.trans hc), decode_setup hc, decodeCode_echo, decodeCode_echo, Instr.echo.injEq]

/-- Settles O6: kind 3 decodes to RESERVED, which faults. -/
theorem reservedKindFaults : Obligations.ReservedKindFaults := ⟨fun _ _ => rfl, fun _ => rfl⟩

/-- Settles O52: the decoder run on the five words. -/
theorem specWordsDecode : Obligations.SpecWordsDecode := by
  unfold Obligations.SpecWordsDecode
  decide

end Sys2Proof.Proofs
end

section
/-! SUPPORT. What a command has answered when it completes (O46), and the flip of a frame's byte 0 (O43). -/
namespace Sys2Proof.Proofs

open Sys2Proof.Machine Sys2Proof.Safety Sys2Proof.Laws

/-! The answers (R87, R171). -/

/-- The port's answer is a SETUP command's, and a legal one (R87). -/
def AnswersSetup (t : State) : Prop := ∃ p, t.reply = .setup p ∧ legalReply (.setup p)

theorem answersSetup_respond {p : DataPhase} (hp : legalReply (.setup p)) (s : State) : AnswersSetup (respond p s) :=
  ⟨p, rfl, hp⟩

theorem answersSetup_respond_none (s : State) : AnswersSetup (respond .none s) :=
  answersSetup_respond (p := .none) trivial s

/-- A gated command answers as its body does, or `None` (R101). -/
theorem answersSetup_gatedSetup {body : State → State} {s t : State} (hbody : ∀ s, AnswersSetup (body s))
    (h : gatedSetup body s = .next t) : AnswersSetup t := by
  cases hp : powered s with
  | true =>
    rw [gatedSetup_powered hp] at h
    cases h
    exact hbody s
  | false =>
    rw [gatedSetup_unpowered hp] at h
    cases h
    exact answersSetup_respond_none s

/-- A raw frame answers as many bytes as it sends (R129, R130). -/
theorem answersSetup_rawFrame {payload : List Byte} (hl : payload.length = 1 ∨ payload.length = 4) (s : State) :
    AnswersSetup (rawFrame payload s) := by
  obtain ⟨recv, t, hsent, hraw⟩ := rawFrame_sent payload s
  rw [hraw]
  refine answersSetup_respond ?_ t
  rw [legalReply, hsent.len]
  exact hl.imp_right .inl

theorem answersSetup_readSetup {op : Byte} {addr : Half} {s t : State} (h : readSetup op addr s = .next t) :
    AnswersSetup t := answersSetup_gatedSetup (fun _ => answersSetup_respond (p := .streamed) trivial _) h

theorem answersSetup_writeSetup {op : Byte} {addr timeout : Half} {s t : State}
    (h : writeSetup op addr timeout s = .next t) : AnswersSetup t :=
  answersSetup_gatedSetup (fun _ => answersSetup_respond_none _) h

theorem answersSetup_execPollBytes {p1 p2 : Byte} {s t : State} (h : execPollBytes p1 p2 s = .next t) :
    AnswersSetup t := answersSetup_gatedSetup (fun _ => answersSetup_respond_none _) h

theorem answersSetup_execEcho {data : Packet} {s t : State} (h : execEcho data s = .next t) : AnswersSetup t := by
  cases h
  exact answersSetup_respond (p := .immediate data.bytes) (.inr (.inr rfl)) s

theorem answersSetup_execRead {s t : State} (h : execRead s = .next t) : AnswersSetup t := by
  cases h
  exact answersSetup_respond (p := .immediate [_]) (.inl rfl) _

/-- A command that is acknowledged and no more. -/
theorem answersSetup_of_respond_none {s t : State} (h : (.next (respond .none s) : Result) = .next t) :
    AnswersSetup t := by
  cases h
  exact answersSetup_respond_none s

theorem inByte_reply {w : DoubleWidth} {s t : State} (h : inByte w s = .next t) : ∃ b, t.reply = .inData b := by
  unfold inByte at h
  split at h
  · simp only [readReg_eq_next] at h
    obtain ⟨_, _, ⟨⟩⟩ := h
    exact ⟨_, rfl⟩
  · cases h
    exact ⟨_, rfl⟩

/-- The answer an OUT_BYTE sets when it is accepted stands through its write cycle and poll (R163; log entry 29). -/
theorem poll_writeCycle_reply (b : Build) (d : Byte) (k : Half) (op : Byte) (s : State) :
    (poll b.wrap16 (writeCycle b d k op (answer .out s))).reply = .out := by
  obtain ⟨_, _, _, _, v, hpoll, hv, _⟩ := writeFrame_starts b d k op s
  obtain ⟨rs, _, hpolled⟩ := pollFrom_polled b.wrap16 1 v
  rw [hpoll, hpolled.only, hv]

theorem outByte_reply {b : Build} {d : Byte} {s t : State} (h : outByte b d s = .next t) : t.reply = .out := by
  unfold outByte at h
  split at h
  · simp only [readReg_eq_next] at h
    obtain ⟨_, _, _, _, _, ⟨⟩⟩ := h
    exact poll_writeCycle_reply ..
  · cases h
    rfl

/-! The answers' hardware form (R87). -/

theorem rkind_ne_three (p : DataPhase) : rkind p ≠ 0b11#2 := by
  cases p with
  | none => decide
  | immediate bs => exact (by decide : 0b01#2 ≠ 0b11#2)
  | streamed => decide

/-- The four bits of RLEN hold the number of bytes of every legal `Immediate` (R87). -/
theorem rlen_immediate {bs : List Byte} (h : legalReply (.setup (.immediate bs))) (s : State) :
    (rlen s (.immediate bs)).toNat = bs.length := by
  rw [rlen, BitVec.toNat_ofNat]
  rcases h with h | h | h <;> rw [h]

theorem rdata_immediate {bs : List Byte} {i : Nat} (hi : i < bs.length) (s : State) :
    bs[i]? = some (rdata s (.immediate bs) i) := by
  rw [rdata, replyBytes, List.getD_eq_getElem _ _ hi, List.getElem?_eq_getElem hi]

/-- Settles O46: what each command answers, then the answer's form on the port. -/
theorem repliesAreLegalDataPhases : Obligations.RepliesAreLegalDataPhases := by
  refine ⟨fun i s t h => ?_, rfl, fun _ => rfl, rfl, rkind_ne_three,
    fun s bs hbs => ⟨rlen_immediate hbs s, fun i hi => rdata_immediate hi s⟩⟩
  cases i with
  | inByte => exact inByte_reply h
  | outByte d => exact outByte_reply h
  | echo data => exact answersSetup_execEcho h
  | read => exact answersSetup_execRead h
  | spi d0 d1 d2 d3 => exact answersSetup_gatedSetup (answersSetup_rawFrame (.inr rfl)) h
  | spi1 d0 => exact answersSetup_gatedSetup (answersSetup_rawFrame (.inl rfl)) h
  | pollBytes p1 p2 => exact answersSetup_execPollBytes h
  | flashRead addr => exact answersSetup_readSetup h
  | eepromRead addr => exact answersSetup_readSetup h
  | flashWrite addr timeout => exact answersSetup_writeSetup h
  | eepromWrite addr timeout => exact answersSetup_writeSetup h
  | reserved => cases h
  | write v i => exact answersSetup_of_respond_none h
  | clr v i => exact answersSetup_of_respond_none h
  | set v i => exact answersSetup_of_respond_none h
  | ddrwrite v i => exact answersSetup_of_respond_none h
  | powerup sck rst => exact answersSetup_of_respond_none h
  | powerdown => exact answersSetup_of_respond_none h
  | unknown0F => exact answersSetup_of_respond_none h
  | unknown10 _ => exact answersSetup_of_respond_none h
  | unknown20 _ => exact answersSetup_of_respond_none h
  | unknown40 _ => exact answersSetup_of_respond_none h
  | unknown80 _ => exact answersSetup_of_respond_none h

/-! The flip (R89, R164). -/

theorem or_xor_of_and_eq_zero {h m : Byte} (hm : h &&& m = 0#8) (op : Byte) : (op ||| h) ^^^ m = (op ^^^ m) ||| h := by
  apply BitVec.eq_of_getLsbD_eq
  intro j _
  have hbit : (h.getLsbD j && m.getLsbD j) = false := by
    rw [← BitVec.getLsbD_and, hm, BitVec.getLsbD_zero]
  rw [BitVec.getLsbD_xor, BitVec.getLsbD_or, BitVec.getLsbD_or, BitVec.getLsbD_xor]
  cases hh : h.getLsbD j with
  | false => simp
  | true =>
    have hmj : m.getLsbD j = false := by simpa [hh] using hbit
    simp [hmj]

/-- A mask without bit 3 flips byte 0 as it flips the opcode: H stays (R89, R141). -/
theorem frameByte0_xor {m : Byte} (hm : 0x08#8 &&& m = 0#8) (op : Byte) (a : Nat) :
    frameByte0 op a ^^^ m = frameByte0 (op ^^^ m) a := by
  unfold frameByte0
  split
  · exact or_xor_of_and_eq_zero hm op
  · rw [BitVec.or_zero, BitVec.or_zero]

/-- A mask without bit 7 keeps E, and so the effective address (R140). -/
theorem effectiveAddress_xor {m : Byte} (hm : m.getLsbD 7 = false) (w : DoubleWidth) (op : Byte) (k : Half) :
    effectiveAddress w (op ^^^ m) k = effectiveAddress w op k := by
  rw [effectiveAddress, effectiveAddress, eepromMode, eepromMode, BitVec.getLsbD_xor, hm, Bool.xor_false]

/-- The flip by POLL_FLIP_MASK turns the frame of one opcode into that of the flipped opcode at the same location
(R164). -/
theorem flipOpcode_buildFrame_cmd (w : DoubleWidth) (k : Half) (op : Byte) (s : State) :
    (flipOpcode Config.pollFlipMask (buildFrame w k op s)).cmd =
      (buildFrame w k (op ^^^ Config.pollFlipMask) s).cmd := by
  have ha : effectiveAddress w (op ^^^ Config.pollFlipMask) k = effectiveAddress w op k :=
    effectiveAddress_xor rfl w op k
  have hb : ∀ a, frameByte0 op a ^^^ Config.pollFlipMask = frameByte0 (op ^^^ Config.pollFlipMask) a :=
    frameByte0_xor rfl op
  simp [ha, hb]

/-- Settles O43: the mask has neither bit 3 nor bit 7, and it is the difference of each write opcode and its read
opcode. -/
theorem flipTurnsWriteIntoReadByte : Obligations.FlipTurnsWriteIntoReadByte := by
  refine ⟨fun _ _ => rfl, fun w k s => ?_, fun w op k => ⟨?_, ?_⟩⟩
  · exact ⟨flipOpcode_buildFrame_cmd .., flipOpcode_buildFrame_cmd .., flipOpcode_buildFrame_cmd ..,
      flipOpcode_buildFrame_cmd ..⟩
  · rw [BitVec.getLsbD_xor, show Config.pollFlipMask.getLsbD 3 = false from rfl, Bool.xor_false]
  · rw [BitVec.getLsbD_xor, show Config.pollFlipMask.getLsbD 7 = false from rfl, Bool.xor_false]

end Sys2Proof.Proofs
end

section
/-! SUPPORT. What the strobes do while powered, with their registers written, and while unpowered; the frames an
OUT_BYTE sends, and O35. -/
namespace Sys2Proof.Proofs

open Sys2Proof.Machine Sys2Proof.Safety Sys2Proof.Laws

/-! The strobes' answers, by the gate and the written marks (R101, R147, R163). -/

theorem inByte_unpowered {s : State} (h : powered s = false) (w : DoubleWidth) :
    inByte w s = .next (answer (.inData (draw s).1) (draw s).2) := by
  simp [inByte, h]

theorem outByte_unpowered {s : State} (h : powered s = false) (b : Build) (d : Byte) :
    outByte b d s = .next (answer .out s) := by
  simp [outByte, h]

/-- Powered, with the five registers it reads written, an OUT_BYTE runs its write cycle and its poll (R163). -/
theorem outByte_ready {s : State} (hp : powered s = true) (hw : writeReady s = true) (b : Build) (d : Byte) :
    outByte b d s = .next (poll b.wrap16 (writeCycle b d s.address.value s.opcode.value (answer .out s))) := by
  simp only [writeReady, Bool.and_eq_true] at hw
  obtain ⟨⟨⟨⟨haddr, hop⟩, hto⟩, hp1⟩, hp2⟩ := hw
  rw [outByte, if_pos hp, readReg_written haddr, readReg_written hop, readReg_written hto, readReg_written hp1,
    readReg_written hp2]

theorem cmdBytes_of_writtenFrame {bs : List Byte} {s : State} (h : writtenFrame bs s.cmd) : cmdBytes s = bs :=
  (congrArg (List.map Reg.value) h).trans (by simp [Function.comp_def])

/-- An OUT_BYTE sends its write frame and then the flipped frame of the same location, once for each read attempt and so
at least once; OPCODE stays (R163, R164, R167). -/
theorem outByte_sends {s : State} (hp : powered s = true) (hw : writeReady s = true) (b : Build) (d : Byte) :
    ∃ t n, outByte b d s = .next t ∧ t.opcode = s.opcode ∧
      sentBits s t = ((frameHeadAt b.width s.opcode.value s.address.value ++ [d]) ++
        (List.replicate (n + 1) (pollHeadAt b.width b.flipMask s.opcode.value s.address.value ++ [d])).flatten).flatMap
          bitsOf := by
  obtain ⟨x0, x1, x2, x3, v, hpoll, hv, hcmd, hwrite, _⟩ :=
    writeFrame_starts b d s.address.value s.opcode.value s
  obtain ⟨init, r, hpolled, _⟩ := pollFrom_cases b.wrap16 1 v
  obtain ⟨_, _, _, _, _, _, _, hreads, _⟩ := hpolled.traffic
  refine ⟨_, init.length, outByte_ready hp hw b d, ?_, ?_⟩
  · rw [hpoll, hpolled.only, hv]
  · rw [hpoll, (hwrite.trans hreads).read.1, cmdBytes_of_writtenFrame hcmd, List.length_append, List.length_singleton]

/-! The frames of a flash location (R88, R141, R164). -/

theorem frameHeadAt_flash {op : Byte} (h : op.getLsbD 7 = false) (w : DoubleWidth) (k : Half) :
    frameHeadAt w op k = [frameByte0 op k.toNat, frameByte1 k.toNat, frameByte2 k.toNat] := by
  rw [← frame_head, effectiveAddress_flash h]

/-- The poll's frame has the flipped opcode in byte 0, with the H bit of the same location (R164). -/
theorem pollHeadAt_flash {op m : Byte} (h : op.getLsbD 7 = false) (hm : 0x08#8 &&& m = 0#8) (w : DoubleWidth)
    (k : Half) :
    pollHeadAt w m op k = [frameByte0 (op ^^^ m) k.toNat, frameByte1 k.toNat, frameByte2 k.toNat] := by
  rw [pollHeadAt, frameHeadAt_flash h]
  exact congrArg (· :: _) (frameByte0_xor hm op k.toNat)

/-- Settles O35: the read setup leaves OPCODE at 0x20, the OUT_BYTE sends the frame of that opcode and then at least one
frame of the flipped one. -/
theorem strobeUsesTheLastSetup : Obligations.StrobeUsesTheLastSetup := by
  intro addr d s hp hto hp1 hp2
  let s1 : State := { s with
    address := ⟨addr, true⟩, opcode := ⟨0x20#8, true⟩, reply := .setup .streamed, fresh := s.fresh + 1 }
  have hready : writeReady s1 = true := by simp [writeReady, s1, hto, hp1, hp2]
  obtain ⟨t, n, hrun, hop, hsent⟩ : ∃ t n, exec (.outByte d) s1 = .next t ∧ t.opcode = ⟨0x20#8, true⟩ ∧
      sentBits s1 t = ((frameHeadAt .w16 0x20#8 addr ++ [d]) ++
        (List.replicate (n + 1) (pollHeadAt .w16 0x60#8 0x20#8 addr ++ [d])).flatten).flatMap bitsOf :=
    outByte_sends (s := s1) hp hready Config.build d
  rw [frameHeadAt_flash rfl, pollHeadAt_flash rfl rfl, List.replicate_succ, List.flatten_cons] at hsent
  refine ⟨s1, t, _, _, readSetup_powered hp Config.opcFlashRead addr, hrun, rfl, hsent, ?_, hop⟩
  rw [hsent]
  rfl

end Sys2Proof.Proofs
end

section
/-! SUPPORT. How a command can end (O44), what a step does from each position of SEQ (O53, O54), and that a step from a
state of the invariant is never refused (O57). -/
namespace Sys2Proof.Proofs

open Sys2Proof.Machine Sys2Proof.Safety Sys2Proof.Laws

/-! How a command can end (R86, R109, R201). -/

/-- The ends a command can come to: it completes, or faults as the reserved kind, or faults as a powered strobe on an
unwritten register. -/
inductive CommandEnds (i : Instr) (s : State) : Result → Prop where
  | next (t : State) : CommandEnds i s (.next t)
  | reserved (hi : i = .reserved) : CommandEnds i s (.fault .reservedCommand)
  | unwritten (name : RegName) (hp : powered s = true) (hi : i = .inByte ∨ ∃ d, i = .outByte d) :
      CommandEnds i s (.fault (.unwrittenRead name))

/-- A gated SETUP command always completes (R101). -/
theorem commandEnds_gatedSetup (i : Instr) (body : State → State) (s : State) :
    CommandEnds i s (gatedSetup body s) := by
  unfold gatedSetup
  split
  · exact .next _
  · exact .next _

theorem commandEnds_execPollBytes (i : Instr) (p1 p2 : Byte) (s : State) : CommandEnds i s (execPollBytes p1 p2 s) :=
  commandEnds_gatedSetup ..

theorem commandEnds_readSetup (i : Instr) (op : Byte) (addr : Half) (s : State) :
    CommandEnds i s (readSetup op addr s) := commandEnds_gatedSetup ..

theorem commandEnds_writeSetup (i : Instr) (op : Byte) (addr timeout : Half) (s : State) :
    CommandEnds i s (writeSetup op addr timeout s) := commandEnds_gatedSetup ..

/-- `read(R)` by a powered strobe ends as what follows it does, or in the fault (R7). -/
theorem commandEnds_readReg {i : Instr} {s : State} (hp : powered s = true) (hi : i = .inByte ∨ ∃ d, i = .outByte d)
    {w : Nat} {name : RegName} {r : Reg w} {cont : BitVec w → Result} (h : ∀ v, CommandEnds i s (cont v)) :
    CommandEnds i s (readReg name r cont) := by
  cases hw : r.written with
  | true =>
    rw [readReg_written hw]
    exact h _
  | false =>
    rw [readReg_unwritten hw]
    exact .unwritten name hp hi

theorem commandEnds_inByte (w : DoubleWidth) (s : State) : CommandEnds .inByte s (inByte w s) := by
  cases hp : powered s with
  | false =>
    rw [inByte_unpowered hp]
    exact .next _
  | true =>
    have read := @commandEnds_readReg .inByte s hp (.inl rfl)
    rw [inByte, if_pos hp]
    exact read fun _ => read fun _ => .next _

theorem commandEnds_outByte (b : Build) (d : Byte) (s : State) : CommandEnds (.outByte d) s (outByte b d s) := by
  cases hp : powered s with
  | false =>
    rw [outByte_unpowered hp]
    exact .next _
  | true =>
    have read := @commandEnds_readReg (.outByte d) s hp (.inr ⟨d, rfl⟩)
    rw [outByte, if_pos hp]
    exact read fun _ => read fun _ => read fun _ => read fun _ => read fun _ => .next _

/-- Every command on the port comes to one of these ends, in every state (R100, R109). -/
theorem commandEnds_exec (i : Instr) (s : State) : CommandEnds i s (exec i s) := by
  cases i with
  | echo data => exact .next _
  | read => exact .next _
  | write v i => exact .next _
  | clr v i => exact .next _
  | set v i => exact .next _
  | ddrwrite v i => exact .next _
  | powerup sck rst => exact .next _
  | powerdown => exact .next _
  | spi d0 d1 d2 d3 => exact commandEnds_gatedSetup ..
  | spi1 d0 => exact commandEnds_gatedSetup ..
  | pollBytes p1 p2 => exact commandEnds_execPollBytes ..
  | flashRead addr => exact commandEnds_readSetup ..
  | eepromRead addr => exact commandEnds_readSetup ..
  | flashWrite addr timeout => exact commandEnds_writeSetup ..
  | eepromWrite addr timeout => exact commandEnds_writeSetup ..
  | unknown0F => exact .next _
  | unknown10 _ => exact .next _
  | unknown20 _ => exact .next _
  | unknown40 _ => exact .next _
  | unknown80 _ => exact .next _
  | inByte => exact commandEnds_inByte ..
  | outByte d => exact commandEnds_outByte ..
  | reserved => exact .reserved rfl

/-- No end of a command is a refusal (R109). -/
theorem exec_ne_refused (i : Instr) (s : State) (r : Refusal) : exec i s ≠ .refused r := by
  intro h
  have hends := commandEnds_exec i s
  rw [h] at hends
  cases hends

/-- Settles O44, by the ends a command can come to. -/
theorem onlyTwoFaultsExist : Obligations.OnlyTwoFaultsExist := by
  refine fun i s => ⟨exec_ne_refused i s, fun f hf => ?_⟩
  have hends := commandEnds_exec i s
  rw [hf] at hends
  cases hends with
  | reserved hi => exact .inl ⟨hi, rfl⟩
  | unwritten name hp hi => exact .inr ⟨hp, hi, name, rfl⟩

/-! What a step does (R100, R110, R211). -/

/-- An idle engine with nothing presented waits (R211). -/
theorem step_waiting {s : State} (hq : s.seq = .idle) (hc : s.pending = []) : step s = .next s := by
  simp [step, stepWith, takeCommand, hq, hc]

/-- An idle engine runs the next command on the port, as the decoder gives it (R100, R110). -/
theorem step_command {s : State} {c : PortCommand} {rest : List PortCommand} (hq : s.seq = .idle)
    (hc : s.pending = c :: rest) : step s = exec (decode c) { s with pending := rest } :=
  stepWith_idle hq hc ..

/-- A busy engine goes on with its poll (R110; log entry 13). -/
theorem step_polling {s : State} {k : Nat} (hq : s.seq = .poll k) : step s = .next (pollFrom false k s) := by
  simp [step, stepWith, hq, Config.pollElapsedWrap16]

/-- Settles O53: a presented table word is the next command of an idle engine. -/
theorem stepRunsTheDecodedCommand : Obligations.StepRunsTheDecodedCommand :=
  ⟨fun _ _ _ hq hc => step_command hq hc, fun s nbits w =>
    ⟨decode (tableCommand nbits w), rfl, step_command (s := s.withFetchWord nbits w) rfl rfl⟩⟩

/-- Settles O54: an idle step waits, and read attempts touch neither the port nor ADDRESS and CMD. -/
theorem busyEngineAcceptsNothing : Obligations.BusyEngineAcceptsNothing := by
  refine ⟨fun s hq hc => step_waiting hq hc, fun s k hq => ⟨_, step_polling hq, ?_⟩⟩
  obtain ⟨rs, _, hpolled⟩ := pollFrom_polled false k s
  refine ⟨?_, ?_, address_of_polled hpolled, ?_⟩ <;> rw [hpolled.only]

/-- Settles O57: an idle step waits or runs a command, which is never refused; a busy one goes on with its poll, and the
invariant keeps SEQ out of a TRANSFER. -/
theorem invariantStepsAreNeverRefused : Obligations.InvariantStepsAreNeverRefused := by
  intro s hs r hstep
  cases hq : s.seq with
  | idle =>
    cases hc : s.pending with
    | nil =>
      rw [step_waiting hq hc] at hstep
      cases hstep
    | cons c rest =>
      rw [step_command hq hc] at hstep
      exact exec_ne_refused _ _ r hstep
  | poll k =>
    rw [step_polling hq] at hstep
    cases hstep
  | xfer n i j phase =>
    have hrest := hs.seq
    rw [SeqRest, hq] at hrest
    exact hrest

end Sys2Proof.Proofs
end

section
/-! SUPPORT. The generic requests (O2, O3, O4), the unknown request codes (O5) and the powered gate (O9). -/
namespace Sys2Proof.Proofs

open Sys2Proof.Machine Sys2Proof.Safety Sys2Proof.Laws

/-- Settles O2: code 0 is ECHO, which only answers. -/
theorem echoReturnsItsPacket : Obligations.EchoReturnsItsPacket :=
  ⟨fun p d h => (decode_setup h d).trans (decodeCode_echo _ p), fun _ _ => rfl⟩

/-- Settles O3: code 1 is READ, which takes one free byte for the draw and moves on past the answer's. -/
theorem readReturnsOneDrawnByte : Obligations.ReadReturnsOneDrawnByte :=
  ⟨fun _ d h => decode_setup h d, fun _ => rfl⟩

/-- A request handed to the logic outside leaves the block as it is, the answer apart (R104). -/
theorem outsideRequest_eq (r : GpioRequest) (s : State) : outsideRequest r s = .next { s with
    reply := .setup .none, fresh := s.fresh + 1, outside := Config.gpioEffect r s.outside } := rfl

/-- Settles O4: the four codes, and the one operation their commands share. -/
theorem gpioRequestsLeaveTheBlock : Obligations.GpioRequestsLeaveTheBlock :=
  ⟨fun _ d => ⟨fun h => decode_setup h d, fun h => decode_setup h d, fun h => decode_setup h d,
      fun h => decode_setup h d⟩,
    fun v i s => ⟨outsideRequest_eq (.write v i) s, outsideRequest_eq (.clr v i) s, outsideRequest_eq (.set v i) s,
      outsideRequest_eq (.ddrwrite v i) s⟩⟩

/-- An unknown code is acknowledged, and moves nothing (R108). -/
theorem ignored_eq (s : State) : ignored s = .next { s with reply := .setup .none, fresh := s.fresh + 1 } := rfl

/-- Settles O5: a code from 15 up decodes to the row of a code no command has, and each such row is ignored. -/
theorem unknownCodesChangeNothing : Obligations.UnknownCodesChangeNothing := by
  refine ⟨fun p d s h => ?_, fun s => ⟨ignored_eq s, fun _ => ignored_eq s, fun _ => ignored_eq s,
    fun _ => ignored_eq s, fun _ => ignored_eq s⟩⟩
  rw [decode_setup rfl, decodeCode_unknown h, ← execFor_build, execFor_unknownOf, ignored_eq]

theorem execPollBytes_unpowered {s : State} (h : powered s = false) (p1 p2 : Byte) :
    execPollBytes p1 p2 s = .next (respond .none s) := gatedSetup_unpowered h

/-- Settles O9: the gate on the seven setup commands, and on each strobe. -/
theorem gatedCommandsAreNoOpsUnpowered : Obligations.GatedCommandsAreNoOpsUnpowered := by
  refine fun s hp => ⟨?_, inByte_unpowered hp _, outByte_unpowered hp _⟩
  rintro i (⟨d0, d1, d2, d3, rfl⟩ | ⟨d0, rfl⟩ | ⟨p1, p2, rfl⟩ | ⟨addr, rfl⟩ | ⟨addr, timeout, rfl⟩ | ⟨addr, rfl⟩ |
    ⟨addr, timeout, rfl⟩)
  · exact gatedSetup_unpowered hp
  · exact gatedSetup_unpowered hp
  · exact execPollBytes_unpowered hp p1 p2
  · exact readSetup_unpowered hp ..
  · exact writeSetup_unpowered hp ..
  · exact readSetup_unpowered hp ..
  · exact writeSetup_unpowered hp ..

end Sys2Proof.Proofs
end

section
/-! SUPPORT. What a TRANSFER does, as the claims about the shifting commands say it: the exchange of a raw frame (O15,
O16), where it leaves the lines (O19), the two strategies (O18), and the order of the line events of every frame (O17,
O59). -/
namespace Sys2Proof.Proofs

open Sys2Proof.Machine Sys2Proof.Safety Sys2Proof.Laws

/-! The raw frame (R129, R130). -/

/-- From `s` to `t` the bytes `out` were exchanged for those sampled, which are the answer, and no register moved. -/
def Exchanges (out : List Byte) (s t : State) : Prop :=
  sentBits s t = out.flatMap bitsOf ∧ (receivedBits s t).length = 8 * out.length ∧
    t.reply = .setup (.immediate (bytesOf out.length (receivedBits s t))) ∧
    (8 * out.length ≤ s.miso.length → receivedBits s t = s.miso.take (8 * out.length)) ∧
    strategyOf t.shifter = strategyOf s.shifter ∧ OnlyLines s t

/-- Answering after a TRANSFER changes nothing a raw frame may not (R129). -/
theorem onlyLines_respond {s t : State} (h : OnlyWires s t) (p : DataPhase) : OnlyLines s (respond p t) := by
  unfold OnlyWires at h
  rw [h]
  rfl

theorem rawFrame_exchanges (out : List Byte) (s : State) : Exchanges out s (rawFrame out s) := by
  obtain ⟨recv, t, hsent, hraw⟩ := rawFrame_sent out s
  have htraffic : Traffic s (rawFrame out s) out recv _ _ := hsent.traffic.congr rfl (by rw [hraw]; rfl)
  obtain ⟨hout, hin, -⟩ := htraffic.read
  refine ⟨hout, ?_, ?_, fun hm => ?_, ?_, ?_⟩
  · rw [hin, flatMap_bitsOf_length, hsent.len]
  · rw [hin, hraw, respond_reply, ← hsent.len, bytesOf_flatMap]
  · obtain ⟨hrecv, -⟩ := hsent.fixed hm
    rw [hin, hrecv, ← bytesOf_take, flatMap_bytesOf _ _ (by simpa using hm)]
  · rw [hraw, respond_shifter, hsent.strategy]
  · rw [hraw]
    exact onlyLines_respond hsent.only _

/-- Settles O15: code 7 is SPI, a raw frame of the four payload bytes behind the gate. -/
theorem spiExchangesFourBytes : Obligations.SpiExchangesFourBytes :=
  ⟨fun _ d h => decode_setup h d, fun d0 d1 d2 d3 s =>
    ⟨fun hp => ⟨_, gatedSetup_powered hp, rawFrame_exchanges [d0, d1, d2, d3] s⟩, fun hp => gatedSetup_unpowered hp⟩⟩

/-- A sequence of eight bits is one byte (R122). -/
theorem bytesOf_one {bits : List Bool} (h : bits.length = 8) : bytesOf 1 bits = [byteOf bits] := by
  simpa [bytesOf] using bytesOf_append bits [] h 0

/-- Settles O16: code 14 is SPI1, a raw frame of the one payload byte behind the gate. -/
theorem spiOneExchangesOneByte : Obligations.SpiOneExchangesOneByte := by
  refine ⟨fun p d h => (decode_setup h d).trans (decodeCode_spi1 p), fun d0 s =>
    ⟨fun hp => ⟨_, gatedSetup_powered hp, ?_⟩, fun hp => gatedSetup_unpowered hp⟩⟩
  obtain ⟨hout, hlen, hreply, hrest⟩ := rawFrame_exchanges [d0] s
  exact ⟨by simpa using hout, hlen, hreply.trans (by rw [List.length_singleton, bytesOf_one hlen]), hrest⟩

/-! Where the lines stand after shifting (R127). -/

/-- LINE_OE and the levels of IND and RST are as before, and SCK is idle. -/
def LeavesClockIdle (s t : State) : Prop :=
  t.lineOE = s.lineOE ∧ lineAt t.lineOL .ind = lineAt s.lineOL .ind ∧ lineAt t.lineOL .rst = lineAt s.lineOL .rst ∧
    lineAt t.lineOL .sck = false

theorem LeavesClockIdle.trans {s t u : State} (h1 : LeavesClockIdle s t) (h2 : LeavesClockIdle t u) :
    LeavesClockIdle s u := by
  obtain ⟨hoe, hind, hrst, -⟩ := h1
  obtain ⟨hoe', hind', hrst', hsck⟩ := h2
  exact ⟨hoe'.trans hoe, hind'.trans hind, hrst'.trans hrst, hsck⟩

theorem leavesClockIdle_of_sent {out inn : List Byte} {s t : State} (h : Sent out inn s t) (hne : out ≠ []) :
    LeavesClockIdle s t :=
  ⟨by rw [h.only], h.ind, h.rst, h.sck hne⟩

theorem leavesClockIdle_of_polled {rs : List Byte} {s t : State} (h : Polled rs s t) (hne : rs ≠ []) :
    LeavesClockIdle s t :=
  ⟨by rw [h.only], h.ind, h.rst, h.sck.trans (by simp [hne])⟩

theorem leavesClockIdle_rawFrame {payload : List Byte} (hne : payload ≠ []) (s : State) :
    LeavesClockIdle s (rawFrame payload s) := by
  obtain ⟨recv, t, hsent, hraw⟩ := rawFrame_sent payload s
  have hidle : LeavesClockIdle s t := leavesClockIdle_of_sent hsent hne
  rw [hraw]
  exact hidle

theorem leavesClockIdle_encodeTransfer (w : DoubleWidth) (k : Half) (op : Byte) (s : State) :
    LeavesClockIdle s (encodeTransfer w k op s) := by
  obtain ⟨b3, s1, x0, x1, x2, x3, t, hfrom, hsent, heq⟩ := encodeTransfer_sent w k op s
  have hidle := leavesClockIdle_of_sent hsent (by simp)
  rw [heq]
  rcases hfrom with ⟨_, _, rfl⟩ | ⟨_, rfl⟩
  · exact hidle
  · exact hidle

/-- The write cycle of an OUT_BYTE with the poll it starts (R163, R167). -/
theorem leavesClockIdle_poll_writeCycle (b : Build) (d : Byte) (k : Half) (op : Byte) (s : State) :
    LeavesClockIdle s (poll b.wrap16 (writeCycle b d k op (answer .out s))) := by
  obtain ⟨_, _, _, _, v, hpoll, hv, _, _, _, _, hind, hrst, hsck⟩ := writeFrame_starts b d k op s
  obtain ⟨rs, hne, hpolled⟩ := pollFrom_polled b.wrap16 1 v
  have hwrite : LeavesClockIdle s v := ⟨by rw [hv], hind, hrst, hsck⟩
  rw [hpoll]
  exact hwrite.trans (leavesClockIdle_of_polled hpolled hne)

theorem leavesClockIdle_inByte {w : DoubleWidth} {s t : State} (hp : powered s = true) (h : inByte w s = .next t) :
    LeavesClockIdle s t := by
  simp only [inByte, if_pos hp, readReg_eq_next] at h
  obtain ⟨_, _, ⟨⟩⟩ := h
  exact leavesClockIdle_encodeTransfer w s.address.value s.opcode.value s

theorem leavesClockIdle_outByte {b : Build} {d : Byte} {s t : State} (hp : powered s = true)
    (h : outByte b d s = .next t) : LeavesClockIdle s t := by
  simp only [outByte, if_pos hp, readReg_eq_next] at h
  obtain ⟨_, _, _, _, _, ⟨⟩⟩ := h
  exact leavesClockIdle_poll_writeCycle b d s.address.value s.opcode.value s

theorem leavesClockIdle_gatedRawFrame {payload : List Byte} {s t : State} (hne : payload ≠ [])
    (hp : powered s = true) (h : gatedSetup (rawFrame payload) s = .next t) : LeavesClockIdle s t := by
  rw [gatedSetup_powered hp] at h
  cases h
  exact leavesClockIdle_rawFrame hne s

/-- Settles O19: a raw frame for SPI and SPI1, the encoded frame for IN_BYTE, the write cycle and its poll for
OUT_BYTE. -/
theorem transfersLeaveClockIdle : Obligations.TransfersLeaveClockIdle := by
  rintro i s t hp h (⟨d0, d1, d2, d3, rfl⟩ | ⟨d0, rfl⟩ | rfl | ⟨d, rfl⟩)
  · exact leavesClockIdle_gatedRawFrame (by simp) hp h
  · exact leavesClockIdle_gatedRawFrame (by simp) hp h
  · exact leavesClockIdle_inByte hp h
  · exact leavesClockIdle_outByte hp h

/-! The two strategies against the clear form of the protocol (R126). -/

/-- A TRANSFER under either strategy is the run of its slots in the clear form, which knows only the wire. -/
theorem transfer_refRun (out : List Byte) (s : State) :
    let run := refRun out.length (halfPeriod s) (slots 0 out) (wireOf s)
    (transfer out s).1 = bytesOf out.length run.1 ∧ wireOf (transfer out s).2 = run.2 := by
  obtain ⟨bits, t, hshifts, hstate, hbytes, -⟩ := transfer_shifts out s
  rw [hshifts.wire]
  exact ⟨hbytes, by rw [hstate]; rfl⟩

theorem transfer_sentBits (out : List Byte) (s : State) : sentBits s (transfer out s).2 = out.flatMap bitsOf :=
  (transfer_sent out s).traffic.read.1

/-- Settles O18: the strategy's own state is no part of the wire, so both strategies run the same slots on it. -/
theorem strategiesAreIndistinguishable : Obligations.StrategiesAreIndistinguishable := by
  intro out s mask acc sr ec done sB sH
  obtain ⟨hbytesB, hwireB⟩ := transfer_refRun out sB
  obtain ⟨hbytesH, hwireH⟩ := transfer_refRun out sH
  have hwire : wireOf (transfer out sB).2 = wireOf (transfer out sH).2 := hwireB.trans hwireH.symm
  exact ⟨hbytesB.trans hbytesH.symm, (transfer_sentBits out sB).trans (transfer_sentBits out sH).symm,
    transfer_sentBits out sB, congrArg Prod.snd hwire, congrArg Prod.fst hwire⟩

/-! The order of the line events (R120 to R125). -/

theorem protocolBetween_of_traffic {s t : State} {sent recv : List Byte} {units : Nat} {events : List LineEvent}
    (h : Traffic s t sent recv units events) : protocolBetween s t = events := by
  obtain ⟨-, -, -, -, hprotocol⟩ := h.read
  exact hprotocol

theorem receivedBytes_of_traffic {s t : State} {sent recv : List Byte} {units : Nat} {events : List LineEvent}
    (h : Traffic s t sent recv units events) : receivedBytes s t = recv := by
  obtain ⟨-, -, hreceived, -⟩ := h.read
  exact hreceived

/-- The half-period by the register's value (R123). -/
theorem halfPeriod_eq (s : State) :
    halfPeriod s = if s.sckPeriod.value = 0#8 then Config.zeroPeriodHalf else s.sckPeriod.value.toNat := by
  have hzero : 1 ≤ s.sckPeriod.value.toNat ↔ ¬ s.sckPeriod.value = 0#8 :=
    Nat.one_le_iff_ne_zero.trans (not_congr (BitVec.toNat_inj (y := 0#8)))
  simp only [halfPeriod, hzero, ite_not]

/-- The line events of a raw frame, with the bytes it answers (R129, R130). -/
theorem rawFrame_protocol (payload : List Byte) (s : State) : ∃ inn, inn.length = payload.length ∧
    (rawFrame payload s).reply = .setup (.immediate inn) ∧
    protocolBetween s (rawFrame payload s) = frameEvents (strategyOf s.shifter) (halfPeriod s) payload inn := by
  obtain ⟨inn, t, hsent, hraw⟩ := rawFrame_sent payload s
  have hprotocol := protocolBetween_of_traffic hsent.traffic
  rw [hraw]
  exact ⟨inn, hsent.len, rfl, hprotocol⟩

/-- Settles O17: the one byte of the frame is its eight bit cycles, with the byte received for the answers. -/
theorem oneByteFrameIsEightBitCycles : Obligations.OneByteFrameIsEightBitCycles := by
  intro d0 s hp h
  obtain ⟨inn, hlen, -, hprotocol⟩ := rawFrame_protocol [d0] s
  obtain ⟨r, rfl⟩ := List.length_eq_one_iff.mp hlen
  rw [halfPeriod_eq] at hprotocol
  have hbyte : frameEvents (strategyOf s.shifter) h [d0] [r] = byteEvents (strategyOf s.shifter) 1 h 0 d0 r :=
    List.append_nil _
  refine ⟨_, r.getLsbD, gatedSetup_powered hp,
    ((List.filter_congr (q := onProtocol) fun e _ => ?_).trans (hprotocol.trans hbyte)).trans ?_⟩
  · cases e <;> rfl
  · cases s.shifter with
    | bitbang mask acc => rfl
    | hwshift sr ec done => rfl

/-- The line events of an encoded frame; byte 3 sent is CMD[3] where it is written, and RES holds the bytes received
(R140 to R144). -/
theorem encodeTransfer_protocol (w : DoubleWidth) (k : Half) (op : Byte) (s : State) : ∃ b3 inn,
    (s.cmd.b3.written = true → b3 = s.cmd.b3.value) ∧ inn.length = 4 ∧
    writtenFrame inn (encodeTransfer w k op s).res ∧
    protocolBetween s (encodeTransfer w k op s) =
      frameEvents (strategyOf s.shifter) (halfPeriod s) (frameHeadAt w op k ++ [b3]) inn := by
  obtain ⟨b3, s1, x0, x1, x2, x3, t, hfrom, hsent, heq⟩ := encodeTransfer_sent w k op s
  have hprotocol := protocolBetween_of_traffic hsent.traffic
  rw [heq]
  refine ⟨b3, [x0, x1, x2, x3], fun hw => ?_, rfl, rfl, ?_⟩
  · rcases hfrom with ⟨_, hb3, _⟩ | ⟨hunwritten, _⟩
    · exact hb3
    · simp [hw] at hunwritten
  · rcases hfrom with ⟨_, _, rfl⟩ | ⟨_, rfl⟩
    · exact hprotocol
    · exact hprotocol

theorem inByte_ready {s : State} (hp : powered s = true) (haddr : s.address.written = true)
    (hop : s.opcode.written = true) (w : DoubleWidth) :
    let t := encodeTransfer w s.address.value s.opcode.value s
    inByte w s = .next (answer (.inData t.res.b3.value) t) := by
  rw [inByte, if_pos hp, readReg_written haddr, readReg_written hop]

/-- A poll repeats the frame in CMD, at least once (R164, R167). -/
theorem pollFrom_frames (wrap16 : Bool) (k : Nat) (s : State) : ∃ frames : List (List Byte), frames ≠ [] ∧
    (∀ f ∈ frames, f.length = 4) ∧ ∃ units, Traffic s (pollFrom wrap16 k s)
      (List.replicate frames.length (cmdBytes s)).flatten frames.flatten units
      (frames.flatMap (frameEvents (strategyOf s.shifter) (halfPeriod s) (cmdBytes s))) := by
  obtain ⟨rs, hne, hpolled⟩ := pollFrom_polled wrap16 k s
  obtain ⟨frames, _, rfl, hcount, hfour, _, _, htraffic, _⟩ := hpolled.traffic
  rw [← hcount] at htraffic
  refine ⟨frames, ?_, hfour, _, htraffic⟩
  rintro rfl
  exact hne (List.length_eq_zero_iff.mp hcount.symm)

/-- An OUT_BYTE makes one write frame and then its poll's read frames (R163, R167). -/
theorem poll_writeCycle_frames (b : Build) (d : Byte) (k : Half) (op : Byte) (s : State) :
    ∃ (first : List Byte) (frames : List (List Byte)), frames ≠ [] ∧ (∀ f ∈ first :: frames, f.length = 4) ∧
      ∃ sent units, Traffic s (poll b.wrap16 (writeCycle b d k op (answer .out s))) sent (first :: frames).flatten units
        (frameEvents (strategyOf s.shifter) (halfPeriod s) (frameHeadAt b.width op k ++ [d]) first ++
          frames.flatMap
            (frameEvents (strategyOf s.shifter) (halfPeriod s) (pollHeadAt b.width b.flipMask op k ++ [d]))) := by
  obtain ⟨x0, x1, x2, x3, v, hpoll, hv, hcmd, hwrite, hstrategy, _⟩ := writeFrame_starts b d k op s
  obtain ⟨frames, hne, hfour, _, hreads⟩ := pollFrom_frames b.wrap16 1 v
  have hperiod : halfPeriod v = halfPeriod s := by rw [hv]; rfl
  rw [cmdBytes_of_writtenFrame hcmd, hstrategy, hperiod] at hreads
  rw [hpoll]
  exact ⟨_, frames, hne, List.forall_mem_cons.mpr ⟨rfl, hfour⟩, _, _, hwrite.trans hreads⟩

/-- Settles O59: each clause by the traffic of its frames. -/
theorem framesAreBitCyclesInOrder : Obligations.FramesAreBitCyclesInOrder := by
  intro s st h cmd head again
  have hhalf : halfPeriod s = h := halfPeriod_eq s
  refine ⟨fun out => ?_, fun hp d0 d1 d2 d3 => ?_, fun hp haddr hop => ?_, fun hp hw d => ?_, fun k hq => ?_⟩
  · have hsent := transfer_sent out s
    exact ⟨hsent.len, hhalf ▸ protocolBetween_of_traffic hsent.traffic⟩
  · obtain ⟨inn, hlen, hreply, hprotocol⟩ := rawFrame_protocol [d0, d1, d2, d3] s
    exact ⟨_, inn, gatedSetup_powered hp, hlen, hreply, hhalf ▸ hprotocol⟩
  · obtain ⟨b3, inn, hb3, hlen, hres, hprotocol⟩ :=
      encodeTransfer_protocol Config.eepromDoubleWidth s.address.value s.opcode.value s
    exact ⟨_, b3, inn, inByte_ready hp haddr hop _, hb3, hlen, hres, hhalf ▸ hprotocol⟩
  · obtain ⟨first, frames, hne, hfour, _, _, htraffic⟩ :=
      poll_writeCycle_frames Config.build d s.address.value s.opcode.value s
    exact ⟨_, first, frames, outByte_ready hp hw Config.build d, hne, hfour, receivedBytes_of_traffic htraffic,
      hhalf ▸ protocolBetween_of_traffic htraffic⟩
  · obtain ⟨frames, hne, hfour, _, htraffic⟩ := pollFrom_frames false k s
    exact ⟨_, frames, step_polling hq, hne, hfour, receivedBytes_of_traffic htraffic,
      hhalf ▸ protocolBetween_of_traffic htraffic⟩

end Sys2Proof.Proofs
end

section
/-! SUPPORT. The reading commands and their frame: the setups (O10, O11), the faults of IN_BYTE (O21), the frame it sends
and stores (O20), and the strobes of any build (O34); and the effective address in the two modes (O42). -/
namespace Sys2Proof.Proofs

open Sys2Proof.Machine Sys2Proof.Safety Sys2Proof.Laws

/-! The read setups (R145, R146). -/

/-- Settles O10: code 9 is FLASH_READ, a read setup with OPC_FLASH_READ behind the gate. -/
theorem flashReadSetsAddressAndOpcode : Obligations.FlashReadSetsAddressAndOpcode :=
  ⟨fun p d h => (decode_setup h d).trans (decodeCode_flashRead _ p), fun addr _ =>
    ⟨fun hp => readSetup_powered hp Config.opcFlashRead addr,
      fun hp => readSetup_unpowered hp Config.opcFlashRead addr⟩⟩

/-- Settles O11: code 11 is EEPROM_READ, a read setup with OPC_EEPROM_READ behind the gate. -/
theorem eepromReadSetsAddressAndOpcode : Obligations.EepromReadSetsAddressAndOpcode :=
  ⟨fun p d h => (decode_setup h d).trans (decodeCode_eepromRead _ p), fun addr _ =>
    ⟨fun hp => readSetup_powered hp Config.opcEepromRead addr,
      fun hp => readSetup_unpowered hp Config.opcEepromRead addr⟩⟩

/-! IN_BYTE's reads, in their order (R140, R147). -/

/-- Settles O21: ADDRESS is read first, then OPCODE. -/
theorem inByteFaultsOnUnwritten : Obligations.InByteFaultsOnUnwritten := by
  refine fun s hp => ⟨fun haddr => ?_, fun haddr hop => ?_⟩
  · rw [exec, execInByte, inByte, if_pos hp, readReg_unwritten haddr]
  · rw [exec, execInByte, inByte, if_pos hp, readReg_written haddr, readReg_unwritten hop]

/-! The effective address (R140). -/

/-- Settles O42: the flash address is the counter, and the EEPROM address its double at the width. -/
theorem eepromAddressIsTwiceTheFlashAddress : Obligations.EepromAddressIsTwiceTheFlashAddress := by
  intro w opE opF k hE hF
  rw [effectiveAddress_eeprom hE, effectiveAddress_flash hF]

/-! The encoded frame (R140 to R144). -/

/-- One frame of counter value `k` under opcode `op` was exchanged from `s` to `t`: `b3` was its fourth byte, `CMD[3]`
where that is written, and `inn` was received, the bits the run has fixed where it has fixed 32 (R31, R140 to R144). -/
structure FrameRead (w : DoubleWidth) (k : Half) (op b3 : Byte) (inn : List Byte) (s t : State) : Prop where
  payload : s.cmd.b3.written = true → b3 = s.cmd.b3.value
  len : inn.length = 4
  traffic : ∃ units events, Traffic s t (frameHeadAt w op k ++ [b3]) inn units events
  fixed : 32 ≤ s.miso.length → inn = bytesOf 4 s.miso
  cmd : t.cmd = (buildFrame w k op s).cmd
  res : writtenFrame inn t.res
  strategy : strategyOf t.shifter = strategyOf s.shifter
  only : OnlyRead s t

/-- ENCODE exchanges one frame of the location it is given. -/
theorem encodeTransfer_frameRead (w : DoubleWidth) (k : Half) (op : Byte) (s : State) :
    ∃ b3 inn, FrameRead w k op b3 inn s (encodeTransfer w k op s) := by
  obtain ⟨b3, s1, x0, x1, x2, x3, t, hfrom, hsent, heq⟩ := encodeTransfer_sent w k op s
  refine ⟨b3, [x0, x1, x2, x3], ?_⟩
  have hfixed : 32 ≤ s1.miso.length → [x0, x1, x2, x3] = bytesOf 4 s1.miso := fun hm => (hsent.fixed hm).1
  have honly := hsent.only
  unfold OnlyWires at honly
  rw [heq]
  rcases hfrom with ⟨_, hb3, rfl⟩ | ⟨hunwritten, rfl⟩
  · exact ⟨fun _ => hb3, rfl, ⟨_, _, hsent.traffic.congr rfl rfl⟩, hfixed, by rw [honly]; rfl, rfl, hsent.strategy,
      by rw [honly]; rfl⟩
  · exact ⟨fun hw => by simp [hw] at hunwritten, rfl, ⟨_, _, hsent.traffic.congr rfl rfl⟩, hfixed,
      by rw [honly]; rfl, rfl, hsent.strategy, by rw [honly]; rfl⟩

section
variable {w : DoubleWidth} {k : Half} {op b3 : Byte} {inn : List Byte} {s t : State}

/-- Answering changes nothing an encoded frame may not (R147). -/
theorem FrameRead.answer (h : FrameRead w k op b3 inn s t) (r : Reply) :
    FrameRead w k op b3 inn s (Machine.answer r t) := by
  obtain ⟨_, _, htraffic⟩ := h.traffic
  have honly := h.only
  unfold OnlyRead at honly
  exact ⟨h.payload, h.len, ⟨_, _, htraffic.congr rfl rfl⟩, h.fixed, h.cmd, h.res, h.strategy, by rw [honly]; rfl⟩

theorem FrameRead.sentBits (h : FrameRead w k op b3 inn s t) :
    sentBits s t = (frameHeadAt w op k ++ [b3]).flatMap bitsOf := by
  obtain ⟨_, _, htraffic⟩ := h.traffic
  obtain ⟨hsent, -⟩ := htraffic.read
  exact hsent

theorem FrameRead.receivedBits (h : FrameRead w k op b3 inn s t) : receivedBits s t = inn.flatMap bitsOf := by
  obtain ⟨_, _, htraffic⟩ := h.traffic
  obtain ⟨-, hreceived, -⟩ := htraffic.read
  exact hreceived

/-- `CMD[0..2]` hold the first three bytes of the frame, `CMD[3]` is as it was (R140). -/
theorem FrameRead.cmdBytes (h : FrameRead w k op b3 inn s t) :
    [t.cmd.b0, t.cmd.b1, t.cmd.b2] = (frameHeadAt w op k).map (fun b => (⟨b, true⟩ : Reg 8)) ∧
      t.cmd.b3 = s.cmd.b3 := by
  rw [h.cmd, ← frame_head]
  exact ⟨rfl, rfl⟩

end

/-- Powered, with its registers written, IN_BYTE exchanges the frame of the counter's location and answers the last byte
received (R147). -/
theorem inByte_reads {s : State} (hp : powered s = true) (haddr : s.address.written = true)
    (hop : s.opcode.written = true) (w : DoubleWidth) : ∃ t b3 inn, inByte w s = .next t ∧
      FrameRead w s.address.value s.opcode.value b3 inn s t ∧ t.reply = .inData t.res.b3.value := by
  obtain ⟨b3, inn, hread⟩ := encodeTransfer_frameRead w s.address.value s.opcode.value s
  exact ⟨_, b3, inn, inByte_ready hp haddr hop w, hread.answer _, rfl⟩

/-- Settles O20: the readings of the frame an IN_BYTE exchanges. -/
theorem inByteReadsThroughOneFrame : Obligations.InByteReadsThroughOneFrame := by
  intro s hp haddr hop
  obtain ⟨t, b3, inn, hrun, hread, hreply⟩ := inByte_reads hp haddr hop .w16
  obtain ⟨hcmd, hcmd3⟩ := hread.cmdBytes
  have hreceived := hread.receivedBits
  have hbytes : bytesOf 4 (inn.flatMap bitsOf) = inn := hread.len ▸ bytesOf_flatMap inn
  refine ⟨t, b3, hrun, hread.payload, hread.sentBits, ?_, fun hm => ?_, ?_, hcmd, hcmd3, ?_, hreply, hread.strategy,
    hread.only⟩
  · rw [hreceived, flatMap_bitsOf_length, hread.len]
  · rw [hreceived, hread.fixed hm, ← bytesOf_take, flatMap_bytesOf _ _ (by simpa using hm)]
  · rw [inByte_address hrun, if_pos hp]
  · rw [hreceived, hbytes]
    exact hread.res

/-! The strobes of any build (R5). -/

/-- The first 24 bits of what a strobe sends are bytes 0 to 2 of its frame (R122). -/
theorem take_frameHeadAt (w : DoubleWidth) (op : Byte) (k : Half) (rest : List Byte) :
    ((frameHeadAt w op k ++ rest).flatMap bitsOf).take 24 = (frameHeadAt w op k).flatMap bitsOf := by
  rw [List.flatMap_append]
  exact List.take_left' (flatMap_bitsOf_length _)

/-- Settles O34: the instructions of a build case by case, and the strobes by the frames they send. -/
theorem strobesFollowTheBuildsWidth : Obligations.StrobesFollowTheBuildsWidth := by
  refine ⟨execFor_build, fun b i s hin hout hfr her hfw hew => ?_, fun b s hp => ⟨fun haddr hop => ?_, fun hw d => ?_⟩⟩
  · cases i with
    | inByte => exact absurd rfl hin
    | outByte d => exact absurd rfl (hout d)
    | flashRead a => exact absurd rfl (hfr a)
    | eepromRead a => exact absurd rfl (her a)
    | flashWrite a t => exact absurd rfl (hfw a t)
    | eepromWrite a t => exact absurd rfl (hew a t)
    | _ => rfl
  · obtain ⟨t, b3, _, hrun, hread, _⟩ := inByte_reads hp haddr hop b.width
    refine ⟨t, hrun, ?_, ?_, ?_⟩
    · rw [hread.sentBits, flatMap_bitsOf_length]; rfl
    · rw [hread.sentBits, take_frameHeadAt]
    · rw [inByte_address hrun, if_pos hp]
  · obtain ⟨t, n, hrun, -, hsent⟩ := outByte_sends hp hw b d
    refine ⟨t, n + 1, hrun, Nat.le_add_left 1 n, hsent, ?_⟩
    rw [outByte_address hrun, if_pos hp]

end Sys2Proof.Proofs
end

section
/-! SUPPORT. A queue of strobes walks the address counter (O40): what each strobe keeps for the next one, when an
OUT_BYTE ends in its step, and the induction over the strobes. -/
namespace Sys2Proof.Proofs

open Sys2Proof.Machine Sys2Proof.Safety Sys2Proof.Laws

/-! What the strobes leave alone (R147, R163). -/

/-- What an IN_BYTE may change an OUT_BYTE may change too. -/
theorem onlyWrite_of_onlyRead {s t : State} (h : OnlyRead s t) : OnlyWrite s t := by
  unfold OnlyRead at h
  rw [h]
  rfl

/-- The write cycle of an OUT_BYTE and the poll it starts (R163, R167). -/
theorem poll_writeCycle_onlyWrite (b : Build) (d : Byte) (k : Half) (op : Byte) (s : State) :
    OnlyWrite s (poll b.wrap16 (writeCycle b d k op (answer .out s))) := by
  obtain ⟨_, _, _, _, v, hpoll, hv, _⟩ := writeFrame_starts b d k op s
  obtain ⟨rs, _, hpolled⟩ := pollFrom_polled b.wrap16 1 v
  unfold OnlyWrite
  rw [hpoll, hpolled.only, hv]

theorem outByte_onlyWrite {b : Build} {d : Byte} {s t : State} (h : outByte b d s = .next t) : OnlyWrite s t := by
  unfold outByte at h
  split at h
  · simp only [readReg_eq_next] at h
    obtain ⟨_, _, _, _, _, ⟨⟩⟩ := h
    exact poll_writeCycle_onlyWrite ..
  · cases h
    rfl

/-! When an OUT_BYTE ends in its step (R33, R168). -/

/-- The poll of a strobe cannot hang: its timer advances, or TIMEOUT is 0 (R168). -/
def TimerBounded (s : State) : Prop := 0 < s.sckPeriod.value.toNat ∨ s.timeout.value = 0#16

theorem pollFrom_seq_of_timerBounded {s : State} (h : TimerBounded s) (k : Nat) : (pollFrom false k s).seq = .idle := by
  rcases h with hsck | hto
  · have hinc : 0 < pollIncrement s := by unfold pollIncrement; omega
    obtain ⟨_, _, _, _, _, hseq, _⟩ := pollFrom_ends k s hinc
    exact hseq
  · obtain ⟨_, _, _, _, _, _, ⟨_, _, hseq, _⟩ | ⟨_, _, ⟨_, hseq, _⟩ | ⟨_, _, _, hlt⟩⟩⟩ := pollFrom_cases false k s
    · exact hseq
    · exact hseq
    · simp [hto] at hlt

theorem outByte_seq {s t : State} (hp : powered s = true) (hw : writeReady s = true) (ht : TimerBounded s) {d : Byte}
    (h : outByte Config.build d s = .next t) : t.seq = .idle := by
  obtain ⟨_, _, _, _, v, hpoll, hv, _⟩ := writeFrame_starts Config.build d s.address.value s.opcode.value s
  have hbounded : TimerBounded v := by rw [hv]; exact ht
  rw [outByte_ready hp hw, hpoll] at h
  cases h
  exact pollFrom_seq_of_timerBounded hbounded 1

/-! One strobe from the queue (R147, R148, R163). -/

/-- An idle, powered machine whose next commands are the strobes `cs`, with what they read written and, where one of
them is an OUT_BYTE, its timer bounded. -/
structure StrobesReady (cs rest : List PortCommand) (s : State) : Prop where
  strobes : ∀ c ∈ cs, c.kind = 1#2 ∨ c.kind = 2#2
  seq : s.seq = .idle
  powered : powered s = true
  address : s.address.written = true
  opcode : s.opcode.written = true
  writes : (∃ c ∈ cs, c.kind = 2#2) → writeReady s = true ∧ TimerBounded s
  pending : s.pending = cs ++ rest

/-- What a strobe does to the counter, and the frame it sends (R148). -/
structure Strobed (s v : State) : Prop where
  seq : v.seq = .idle
  address : v.address = ⟨s.address.value + 1#16, true⟩
  head : (sentBits s v).take 24 = (frameHead s.opcode.value s.address.value).flatMap bitsOf
  only : OnlyWrite s v

theorem inByte_strobed {s : State} (hq : s.seq = .idle) (hp : powered s = true) (haddr : s.address.written = true)
    (hop : s.opcode.written = true) : ∃ v, exec .inByte s = .next v ∧ Strobed s v := by
  obtain ⟨v, b3, _, hrun, hread, _⟩ := inByte_reads hp haddr hop .w16
  refine ⟨v, hrun, ?_, ?_, ?_, onlyWrite_of_onlyRead hread.only⟩
  · rw [hread.only]; exact hq
  · rw [inByte_address hrun, if_pos hp]
  · rw [hread.sentBits, frameHead, take_frameHeadAt]

theorem outByte_strobed {s : State} (hp : powered s = true) (hw : writeReady s = true) (ht : TimerBounded s)
    (d : Byte) : ∃ v, exec (.outByte d) s = .next v ∧ Strobed s v := by
  obtain ⟨v, n, hrun, -, hsent⟩ := outByte_sends hp hw Config.build d
  refine ⟨v, hrun, outByte_seq hp hw ht hrun, ?_, ?_, outByte_onlyWrite hrun⟩
  · rw [outByte_address hrun, if_pos hp]
  · rw [hsent, List.append_assoc]
    exact take_frameHeadAt ..

theorem decode_of_kind_one {c : PortCommand} (h : c.kind = 1#2) : decode c = .inByte := by
  simp [decode, decodeWith, h]

theorem decode_of_kind_two {c : PortCommand} (h : c.kind = 2#2) : decode c = .outByte c.strobe := by
  simp [decode, decodeWith, h]

/-- A strobe leaves the machine ready for the strobes after it. -/
theorem StrobesReady.tail {c : PortCommand} {cs rest : List PortCommand} {s v : State}
    (h : StrobesReady (c :: cs) rest s) (hv : Strobed { s with pending := cs ++ rest } v) : StrobesReady cs rest v := by
  have honly := hv.only
  unfold OnlyWrite at honly
  refine ⟨fun x hx => h.strobes x (.tail c hx), hv.seq, ?_, ?_, ?_, fun ⟨x, hx, hk⟩ => ?_, ?_⟩
  · rw [honly]; exact h.powered
  · rw [hv.address]
  · rw [honly]; exact h.opcode
  · obtain ⟨hw, ht⟩ := h.writes ⟨x, .tail c hx, hk⟩
    refine ⟨?_, by rw [honly]; exact ht⟩
    simp only [writeReady, Bool.and_eq_true] at hw ⊢
    obtain ⟨⟨⟨⟨_, hop⟩, hto⟩, hp1⟩, hp2⟩ := hw
    rw [hv.address, honly]
    exact ⟨⟨⟨⟨rfl, hop⟩, hto⟩, hp1⟩, hp2⟩
  · rw [honly]

/-- A step from such a machine runs the first strobe of the queue to its end. -/
theorem StrobesReady.step {c : PortCommand} {cs rest : List PortCommand} {s : State}
    (h : StrobesReady (c :: cs) rest s) :
    ∃ v, step s = .next v ∧ Strobed { s with pending := cs ++ rest } v := by
  rw [step_command h.seq h.pending]
  rcases h.strobes c List.mem_cons_self with hc | hc
  · rw [decode_of_kind_one hc]
    exact inByte_strobed h.seq h.powered h.address h.opcode
  · obtain ⟨hw, ht⟩ := h.writes ⟨c, List.mem_cons_self, hc⟩
    rw [decode_of_kind_two hc]
    exact outByte_strobed (s := { s with pending := cs ++ rest }) h.powered hw ht c.strobe

/-! The walk (R148). -/

/-- A run of `k + 1` steps is a step and a run of `k`. -/
theorem run_succ {s v : State} (h : step s = .next v) (k : Nat) :
    Host.Core.run core (k + 1) s = Host.Core.run core k v := by
  have hstep : core.step s = .next v := h
  simp only [Host.Core.run, hstep]

/-- After `k` of the strobes the counter has advanced by `k`, and the next strobe sends its frame. -/
theorem strobes_walk {cs rest : List PortCommand} {s : State} (h : StrobesReady cs rest s) {k : Nat}
    (hk : k ≤ cs.length) : ∃ u, Host.Core.run core k s = .next u ∧ u.seq = .idle ∧
      u.address = ⟨s.address.value + BitVec.ofNat 16 k, true⟩ ∧ u.opcode = s.opcode ∧
      (k < cs.length → ∃ v, Host.Core.run core (k + 1) s = .next v ∧
        (sentBits u v).take 24 = (frameHead s.opcode.value (s.address.value + BitVec.ofNat 16 k)).flatMap bitsOf) := by
  induction k generalizing cs s with
  | zero =>
    refine ⟨s, rfl, h.seq, ?_, rfl, fun hlt => ?_⟩
    · rw [BitVec.add_zero, ← h.address]
    · cases cs with
      | nil => simp at hlt
      | cons c cs =>
        obtain ⟨v, hstep, hv⟩ := h.step
        exact ⟨v, run_succ hstep 0, by rw [BitVec.add_zero]; exact hv.head⟩
  | succ k ih =>
    cases cs with
    | nil => simp at hk
    | cons c cs =>
      obtain ⟨v, hstep, hv⟩ := h.step
      obtain ⟨u, hrun, hseq, haddr, hop, hnext⟩ := ih (h.tail hv) (Nat.le_of_succ_le_succ hk)
      have hcounter : v.address.value + BitVec.ofNat 16 k = s.address.value + BitVec.ofNat 16 (k + 1) := by
        rw [hv.address, BitVec.ofNat_add, BitVec.add_assoc, BitVec.add_comm (BitVec.ofNat 16 k)]
      have hopcode : v.opcode = s.opcode := by rw [hv.only]
      rw [hcounter] at haddr hnext
      rw [hopcode] at hop hnext
      rw [run_succ hstep, run_succ hstep]
      exact ⟨u, hrun, hseq, haddr, hop, fun hlt => hnext (Nat.lt_of_succ_lt_succ hlt)⟩

/-- Settles O40, by induction on the number of strobes taken. -/
theorem strobesWalkTheAddressCounter : Obligations.StrobesWalkTheAddressCounter :=
  fun _ _ _ hstrobes hseq hpow haddr hop hwrites hpending _ hk =>
    strobes_walk ⟨hstrobes, hseq, hpow, haddr, hop, hwrites, hpending⟩ hk

end Sys2Proof.Proofs
end

section
/-! SUPPORT. One step of a poll, said once for every build (`Attempts`), what a step or an OUT_BYTE puts on the wires
(`Exchange`), where an OUT_BYTE's poll starts (`PollStart`), and when the poll's timer reaches TIMEOUT; with the steps that go
on with a poll (O58) and the OUT_BYTEs (O23, O25, O26, O28). -/
namespace Sys2Proof.Proofs

open Sys2Proof.Machine Sys2Proof.Safety Sys2Proof.Laws

/-! The comparator and the timer of a poll (R165, R166, R173). -/

/-- The read-back would confirm the byte in CMD (R165). -/
def ConfirmedBy (s : State) : Byte → Prop := confirms s.cmd.b3.value s.poll1.value s.poll2.value

theorem matchByte_eq_true {s : State} {r : Byte} : matchByte s r = true ↔ ConfirmedBy s r := by
  simp [matchByte, ConfirmedBy, confirms, and_assoc]

theorem matchByte_eq_false {s : State} {r : Byte} : matchByte s r = false ↔ ¬ ConfirmedBy s r := by
  rw [← matchByte_eq_true, Bool.not_eq_true]

/-- A byte equal to a sentinel is confirmed by no read-back (R170). -/
theorem not_confirms_sentinel {d p1 p2 : Byte} (h : d = p1 ∨ d = p2) (x : Byte) : ¬ confirms d p1 p2 x := by
  rintro ⟨rfl, hp1, hp2⟩
  exact h.elim hp1 hp2

/-- ELAPSED after `n` more misses. -/
def pollTimer (wrap16 : Bool) (s : State) (n : Nat) : Nat := timerAfter wrap16 (pollIncrement s) n s.elapsed

theorem pollTimer_exact (s : State) (n : Nat) : pollTimer false s n = s.elapsed + n * pollIncrement s :=
  timerAfter_exact ..

theorem pollTimer_wrapped {s : State} (h : s.elapsed < 65536) (n : Nat) :
    pollTimer true s n = (s.elapsed + n * pollIncrement s) % 65536 := timerAfter_wrapped _ _ _ h

theorem pollIncrement_eq_zero {s : State} : pollIncrement s = 0 ↔ s.sckPeriod.value = 0#8 := by
  rw [pollIncrement, ← BitVec.toNat_inj, BitVec.toNat_ofNat]
  omega

/-- The attempts of a step by SCK_PERIOD (log entry 13). -/
theorem pollBudget_eq (s : State) : pollBudget s = if s.sckPeriod.value = 0#8 then 1 else 2048 := by
  simp only [pollBudget, pollIncrement_eq_zero]

/-! One step of a poll (R167, R168). -/

/-- The attempts of one step of a poll from attempt `k` on: the read-backs `init` missed with the timer still below
TIMEOUT, and `r`, the last one, decides. -/
structure Attempts (wrap16 : Bool) (k : Nat) (init : List Byte) (r : Byte) (s t : State) : Prop where
  polled : Polled (init ++ [r]) s t
  missed : ∀ x ∈ init, ¬ ConfirmedBy s x
  running : ∀ j, 1 ≤ j → j ≤ init.length → pollTimer wrap16 s j < s.timeout.value.toNat
  bounded : init.length + 1 ≤ pollBudget s
  confirmed : ConfirmedBy s r →
    t.pollOutcome = .confirmed ∧ t.seq = .idle ∧ t.elapsed = pollTimer wrap16 s init.length
  elapsed : ¬ ConfirmedBy s r → t.elapsed = pollTimer wrap16 s (init.length + 1)
  timedOut : ¬ ConfirmedBy s r → s.timeout.value.toNat ≤ pollTimer wrap16 s (init.length + 1) →
    t.pollOutcome = .timedOut ∧ t.seq = .idle
  goesOn : ¬ ConfirmedBy s r → pollTimer wrap16 s (init.length + 1) < s.timeout.value.toNat →
    t.pollOutcome = s.pollOutcome ∧ t.seq = .poll (k + pollBudget s) ∧ init.length + 1 = pollBudget s

theorem pollFrom_attempts (wrap16 : Bool) (k : Nat) (s : State) :
    ∃ init r, Attempts wrap16 k init r s (pollFrom wrap16 k s) := by
  obtain ⟨init, r, hpolled, hmissed, hrunning, hbounded, hlast⟩ := pollFrom_cases wrap16 k s
  have hmissed' : ∀ x ∈ init, ¬ ConfirmedBy s x := fun x hx => matchByte_eq_false.mp (hmissed x hx)
  refine ⟨init, r, ?_⟩
  rcases hlast with ⟨hmatch, hout, hseq, hel⟩ | ⟨hmiss, hel, ⟨hout, hseq, hle⟩ | ⟨hout, hseq, hall, hlt⟩⟩
  · have hr : ConfirmedBy s r := matchByte_eq_true.mp hmatch
    exact ⟨hpolled, hmissed', hrunning, hbounded, fun _ => ⟨hout, hseq, hel⟩, absurd hr, absurd hr, absurd hr⟩
  · have hr : ¬ ConfirmedBy s r := matchByte_eq_false.mp hmiss
    rw [hel] at hle
    exact ⟨hpolled, hmissed', hrunning, hbounded, fun h => absurd h hr, fun _ => hel, fun _ _ => ⟨hout, hseq⟩,
      fun _ hlt => absurd hlt (Nat.not_lt.mpr hle)⟩
  · have hr : ¬ ConfirmedBy s r := matchByte_eq_false.mp hmiss
    rw [hel] at hlt
    exact ⟨hpolled, hmissed', hrunning, hbounded, fun h => absurd h hr, fun _ => hel,
      fun _ hle => absurd hlt (Nat.not_lt.mpr hle), fun _ _ => ⟨hout, hseq, hall⟩⟩

/-- The timer reaches TIMEOUT within the attempts of a step. -/
def TimerReaches (wrap16 : Bool) (s : State) : Prop :=
  ∃ n, 1 ≤ n ∧ n ≤ pollBudget s ∧ s.timeout.value.toNat ≤ pollTimer wrap16 s n

/-- The timer stays below TIMEOUT, however many attempts miss. -/
def TimerNever (wrap16 : Bool) (s : State) : Prop := ∀ n, pollTimer wrap16 s n < s.timeout.value.toNat

section
variable {wrap16 : Bool} {k : Nat} {init : List Byte} {r : Byte} {s t : State}

/-- Where the timer reaches TIMEOUT in the step, the last attempt of a poll without a match is the one at which it does. -/
theorem Attempts.out_of_reaches (h : Attempts wrap16 k init r s t) (hreach : TimerReaches wrap16 s)
    (hr : ¬ ConfirmedBy s r) : s.timeout.value.toNat ≤ pollTimer wrap16 s (init.length + 1) := by
  by_contra hlt
  obtain ⟨-, -, hall⟩ := h.goesOn hr (Nat.not_le.mp hlt)
  obtain ⟨n, hpos, hle, hout⟩ := hreach
  rcases Nat.lt_or_eq_of_le (hall ▸ hle) with hn | rfl
  · exact absurd (h.running n hpos (Nat.le_of_lt_succ hn)) (Nat.not_lt.mpr hout)
  · exact hlt hout

/-- Before the last attempt the timer was still running, if there was one before it. -/
theorem Attempts.running_before (h : Attempts wrap16 k init r s t) :
    init = [] ∨ pollTimer wrap16 s init.length < s.timeout.value.toNat :=
  (eq_or_ne init []).imp_right fun hne => h.running _ (List.length_pos_iff.mpr hne) (Nat.le_refl _)

/-- A step whose timer stands still makes one attempt (log entry 13). -/
theorem Attempts.init_of_stalled (h : Attempts wrap16 k init r s t) (hsck : s.sckPeriod.value = 0#8) : init = [] := by
  have hbounded := h.bounded
  rw [pollBudget_eq, if_pos hsck] at hbounded
  exact List.length_eq_zero_iff.mp (by omega)

/-- With TIMEOUT = 0 the first miss ends the poll (R169). -/
theorem Attempts.init_of_zero_timeout (h : Attempts wrap16 k init r s t) (hto : s.timeout.value = 0#16) :
    init = [] :=
  h.running_before.resolve_right (by simp [hto])

end

/-! What goes over the wires (R120, R144). -/

/-- Between `s` and `t` the frames `sent` went out and `recv` came in, the bits the run has fixed where there are enough
(log entry 3), in at least `units` calibration units; RES holds the last frame received. -/
structure Exchange (sent recv : List Byte) (units : Nat) (s t : State) : Prop where
  traffic : ∃ events, Traffic s t sent recv units events
  fixed : 8 * recv.length ≤ s.miso.length → recv = bytesOf recv.length s.miso
  res : writtenFrame (recv.drop (recv.length - 4)) t.res

section
variable {sent recv : List Byte} {units : Nat} {s t : State}

theorem Exchange.sentBits (h : Exchange sent recv units s t) : sentBits s t = sent.flatMap bitsOf := by
  obtain ⟨_, htraffic⟩ := h.traffic
  obtain ⟨hsent, -⟩ := htraffic.read
  exact hsent

theorem Exchange.receivedBits (h : Exchange sent recv units s t) : receivedBits s t = recv.flatMap bitsOf := by
  obtain ⟨_, htraffic⟩ := h.traffic
  obtain ⟨-, hreceived, -⟩ := htraffic.read
  exact hreceived

theorem Exchange.receivedBytes (h : Exchange sent recv units s t) : receivedBytes s t = recv := by
  obtain ⟨_, htraffic⟩ := h.traffic
  exact receivedBytes_of_traffic htraffic

theorem Exchange.receivedBits_length (h : Exchange sent recv units s t) :
    (Safety.receivedBits s t).length = 8 * recv.length := by
  rw [h.receivedBits, flatMap_bitsOf_length]

theorem Exchange.receivedBits_fixed (h : Exchange sent recv units s t) (hm : 8 * recv.length ≤ s.miso.length) :
    Safety.receivedBits s t = s.miso.take (8 * recv.length) := by
  rw [h.receivedBits]
  conv_lhs => rw [h.fixed hm, ← bytesOf_take]
  exact flatMap_bytesOf _ _ (by simpa using hm)

theorem Exchange.duration (h : Exchange sent recv units s t) (unitNs : Nat) :
    units * unitNs ≤ durationAt unitNs (eventsBetween s t) := by
  obtain ⟨_, htraffic⟩ := h.traffic
  obtain ⟨-, -, -, hduration, -⟩ := htraffic.read
  exact hduration unitNs

end

/-- The read attempts of a poll send the frame in CMD once each (R167). -/
theorem exchange_of_polled {rs : List Byte} {s t : State} (h : Polled rs s t) (hne : rs ≠ []) :
    ∃ recv, recv.length = 4 * rs.length ∧ fourthBytes recv = rs ∧
      Exchange (List.replicate rs.length (cmdBytes s)).flatten recv (rs.length * (32 * (2 * halfPeriod s))) s t := by
  obtain ⟨_, recv, _, _, _, hlen, hfourth, htraffic, hfixed, hres⟩ := h.traffic
  refine ⟨recv, hlen, hfourth, ⟨⟨_, htraffic⟩, fun hm => ?_, ?_⟩⟩
  · rw [hlen]
    exact hfixed (by omega)
  · rw [hlen]
    exact hres hne

/-- RES[3] is the last read-back (R167). -/
theorem resByte_of_polled {init : List Byte} {r : Byte} {s t : State} (h : Polled (init ++ [r]) s t) :
    t.res.b3 = written r := by
  obtain ⟨-, -, -, hb3⟩ := h.res (by simp)
  simpa using hb3

/-! The steps that go on with a poll (R110, R167). -/

theorem stepFor_polling {s : State} {k : Nat} (hq : s.seq = .poll k) (b : Build) :
    stepFor b s = .next (pollFrom b.wrap16 k s) := by
  simp [stepFor, stepWith, hq]

/-- What one step of a poll puts on the wires. -/
theorem Attempts.exchange {wrap16 : Bool} {k : Nat} {init : List Byte} {r : Byte} {s t : State}
    (h : Attempts wrap16 k init r s t) : ∃ recv, recv.length = 4 * (init.length + 1) ∧ fourthBytes recv = init ++ [r] ∧
      Exchange (List.replicate (init.length + 1) (cmdBytes s)).flatten recv
        ((init.length + 1) * (32 * (2 * halfPeriod s))) s t := by
  simpa only [List.length_append, List.length_singleton] using exchange_of_polled h.polled (by simp)

/-- Settles O58: a step at POLL(k) is the attempts of a poll, whatever the build's timer does. -/
theorem pollStepsResendTheReadFrame : Obligations.PollStepsResendTheReadFrame := by
  refine ⟨stepFor_build, fun b k s hq => ?_⟩
  obtain ⟨init, r, hatt⟩ := pollFrom_attempts b.wrap16 k s
  obtain ⟨recv, hlen, hfourth, hex⟩ := hatt.exchange
  have hbits : 8 * recv.length = 32 * (init.length + 1) := by omega
  have hdrop : recv.length - 4 = 4 * init.length := by omega
  refine ⟨_, init, r, stepFor_polling hq b, fun hsck => ?_, hex.sentBits, ?_, fun hm => ⟨?_, ?_⟩, ?_, ?_, hatt.missed,
    fun hr => ?_, fun hr => ?_, hatt.polled.ind, hatt.polled.rst, ?_, hatt.polled.strategy, hatt.polled.only⟩
  · rw [hatt.init_of_stalled hsck]; rfl
  · rw [hex.receivedBits_length, hbits]
  · rw [hex.receivedBits_fixed (hbits ▸ hm), hbits]
  · simpa using hatt.polled.fixed (by simpa using hm)
  · rw [hex.receivedBytes, hfourth]
  · rw [hex.receivedBytes, ← hdrop]; exact hex.res
  · obtain ⟨hout, hseq, -⟩ := hatt.confirmed hr
    exact ⟨hout, hseq⟩
  · rcases Nat.lt_or_ge (pollTimer b.wrap16 s (init.length + 1)) s.timeout.value.toNat with hlt | hle
    · obtain ⟨hout, hseq, hall⟩ := hatt.goesOn hr hlt
      exact .inr ⟨hout, hall ▸ hseq⟩
    · exact .inl (hatt.timedOut hr hle)
  · rw [hatt.polled.sck]; simp

/-! Where the poll of an OUT_BYTE starts (R163, R164). -/

/-- After the write frame of an OUT_BYTE of `d` from `s`, for which `first` came back, the poll starts in `v`. -/
structure PollStart (b : Build) (d : Byte) (first : List Byte) (s v : State) : Prop where
  eq : v = { s with
    address := written (s.address.value + 1#16), cmd := v.cmd, res := v.res, elapsed := 0, seq := .poll 1,
    reply := .out, fresh := s.fresh + 1, lineOL := v.lineOL, shifter := v.shifter, trace := v.trace, miso := v.miso }
  cmd : writtenFrame (pollHeadAt b.width b.flipMask s.opcode.value s.address.value ++ [d]) v.cmd
  len : first.length = 4
  traffic : ∃ events, Traffic s v (frameHeadAt b.width s.opcode.value s.address.value ++ [d]) first
    (32 * (2 * halfPeriod s)) events
  strategy : strategyOf v.shifter = strategyOf s.shifter
  fixed : 32 ≤ s.miso.length → first = bytesOf 4 s.miso ∧ v.miso = s.miso.drop 32

/-- Powered, with its registers written, an OUT_BYTE makes its write frame and then its poll (R163). -/
theorem outByte_starts {s : State} (hp : powered s = true) (hw : writeReady s = true) (b : Build) (d : Byte) :
    ∃ first v, outByte b d s = .next (pollFrom b.wrap16 1 v) ∧ PollStart b d first s v := by
  obtain ⟨x0, x1, x2, x3, v, hpoll, hv, hcmd, htraffic, hstrategy, hfixed, _⟩ :=
    writeFrame_starts b d s.address.value s.opcode.value s
  exact ⟨[x0, x1, x2, x3], v, by rw [outByte_ready hp hw, hpoll],
    ⟨by rw [hv], hcmd, rfl, ⟨_, htraffic⟩, hstrategy, hfixed⟩⟩

section
variable {b : Build} {d : Byte} {first : List Byte} {s v : State}

theorem PollStart.sckPeriod (h : PollStart b d first s v) : v.sckPeriod = s.sckPeriod := by rw [h.eq]

theorem PollStart.timeout (h : PollStart b d first s v) : v.timeout = s.timeout := by rw [h.eq]

theorem PollStart.elapsed (h : PollStart b d first s v) : v.elapsed = 0 := by rw [h.eq]

theorem PollStart.pollOutcome (h : PollStart b d first s v) : v.pollOutcome = s.pollOutcome := by rw [h.eq]

theorem PollStart.seq (h : PollStart b d first s v) : v.seq = .poll 1 := by rw [h.eq]

theorem PollStart.halfPeriod (h : PollStart b d first s v) : halfPeriod v = halfPeriod s := by rw [h.eq]; rfl

/-- The comparator of the poll is that of the written byte and the two sentinels (R165). -/
theorem PollStart.confirmedBy (h : PollStart b d first s v) :
    ConfirmedBy v = confirms d s.poll1.value s.poll2.value := by
  have hpoll1 : v.poll1 = s.poll1 := by rw [h.eq]
  have hpoll2 : v.poll2 = s.poll2 := by rw [h.eq]
  rw [ConfirmedBy, payload_of_pollFrame h.cmd, hpoll1, hpoll2, written_value]

theorem PollStart.increment (h : PollStart b d first s v) : pollIncrement v = 32 * s.sckPeriod.value.toNat := by
  rw [pollIncrement, h.sckPeriod]

theorem PollStart.timer_exact (h : PollStart b d first s v) (n : Nat) :
    pollTimer false v n = n * (32 * s.sckPeriod.value.toNat) := by
  rw [pollTimer_exact, h.elapsed, h.increment, Nat.zero_add]

theorem PollStart.timer_wrapped (h : PollStart b d first s v) (n : Nat) :
    pollTimer true v n = n * (32 * s.sckPeriod.value.toNat) % 65536 := by
  rw [pollTimer_wrapped (by rw [h.elapsed]; decide), h.elapsed, h.increment, Nat.zero_add]

/-- What a whole OUT_BYTE puts on the wires: the write frame, then the flipped frame of the same location once for each
read attempt (R163, R164). -/
theorem PollStart.exchange (h : PollStart b d first s v) {rs : List Byte} {t : State} (hpolled : Polled rs v t)
    (hne : rs ≠ []) : ∃ recv, recv.length = 4 * (rs.length + 1) ∧ (fourthBytes recv).drop 1 = rs ∧
      Exchange ((frameHeadAt b.width s.opcode.value s.address.value ++ [d]) ++ (List.replicate rs.length
          (pollHeadAt b.width b.flipMask s.opcode.value s.address.value ++ [d])).flatten)
        recv (32 * (2 * Machine.halfPeriod s) + rs.length * (32 * (2 * Machine.halfPeriod s))) s t := by
  obtain ⟨recv, hlen, hfourth, hex⟩ := exchange_of_polled hpolled hne
  obtain ⟨_, hwrite⟩ := h.traffic
  obtain ⟨_, hreads⟩ := hex.traffic
  rw [cmdBytes_of_writtenFrame h.cmd, h.halfPeriod] at hreads
  have hall : (first ++ recv).length = 4 * (rs.length + 1) := by rw [List.length_append, h.len, hlen]; omega
  have hpos : 1 ≤ rs.length := List.length_pos_iff.mpr hne
  refine ⟨first ++ recv, hall, ?_, ⟨⟨_, hwrite.trans hreads⟩, fun hm => ?_, ?_⟩⟩
  · have hone : (fourthBytes first).length = 1 := by
      obtain ⟨x0, x1, x2, x3, rfl⟩ : ∃ x0 x1 x2 x3, first = [x0, x1, x2, x3] := List.length_eq_four.mp h.len
      rfl
    rw [fourthBytes_append first recv 1 h.len, List.drop_left' hone, hfourth]
  · obtain ⟨hfirst, hmiso⟩ := h.fixed (by omega)
    have hrecv : recv = bytesOf recv.length v.miso := hex.fixed (by rw [hmiso, List.length_drop]; omega)
    rw [List.length_append, h.len, bytesOf_add, ← hfirst, ← hmiso, ← hrecv]
  · have hlast : (first ++ recv).length - 4 = first.length + (recv.length - 4) := by
      rw [List.length_append]; omega
    rw [hlast, ← List.drop_drop, List.drop_left]
    exact hex.res

theorem PollStart.readBacks (h : PollStart b d first s v) {rs : List Byte} {t : State} (hpolled : Polled rs v t)
    (hne : rs ≠ []) : readBacks s t = rs := by
  obtain ⟨recv, -, hrs, hex⟩ := h.exchange hpolled hne
  rw [Safety.readBacks, hex.receivedBytes, hrs]

end

/-! The OUT_BYTEs (R163, R167, R169, R172). -/

/-- Powered, with its registers written, an OUT_BYTE ends after the attempts of one step of its poll, whose read-backs are
its own. -/
theorem outByte_attempts {s : State} (hp : powered s = true) (hw : writeReady s = true) (b : Build) (d : Byte) :
    ∃ t first v init r, outByte b d s = .next t ∧ PollStart b d first s v ∧ Attempts b.wrap16 1 init r v t ∧
      readBacks s t = init ++ [r] := by
  obtain ⟨first, v, hrun, hstart⟩ := outByte_starts hp hw b d
  obtain ⟨init, r, hatt⟩ := pollFrom_attempts b.wrap16 1 v
  exact ⟨_, first, v, init, r, hrun, hstart, hatt, hstart.readBacks hatt.polled (by simp)⟩

/-- Settles O23: the readings of what an OUT_BYTE exchanges. -/
theorem outByteWritesThenPolls : Obligations.OutByteWritesThenPolls := by
  intro d s hp hw
  obtain ⟨t, first, v, init, r, hrun, hstart, hatt, hback⟩ := outByte_attempts hp hw Config.build d
  obtain ⟨recv, hlen, hrs, hex⟩ := hstart.exchange hatt.polled (by simp)
  rw [List.length_append, List.length_singleton] at hlen hex
  have hbits : 8 * recv.length = 32 * (init.length + 1 + 1) := by omega
  have hdrop : recv.length - 4 = 4 * (init.length + 1) := by omega
  have hcmd : t.cmd = v.cmd := by rw [hatt.polled.only]
  refine ⟨t, init.length + 1, hrun, by omega, hex.sentBits, ?_, fun hm => ?_, ?_, ?_, ?_, ?_, ?_, ?_, outByte_reply hrun,
    hatt.polled.strategy.trans hstart.strategy, outByte_onlyWrite hrun⟩
  · rw [hex.receivedBits_length, hbits]
  · rw [hex.receivedBits_fixed (hbits ▸ hm), hbits]
  · rw [outByte_address hrun, if_pos hp]
  · rw [hcmd]; exact hstart.cmd
  · rw [hex.receivedBytes, hlen]
  · rw [hex.receivedBytes, ← hdrop]; exact hex.res
  · rw [hback, List.length_append, List.length_singleton]
  · rw [hback, resByte_of_polled hatt.polled, List.getLast?_append, written_value]; rfl

/-- A first attempt that ends the poll is all of it (R167). -/
theorem pollFrom_of_first {wrap16 : Bool} {k : Nat} {s : State} (h : (pollAttempt wrap16 k s).seq = .idle) :
    pollFrom wrap16 k s = pollAttempt wrap16 k s := by
  obtain ⟨n, hn⟩ : ∃ n, pollBudget s = n + 1 := ⟨pollBudget s - 1, by have := pollBudget_pos s; omega⟩
  simp [pollFrom, hn, pollLoop, h]

/-- The read-back of one attempt where the run has fixed 32 bits (log entry 3). -/
theorem readBack_of_polled {r : Byte} {s t : State} (h : Polled [r] s t) (hm : 32 ≤ s.miso.length) :
    r = byteOf ((s.miso.drop 24).take 8) := by
  obtain ⟨_, recv, _, _, _, _, hfourth, _, hfixed, _⟩ := h.traffic
  rw [hfixed hm] at hfourth
  simpa [bytesOf, fourthBytes, eq_comm] using hfourth

/-- Settles O25: the read-back of the first attempt is bits 56 to 63 of those fixed. -/
theorem firstMatchEndsThePollAtOnce : Obligations.FirstMatchEndsThePollAtOnce := by
  intro d s hp hw hm hconf
  obtain ⟨first, v, hrun, hstart⟩ := outByte_starts hp hw Config.build d
  obtain ⟨r, t, ht, hpolled, hcase⟩ := pollAttempt_polled Config.build.wrap16 1 v
  obtain ⟨-, hmiso⟩ := hstart.fixed (by omega)
  have hmv : 32 ≤ v.miso.length := by rw [hmiso, List.length_drop]; omega
  have hr : confirms d s.poll1.value s.poll2.value r := by
    rwa [readBack_of_polled hpolled hmv, hmiso, List.drop_drop]
  have hmatch : matchByte v r = true := by rw [matchByte_eq_true, hstart.confirmedBy]; exact hr
  obtain ⟨rfl, -, -⟩ := hr
  rcases hcase with ⟨_, hout, hseq, hel⟩ | ⟨hmiss, -⟩
  · rw [pollFrom_of_first (ht ▸ hseq), ← ht] at hrun
    refine ⟨t, hrun, hstart.readBacks hpolled (by simp), hout, hel.trans hstart.elapsed, hseq,
      resByte_of_polled (init := []) hpolled, ?_⟩
    rw [hpolled.fixed hmv, hmiso, List.drop_drop]
    rfl
  · simp [hmatch] at hmiss

/-- Settles O26: the timer cannot be below 0, so there is no attempt before the last. -/
theorem zeroTimeoutMakesOneAttempt : Obligations.ZeroTimeoutMakesOneAttempt := by
  intro d s hp hw hto
  obtain ⟨t, first, v, init, r, hrun, hstart, hatt, hback⟩ := outByte_attempts hp hw Config.build d
  have htov : v.timeout.value = 0#16 := by rw [hstart.timeout, hto]
  have hle : v.timeout.value.toNat ≤ pollTimer Config.build.wrap16 v (init.length + 1) := by simp [htov]
  have hmatch := hatt.confirmed
  have hmiss := fun hr => hatt.timedOut hr hle
  rw [hstart.confirmedBy] at hmatch hmiss
  rw [hatt.init_of_zero_timeout htov] at hback
  refine ⟨t, r, hrun, hback, ?_, fun hr => ?_, fun hr => ?_⟩
  · by_cases hr : confirms d s.poll1.value s.poll2.value r
    · obtain ⟨-, hseq, -⟩ := hmatch hr
      exact hseq
    · obtain ⟨-, hseq⟩ := hmiss hr
      exact hseq
  · obtain ⟨hout, -⟩ := hmatch hr
    exact hout
  · obtain ⟨hout, -⟩ := hmiss hr
    exact hout

/-- The timer never runs a whole increment past TIMEOUT (R172). -/
theorem Attempts.elapsed_lt {k : Nat} {init : List Byte} {r : Byte} {s t : State} (h : Attempts false k init r s t)
    (hel : s.elapsed = 0) (hto : 0 < s.timeout.value.toNat) : t.elapsed < s.timeout.value.toNat + pollIncrement s := by
  have hbefore : init.length * pollIncrement s < s.timeout.value.toNat := by
    rcases h.running_before with rfl | hrun
    · simpa using hto
    · simpa [pollTimer_exact, hel] using hrun
  by_cases hr : ConfirmedBy s r
  · obtain ⟨-, -, htimer⟩ := h.confirmed hr
    rw [htimer, pollTimer_exact, hel]
    omega
  · rw [h.elapsed hr, pollTimer_exact, hel, Nat.add_mul]
    omega

/-- Settles O28: the units of the frames, and the timer before the last attempt. -/
theorem outByteTimeBounds : Obligations.OutByteTimeBounds := by
  intro d s hp hw hsck
  obtain ⟨t, first, v, init, r, hrun, hstart, hatt, hback⟩ := outByte_attempts hp hw Config.build d
  obtain ⟨recv, -, -, hex⟩ := hstart.exchange hatt.polled (by simp)
  have hhalf : halfPeriod s = s.sckPeriod.value.toNat := if_pos hsck
  have hunits : ∀ unitNs, (1 + (readBacks s t).length) * 32 * (2 * s.sckPeriod.value.toNat) * unitNs ≤
      durationAt unitNs (eventsBetween s t) := by
    intro unitNs
    have h := hex.duration unitNs
    rw [hhalf, ← hback] at h
    exact le_of_eq_of_le (by ring) h
  refine ⟨t, hrun, le_of_eq_of_le ?_ (hunits Config.unitNs), hunits, fun hto => ?_⟩
  · rw [Config.unitNs]; ring
  · have h := hatt.elapsed_lt hstart.elapsed (by rw [hstart.timeout]; exact hto)
    rwa [hstart.timeout, hstart.increment] at h

end Sys2Proof.Proofs
end

section
/-! SUPPORT. When the timer of a poll reaches TIMEOUT and when it never does, exact (R168) and wrapping (R173), and a poll
that never ends (`Hangs`); with the attempt bound (O24), the wrapped poll (O32) and the sentinels (O27, O33). -/
namespace Sys2Proof.Proofs

open Sys2Proof.Machine Sys2Proof.Safety Sys2Proof.Laws

/-! The exact timer (R166, R168). -/

/-- An exact timer that advances reaches any TIMEOUT in 2048 attempts. -/
theorem timerReaches_of_advancing {s : State} (hsck : 0 < s.sckPeriod.value.toNat) : TimerReaches false s := by
  have hinc : 32 ≤ pollIncrement s := by unfold pollIncrement; omega
  have hto := s.timeout.value.isLt
  refine ⟨2048, by decide, (pollBudget_advancing (by omega)).ge, ?_⟩
  rw [pollTimer_exact]
  omega

/-- With TIMEOUT = 0 the first miss ends a poll (R169). -/
theorem timerReaches_of_zero_timeout {s : State} (hto : s.timeout.value = 0#16) (wrap16 : Bool) :
    TimerReaches wrap16 s :=
  ⟨1, Nat.le_refl 1, pollBudget_pos s, by simp [hto]⟩

theorem timerReaches_of_timerBounded {s : State} (h : TimerBounded s) : TimerReaches false s :=
  h.elim timerReaches_of_advancing (timerReaches_of_zero_timeout · false)

/-- An exact timer that stands still below TIMEOUT stays there (R168). -/
theorem timerNever_of_stalled {s : State} (hsck : s.sckPeriod.value.toNat = 0)
    (hlt : s.elapsed < s.timeout.value.toNat) : TimerNever false s := fun n => by
  rw [pollTimer_exact, pollIncrement, hsck]
  exact hlt

/-- `n` misses before the last attempt, the timer still running after them, are within R168's bound. -/
theorem succ_le_attemptBound {n inc timeout : Nat} (hinc : 0 < inc) (h : n = 0 ∨ n * inc < timeout) :
    n + 1 ≤ attemptBound timeout inc := by
  rcases h with rfl | h
  · exact Nat.le_max_left ..
  · refine le_max_of_le_right ((Nat.le_div_iff_mul_le hinc).mpr ?_)
    rw [Nat.add_mul]
    omega

/-- A timer that has reached TIMEOUT has made as many attempts as R168's bound. -/
theorem attemptBound_le_succ {n inc timeout : Nat} (hinc : 0 < inc) (h : timeout ≤ (n + 1) * inc) :
    attemptBound timeout inc ≤ n + 1 := by
  refine max_le (Nat.le_add_left 1 n) (Nat.lt_succ_iff.mp ((Nat.div_lt_iff_lt_mul hinc).mpr ?_))
  rw [Nat.succ_mul]
  omega

theorem attemptBound_zero (inc : Nat) : attemptBound 0 inc = 1 := by
  refine Nat.max_eq_left ?_
  rcases Nat.eq_zero_or_pos inc with rfl | hinc
  · exact Nat.zero_le 1
  · rw [Nat.div_eq_of_lt (by omega)]
    exact Nat.zero_le 1

/-! The wrapping timer (R173). -/

/-- No multiple of `inc` modulo 2^16 is above the greatest multiple of the gcd below 2^16. -/
theorem multiple_mod_le (n inc : Nat) : n * inc % 65536 ≤ 65536 - Nat.gcd inc 65536 := by
  have hdvd : Nat.gcd inc 65536 ∣ 65536 - n * inc % 65536 :=
    Nat.dvd_sub (Nat.gcd_dvd_right ..)
      ((Nat.dvd_mod_iff (Nat.gcd_dvd_right ..)).mpr ((Nat.gcd_dvd_left ..).mul_left n))
  have hlt : n * inc % 65536 < 65536 := Nat.mod_lt _ (by decide)
  have hle : Nat.gcd inc 65536 ≤ 65536 - n * inc % 65536 := Nat.le_of_dvd (by omega) hdvd
  omega

/-- Some multiple of `inc` is the gcd modulo 2^16 (Bezout). -/
theorem exists_mul_mod_eq_gcd_mod (inc : Nat) : ∃ m, inc * m % 65536 = Nat.gcd inc 65536 % 65536 := by
  rcases Nat.lt_or_ge (Nat.gcd inc 65536) 65536 with hlt | hge
  · obtain ⟨m, -, hm⟩ := Nat.exists_mul_mod_eq_gcd hlt
    exact ⟨m, by rw [hm, Nat.mod_eq_of_lt hlt]⟩
  · have heq : Nat.gcd inc 65536 = 65536 := Nat.le_antisymm (Nat.gcd_le_right inc (by decide)) hge
    exact ⟨0, by rw [heq, Nat.mul_zero]⟩

/-- Within 2048 advances by a multiple of 32 a wrapping timer is at the greatest multiple of the gcd below 2^16. -/
theorem exists_multiple_mod_eq (a : Nat) :
    ∃ n, 1 ≤ n ∧ n ≤ 2048 ∧ n * (32 * a) % 65536 = 65536 - Nat.gcd (32 * a) 65536 := by
  obtain ⟨m, hm⟩ := exists_mul_mod_eq_gcd_mod (32 * a)
  have hpos : 0 < Nat.gcd (32 * a) 65536 := Nat.gcd_pos_of_pos_right _ (by decide)
  have hle : Nat.gcd (32 * a) 65536 ≤ 65536 := Nat.gcd_le_right _ (by decide)
  have hround : 2048 - m % 2048 + m = 2048 * (m / 2048 + 1) := by omega
  have hsum : (2048 - m % 2048) * (32 * a) + 32 * a * m = 65536 * ((m / 2048 + 1) * a) := by
    rw [Nat.mul_comm (32 * a) m, ← Nat.add_mul, hround]
    ring
  exact ⟨2048 - m % 2048, by omega, by omega, by omega⟩

/-- Up to `65536 - gcd(INC, 65536)` a wrapping timer reaches TIMEOUT from 0 (R173). -/
theorem timerReaches_of_wrapped {s : State} (hel : s.elapsed = 0)
    (hle : s.timeout.value.toNat ≤ 65536 - Nat.gcd (pollIncrement s) 65536) : TimerReaches true s := by
  have htimer : ∀ n, pollTimer true s n = n * pollIncrement s % 65536 := fun n => by
    rw [pollTimer_wrapped (by omega), hel, Nat.zero_add]
  rcases Nat.eq_zero_or_pos (pollIncrement s) with hinc | hinc
  · have hto : s.timeout.value.toNat = 0 := by simpa [hinc] using hle
    exact ⟨1, Nat.le_refl 1, pollBudget_pos s, by omega⟩
  · obtain ⟨n, hpos, hbound, hn⟩ := exists_multiple_mod_eq s.sckPeriod.value.toNat
    exact ⟨n, hpos, by rwa [pollBudget_advancing hinc], hle.trans_eq (by rw [htimer]; exact hn.symm)⟩

/-- A wrapping timer that holds a multiple of INC goes on through the multiples (R166, R173). -/
theorem pollTimer_of_multiple {s : State} {m : Nat} (hel : s.elapsed = m * pollIncrement s % 65536) (n : Nat) :
    pollTimer true s n = (m + n) * pollIncrement s % 65536 := by
  rw [pollTimer_wrapped (by omega), hel, Nat.mod_add_mod, ← Nat.add_mul]

/-- Above it a wrapping timer that holds a multiple of INC never does (R173). -/
theorem timerNever_of_wrapped {s : State} {m : Nat} (hel : s.elapsed = m * pollIncrement s % 65536)
    (hlt : 65536 - Nat.gcd (pollIncrement s) 65536 < s.timeout.value.toNat) : TimerNever true s := fun n => by
  rw [pollTimer_of_multiple hel]
  exact Nat.lt_of_le_of_lt (multiple_mod_le ..) hlt

/-- The attempts of a whole step take a wrapping timer back to where it was (R173; log entry 13). -/
theorem budget_round (s : State) (m : Nat) :
    (m + pollBudget s) * pollIncrement s % 65536 = m * pollIncrement s % 65536 := by
  rcases Nat.eq_zero_or_pos (pollIncrement s) with hinc | hinc
  · rw [hinc]; rfl
  · have hround : 2048 * pollIncrement s = 65536 * s.sckPeriod.value.toNat := by unfold pollIncrement; ring
    rw [pollBudget_advancing hinc, Nat.add_mul, hround, Nat.add_mul_mod_self_left]

/-! A poll that never ends (R168, R170, R173). -/

theorem timerAfter_add (wrap16 : Bool) (inc m n e : Nat) :
    timerAfter wrap16 inc n (timerAfter wrap16 inc m e) = timerAfter wrap16 inc (m + n) e := by
  induction m generalizing e with
  | zero => rw [Nat.zero_add]; rfl
  | succ m ih => rw [Nat.succ_add]; exact ih _

/-- A poll at attempt `k` that can end neither by a match nor by its timer. -/
structure Hangs (wrap16 : Bool) (k : Nat) (s : State) : Prop where
  seq : s.seq = .poll k
  never : ∀ x, ¬ ConfirmedBy s x
  timer : TimerNever wrap16 s

theorem confirmedBy_of_polled {rs : List Byte} {s t : State} (h : Polled rs s t) : ConfirmedBy t = ConfirmedBy s := by
  rw [h.only]; rfl

section
variable {wrap16 : Bool} {k : Nat} {rs init : List Byte} {r : Byte} {s t : State}

theorem pending_of_polled (h : Polled rs s t) : t.pending = s.pending := by rw [h.only]

theorem pollBudget_of_polled (h : Polled rs s t) : pollBudget t = pollBudget s := by
  rw [pollBudget, h.only.pollIncrement]; rfl

/-- After a step of it such a poll is again one, as many attempts later as a step makes. -/
theorem Hangs.next (h : Hangs wrap16 k s) (hatt : Attempts wrap16 k init r s t) :
    Hangs wrap16 (k + pollBudget s) t := by
  have hto : t.timeout = s.timeout := by rw [hatt.polled.only]
  obtain ⟨-, hseq, -⟩ := hatt.goesOn (h.never r) (h.timer _)
  refine ⟨hseq, by rw [confirmedBy_of_polled hatt.polled]; exact h.never, fun n => ?_⟩
  rw [pollTimer, hatt.polled.only.pollIncrement, hatt.elapsed (h.never r), pollTimer, timerAfter_add, hto]
  exact h.timer _

end

theorem runFor_succ {b : Build} {s v : State} (h : stepFor b s = .next v) (n : Nat) :
    Host.Core.run (coreFor b) (n + 1) s = Host.Core.run (coreFor b) n v := by
  have hstep : (coreFor b).step s = .next v := h
  simp only [Host.Core.run, hstep]

/-- A run of this machine is one of the machine of its own build (R5). -/
theorem run_coreFor_build (n : Nat) (s : State) :
    Host.Core.run (coreFor Config.build) n s = Host.Core.run Sys2Proof.core n s := by
  have hstep : stepFor Config.build = step := funext stepFor_build
  unfold coreFor
  rw [hstep]
  rfl

/-- However many steps follow, such a poll is still waiting, and no presented command has been taken. -/
theorem Hangs.run {b : Build} {k : Nat} {s : State} (h : Hangs b.wrap16 k s) (n : Nat) :
    ∃ u : State, Host.Core.run (coreFor b) n s = .next u ∧ u.seq = .poll (k + pollBudget s * n) ∧
      u.pending = s.pending := by
  induction n generalizing k s with
  | zero => exact ⟨s, rfl, h.seq, rfl⟩
  | succ n ih =>
    obtain ⟨init, r, hatt⟩ := pollFrom_attempts b.wrap16 k s
    obtain ⟨u, hrun, hseq, hpending⟩ := ih (h.next hatt)
    refine ⟨u, (runFor_succ (stepFor_polling h.seq b) n).trans hrun, ?_,
      hpending.trans (pending_of_polled hatt.polled)⟩
    rw [hseq, pollBudget_of_polled hatt.polled, Nat.mul_succ, Nat.add_assoc, Nat.add_comm (pollBudget s)]

/-- The OUT_BYTE of a sentinel whose timer never reaches TIMEOUT hangs (R170). -/
theorem PollStart.hangs {b : Build} {d : Byte} {first init : List Byte} {r : Byte} {s v t : State}
    (h : PollStart b d first s v) (hatt : Attempts b.wrap16 1 init r v t) (hd : d = s.poll1.value ∨ d = s.poll2.value)
    (hnever : TimerNever b.wrap16 v) (n : Nat) :
    ∃ u : State, Host.Core.run (coreFor b) n t = .next u ∧ u.seq = .poll (pollBudget v * (n + 1) + 1) ∧
      u.pending = t.pending := by
  have hv : Hangs b.wrap16 1 v := ⟨h.seq, by rw [h.confirmedBy]; exact not_confirms_sentinel hd, hnever⟩
  obtain ⟨u, hrun, hseq, hpending⟩ := (hv.next hatt).run n
  refine ⟨u, hrun, ?_, hpending⟩
  rw [hseq, pollBudget_of_polled hatt.polled]
  congr 1
  ring

/-! The OUT_BYTEs of this machine's build (R168, R170). -/

section
variable {k : Nat} {init : List Byte} {r : Byte} {s t : State}

theorem Attempts.le_attemptBound (h : Attempts false k init r s t) (hel : s.elapsed = 0)
    (hinc : 0 < pollIncrement s) : init.length + 1 ≤ attemptBound s.timeout.value.toNat (pollIncrement s) :=
  succ_le_attemptBound hinc (h.running_before.imp (by rintro rfl; rfl) fun hlt => by simpa [pollTimer_exact, hel] using hlt)

/-- Without a match a poll whose timer is bounded makes all the attempts of R168's bound. -/
theorem Attempts.eq_attemptBound (h : Attempts false k init r s t) (hel : s.elapsed = 0) (hbounded : TimerBounded s)
    (hr : ¬ ConfirmedBy s r) : init.length + 1 = attemptBound s.timeout.value.toNat (pollIncrement s) := by
  have hout := h.out_of_reaches (timerReaches_of_timerBounded hbounded) hr
  rw [pollTimer_exact, hel, Nat.zero_add] at hout
  rcases hbounded with hsck | hto
  · have hinc : 0 < pollIncrement s := by unfold pollIncrement; omega
    exact Nat.le_antisymm (h.le_attemptBound hel hinc) (attemptBound_le_succ hinc hout)
  · rw [h.init_of_zero_timeout hto, hto]
    exact (attemptBound_zero _).symm

/-- An attempt of a poll whose timer stands still below TIMEOUT (R168). -/
theorem Attempts.stalled (h : Attempts false k init r s t) (hsck : s.sckPeriod.value.toNat = 0)
    (hlt : s.elapsed < s.timeout.value.toNat) : init = [] ∧ t.elapsed = s.elapsed ∧
      (ConfirmedBy s r → t.pollOutcome = .confirmed ∧ t.seq = .idle) ∧
      (¬ ConfirmedBy s r → t.seq = .poll (k + 1) ∧ t.pollOutcome = s.pollOutcome) := by
  have hzero : s.sckPeriod.value = 0#8 := BitVec.eq_of_toNat_eq hsck
  have htimer : ∀ n, pollTimer false s n = s.elapsed := fun n => by
    rw [pollTimer_exact, pollIncrement_eq_zero.mpr hzero]; rfl
  have hmatch := h.confirmed
  have hmiss := fun hr => h.goesOn hr (timerNever_of_stalled hsck hlt _)
  rw [pollBudget_eq, if_pos hzero] at hmiss
  refine ⟨h.init_of_stalled hzero, ?_, fun hr => ?_, fun hr => ?_⟩
  · by_cases hr : ConfirmedBy s r
    · obtain ⟨-, -, hel⟩ := hmatch hr
      exact hel.trans (htimer _)
    · exact (h.elapsed hr).trans (htimer _)
  · obtain ⟨hout, hseq, -⟩ := hmatch hr
    exact ⟨hout, hseq⟩
  · obtain ⟨hout, hseq, -⟩ := hmiss hr
    exact ⟨hseq, hout⟩

end

/-- The read-back of a step's one attempt is RES[3], and RES holds the frame received (R144). -/
theorem Attempts.res_of_one {wrap16 : Bool} {k : Nat} {r : Byte} {s t : State} (h : Attempts wrap16 k [] r s t) :
    sentBits s t = (cmdBytes s).flatMap bitsOf ∧ (receivedBits s t).length = 32 ∧
      writtenFrame (bytesOf 4 (receivedBits s t)) t.res ∧ r = t.res.b3.value := by
  obtain ⟨recv, hlen, -, hex⟩ := h.exchange
  have hlen : recv.length = 4 := hlen
  have hres := hex.res
  rw [hlen] at hres
  refine ⟨hex.sentBits.trans ?_, by rw [hex.receivedBits_length, hlen], ?_, by
    rw [resByte_of_polled h.polled, written_value]⟩
  · rw [List.length_nil, List.replicate_one, List.flatten_singleton]
  · rw [hex.receivedBits, ← hlen, bytesOf_flatMap]
    exact hres

/-- Settles O24: the attempts of an OUT_BYTE, with the timer at a multiple of INC; and the one attempt of a step that goes
on with a poll whose timer stands still. -/
theorem pollAttemptsAreBounded : Obligations.PollAttemptsAreBounded := by
  refine ⟨fun d s hp hw => ?_, fun k s hq hsck hlt => ?_⟩
  · obtain ⟨t, first, v, init, r, hrun, hstart, hatt, hback⟩ := outByte_attempts hp hw Config.build d
    have hatt : Attempts false 1 init r v t := hatt
    have hmatch := hatt.confirmed
    have hmissed := hatt.missed
    have hel := hatt.elapsed
    have hout := fun h hr => hatt.timedOut hr (hatt.out_of_reaches (timerReaches_of_timerBounded h) hr)
    have hbound := hatt.le_attemptBound hstart.elapsed
    have heq := hatt.eq_attemptBound hstart.elapsed
    have hstalled := hatt.stalled
    simp only [TimerBounded, hstart.confirmedBy, hstart.timer_exact, hstart.increment, hstart.sckPeriod, hstart.timeout,
      hstart.elapsed, hstart.pollOutcome] at hmatch hmissed hel hout hbound heq hstalled
    refine ⟨t, init, r, hrun, hback, hmissed, hmatch, hel, fun hsck => ⟨hbound (by omega), fun hr => ?_⟩,
      fun hsck => ⟨?_, fun hr => ⟨fun hzero => ?_, fun hpos => ?_⟩⟩⟩
    · obtain ⟨hoc, hseq⟩ := hout (.inl hsck) hr
      exact ⟨hoc, hseq, heq (.inl hsck) hr⟩
    · exact hatt.init_of_stalled (by rw [hstart.sckPeriod]; exact BitVec.eq_of_toNat_eq hsck)
    · exact hout (.inr (BitVec.eq_of_toNat_eq hzero)) hr
    · obtain ⟨-, hel0, -, hmiss⟩ := hstalled hsck hpos
      obtain ⟨hseq, hoc⟩ := hmiss hr
      exact ⟨hseq, hel0, hoc⟩
  · obtain ⟨init, r, hatt⟩ := pollFrom_attempts false k s
    obtain ⟨rfl, hel, hmatch, hmiss⟩ := hatt.stalled hsck hlt
    obtain ⟨hsent, hlen, hres, rfl⟩ := hatt.res_of_one
    exact ⟨_, step_polling hq, hel, hsent, hlen, hres, hatt.polled.only, hmatch, hmiss⟩

/-- Settles O27: a sentinel is never confirmed, so the poll ends by its timer or hangs. -/
theorem sentinelBytesNeverConfirm : Obligations.SentinelBytesNeverConfirm := by
  intro d s hp hw hd
  obtain ⟨t, first, v, init, r, hrun, hstart, hatt, hback⟩ := outByte_attempts hp hw Config.build d
  have hatt : Attempts false 1 init r v t := hatt
  have hr : ¬ ConfirmedBy v r := by rw [hstart.confirmedBy]; exact not_confirms_sentinel hd r
  refine ⟨t, hrun, fun hbounded => ?_, fun hsck hto n => ?_⟩
  · have hv : TimerBounded v := by unfold TimerBounded; rwa [hstart.sckPeriod, hstart.timeout]
    obtain ⟨hout, hseq⟩ := hatt.timedOut hr (hatt.out_of_reaches (timerReaches_of_timerBounded hv) hr)
    have heq := hatt.eq_attemptBound hstart.elapsed hv hr
    rw [hstart.timeout, hstart.increment] at heq
    exact ⟨hseq, hout, by rw [hback, List.length_append, List.length_singleton, heq]⟩
  · have hsckv : v.sckPeriod.value = 0#8 := by rw [hstart.sckPeriod]; exact BitVec.eq_of_toNat_eq hsck
    have hnever : TimerNever false v :=
      timerNever_of_stalled (by rw [hsckv]; rfl) (by rw [hstart.elapsed, hstart.timeout]; exact hto)
    obtain ⟨u, hrunu, hseq, hpending⟩ := hstart.hangs hatt hd hnever n
    rw [run_coreFor_build] at hrunu
    rw [pollBudget_eq, if_pos hsckv, Nat.one_mul] at hseq
    exact ⟨u, hrunu, hseq, hpending⟩

/-! The OUT_BYTEs of a build whose timer wraps (R170, R173). -/

theorem PollStart.reaches_of_wrapped {b : Build} {d : Byte} {first : List Byte} {s v : State}
    (h : PollStart b d first s v)
    (hle : s.timeout.value.toNat ≤ 65536 - Nat.gcd (32 * s.sckPeriod.value.toNat) 65536) : TimerReaches true v :=
  timerReaches_of_wrapped h.elapsed (by rwa [h.timeout, h.increment])

theorem PollStart.never_of_wrapped {b : Build} {d : Byte} {first : List Byte} {s v : State}
    (h : PollStart b d first s v)
    (hlt : 65536 - Nat.gcd (32 * s.sckPeriod.value.toNat) 65536 < s.timeout.value.toNat) : TimerNever true v :=
  timerNever_of_wrapped (m := 0) (by rw [h.elapsed, Nat.zero_mul]) (by rwa [h.timeout, h.increment])

/-- Settles O32: the attempts of an OUT_BYTE and of a later step, with the timer at a multiple of INC modulo 2^16. -/
theorem wrappedPollEndsOrGoesOn : Obligations.WrappedPollEndsOrGoesOn := by
  constructor
  · intro b d s hwrap hp hw inc cut
    obtain ⟨t, first, v, init, r, hrun, hstart, hatt, hback⟩ := outByte_attempts hp hw b d
    rw [hwrap] at hatt
    have hcut : pollBudget v = cut := by rw [pollBudget_eq, hstart.sckPeriod]
    have hmissed := hatt.missed
    have hrunning := hatt.running
    have hmatch := hatt.confirmed
    have hel := hatt.elapsed
    have hreached := fun hr h => hatt.out_of_reaches h hr
    have hout := fun hr h => hatt.timedOut hr (hreached hr h)
    have hon := fun hr (h : TimerNever true v) => hatt.goesOn hr (h _)
    simp only [hstart.confirmedBy, hstart.timer_wrapped, hstart.timeout, hstart.pollOutcome, hcut, Nat.add_comm 1 cut]
      at hmissed hrunning hmatch hel hreached hout hon
    refine ⟨t, init, r, hrun, hback, hmissed, hrunning, hmatch, fun hr => ⟨hel hr, fun hle => ?_, fun hlt => ?_⟩⟩
    · have hv := hstart.reaches_of_wrapped hle
      obtain ⟨hoc, hseq⟩ := hout hr hv
      exact ⟨hoc, hseq, hel hr ▸ hreached hr hv⟩
    · exact hon hr (hstart.never_of_wrapped hlt)
  · intro b k m s hwrap hq inc cut hm hlt
    obtain ⟨init, r, hatt⟩ := pollFrom_attempts b.wrap16 k s
    rw [hwrap] at hatt
    obtain ⟨recv, hlen, hfourth, hex⟩ := hatt.exchange
    have hdrop : recv.length - 4 = 4 * init.length := by omega
    have hcut : pollBudget s = cut := pollBudget_eq s
    refine ⟨_, init, r, (stepFor_polling hq b).trans (by rw [hwrap]), ?_, hex.sentBits, ?_, hatt.polled.only, hatt.missed,
      fun hr => ?_, fun hr => ?_⟩
    · rw [hex.receivedBytes, hfourth]
    · rw [hex.receivedBytes, ← hdrop]; exact hex.res
    · have hmatch := hatt.confirmed hr
      rwa [pollTimer_of_multiple hm] at hmatch
    · obtain ⟨hoc, hseq, hall⟩ := hatt.goesOn hr (timerNever_of_wrapped hm hlt _)
      refine ⟨hoc, hcut ▸ hseq, hcut ▸ hall, ?_⟩
      rw [hatt.elapsed hr, pollTimer_of_multiple hm, hall, budget_round]
      exact hm.symm

/-- Settles O33: a sentinel is never confirmed, so the poll ends where its timer reaches TIMEOUT and hangs where it never
does. -/
theorem wrappedSentinelPollsHang : Obligations.WrappedSentinelPollsHang := by
  intro b d s hwrap hp hw hd g cut
  obtain ⟨t, first, v, init, r, hrun, hstart, hatt, -⟩ := outByte_attempts hp hw b d
  have hr : ¬ ConfirmedBy v r := by rw [hstart.confirmedBy]; exact not_confirms_sentinel hd r
  have hcut : pollBudget v = cut := by rw [pollBudget_eq, hstart.sckPeriod]
  refine ⟨t, hrun, fun hle => ?_, fun hlt n => ?_⟩
  · have hreach : TimerReaches b.wrap16 v := by rw [hwrap]; exact hstart.reaches_of_wrapped hle
    exact (hatt.timedOut hr (hatt.out_of_reaches hreach hr)).symm
  · have hnever : TimerNever b.wrap16 v := by rw [hwrap]; exact hstart.never_of_wrapped hlt
    rw [← hcut]
    exact hstart.hangs hatt hd hnever n

end Sys2Proof.Proofs
end

section
/-! SUPPORT. The setups of the poller (O12, O13, O14), the faults of OUT_BYTE (O22), what follows a read frame (O30), and the
poll timer by itself (O31). -/
namespace Sys2Proof.Proofs

open Sys2Proof.Machine Sys2Proof.Safety Sys2Proof.Laws

/-! The setups (R160 to R162). -/

theorem execPollBytes_powered {s : State} (h : powered s = true) (p1 p2 : Byte) :
    execPollBytes p1 p2 s = .next { s with
      poll1 := ⟨p1, true⟩, poll2 := ⟨p2, true⟩, reply := .setup .none, fresh := s.fresh + 1 } :=
  gatedSetup_powered h

/-- Settles O12: code 8 is POLL_BYTES, which loads both sentinels behind the gate. -/
theorem pollBytesSetsTheSentinels : Obligations.PollBytesSetsTheSentinels :=
  ⟨fun p d h => (decode_setup h d).trans (decodeCode_pollBytes _ p), fun p1 p2 _ =>
    ⟨fun hp => execPollBytes_powered hp p1 p2, fun hp => execPollBytes_unpowered hp p1 p2⟩⟩

/-- Settles O13: code 10 is FLASH_WRITE, a write setup with OPC_FLASH_WRITE behind the gate. -/
theorem flashWriteSetsAddressTimeoutOpcode : Obligations.FlashWriteSetsAddressTimeoutOpcode :=
  ⟨fun _ d h => decode_setup h d, fun addr timeout _ =>
    ⟨fun hp => writeSetup_powered hp Config.opcFlashWrite addr timeout,
      fun hp => writeSetup_unpowered hp Config.opcFlashWrite addr timeout⟩⟩

/-- Settles O14: code 12 is EEPROM_WRITE, a write setup with OPC_EEPROM_WRITE behind the gate. -/
theorem eepromWriteSetsAddressTimeoutOpcode : Obligations.EepromWriteSetsAddressTimeoutOpcode :=
  ⟨fun _ d h => decode_setup h d, fun addr timeout _ =>
    ⟨fun hp => writeSetup_powered hp Config.opcEepromWrite addr timeout,
      fun hp => writeSetup_unpowered hp Config.opcEepromWrite addr timeout⟩⟩

/-! OUT_BYTE's reads, in their order (R163). -/

/-- Settles O22: ADDRESS, OPCODE, TIMEOUT, POLL1 and POLL2 are read in this order. -/
theorem outByteFaultsOnFirstUnwritten : Obligations.OutByteFaultsOnFirstUnwritten := by
  intro d s hp
  have hrun : exec (.outByte d) s = outByte Config.build d s := rfl
  rw [hrun, outByte, if_pos hp]
  refine ⟨fun haddr => ?_, fun haddr hop => ?_, fun haddr hop hto => ?_, fun haddr hop hto hp1 => ?_,
    fun haddr hop hto hp1 hp2 => ?_⟩
  · rw [readReg_unwritten haddr]
  · rw [readReg_written haddr, readReg_unwritten hop]
  · rw [readReg_written haddr, readReg_written hop, readReg_unwritten hto]
  · rw [readReg_written haddr, readReg_written hop, readReg_written hto, readReg_unwritten hp1]
  · rw [readReg_written haddr, readReg_written hop, readReg_written hto, readReg_written hp1, readReg_unwritten hp2]

/-! The verdict on a read frame, and the timer (R165 to R167, R173). -/

/-- Settles O30: the comparator decides first, then the timer's sum. -/
theorem pollVerdictFollowsComparatorThenTimer : Obligations.PollVerdictFollowsComparatorThenTimer := by
  intro wrap16 k s
  refine ⟨fun hr => ?_, fun hr => ?_⟩
  · have hmatch : matchByte s s.res.b3.value = true := matchByte_eq_true.mpr hr
    rcases pollVerdict_cases wrap16 k s with ⟨-, hv⟩ | ⟨hmiss, -⟩ | ⟨hmiss, -⟩
    · exact hv
    · simp [hmatch] at hmiss
    · simp [hmatch] at hmiss
  · intro sum e
    have hmiss : matchByte s s.res.b3.value = false := matchByte_eq_false.mpr hr
    have he : advanceElapsed wrap16 s.elapsed (pollIncrement s) = e := rfl
    have hcases := pollVerdict_cases wrap16 k s
    rw [he] at hcases
    rcases hcases with ⟨hmatch, -⟩ | ⟨-, hlt, hv⟩ | ⟨-, hle, hv⟩
    · simp [hmiss] at hmatch
    · exact ⟨fun _ => hv, fun hle => absurd hlt (Nat.not_lt.mpr hle)⟩
    · exact ⟨fun hlt => absurd hlt (Nat.not_lt.mpr hle), fun _ => hv⟩

/-- The timer after `n` misses is `n` advances of it (R166). -/
theorem timerAfter_eq_iterate (wrap16 : Bool) (inc n e : Nat) :
    timerAfter wrap16 inc n e = (fun e => advanceElapsed wrap16 e inc)^[n] e := by
  induction n generalizing e with
  | zero => rfl
  | succ n ih => exact ih _

/-- Settles O31: the advances of the timer are its value after as many misses. -/
theorem timerHoldsMultiplesOfTheIncrement : Obligations.TimerHoldsMultiplesOfTheIncrement := by
  intro k inc
  rw [← timerAfter_eq_iterate, ← timerAfter_eq_iterate, timerAfter_exact,
    timerAfter_wrapped inc k 0 (by decide), Nat.zero_add]
  exact ⟨rfl, rfl⟩

end Sys2Proof.Proofs
end

section
/-! SUPPORT. POWERUP and POWERDOWN (O7, O8, O45), what each command does to LINE_OE (O36), and the quiet of an unpowered
machine, for one command (O37) and over a whole run (O38). -/
namespace Sys2Proof.Proofs

open Sys2Proof.Machine Sys2Proof.Safety Sys2Proof.Laws

/-! POWERUP (R180). -/

theorem powerupLevels_resetFlag (rst : Byte) :
    powerupLevels (resetFlag rst) = if rst = 0#8 then 0b0001#4 else 0b0011#4 := by
  by_cases h : rst = 0#8 <;> simp [powerupLevels, resetFlag, h]

/-- Settles O7: code 5 is POWERUP, which is not gated; RST follows the reset flag. -/
theorem powerupWritesPeriodAndLines : Obligations.PowerupWritesPeriodAndLines := by
  refine ⟨fun p d h => (decode_setup h d).trans (decodeCode_powerup _ p), fun sck rst s => ⟨_, rfl, rfl, ?_⟩⟩
  rw [← powerupLevels_resetFlag]
  rfl

/-! POWERDOWN (R181). -/

/-- LINE_OE is 0b0000 while unpowered (R32). -/
theorem powered_eq_false {s : State} : powered s = false ↔ s.lineOE = 0b0000#4 := by
  simp [powered]

/-- The release is one line event, or none where LINE_OE is 0b0000 already (R181; log entry 19). -/
theorem releaseLines_eq (s : State) : releaseLines s = { s with
    lineOE := 0b0000#4, lineOL := 0b0000#4,
    trace := if s.lineOE = 0b0000#4 then s.trace
      else .lines 0b0000#4 0b0000#4 :: .overhead (Config.overhead s.trace) :: s.trace } := by
  unfold releaseLines
  cases hp : powered s with
  | true =>
    have hoe : ¬ s.lineOE = 0b0000#4 := by simp [← powered_eq_false, hp]
    rw [if_pos rfl, if_neg hoe]
    rfl
  | false => rw [if_neg Bool.false_ne_true, if_pos (powered_eq_false.mp hp)]

/-- Settles O8: code 6 is POWERDOWN, which releases the lines and then clears every mark. -/
theorem powerdownReleasesAndUnmarks : Obligations.PowerdownReleasesAndUnmarks := by
  refine ⟨fun p d h => decode_setup h d, fun s => ⟨_, rfl, ?_⟩⟩
  rw [releaseLines_eq]
  exact ⟨rfl, rfl, rfl, rfl, rfl, rfl, rfl⟩

/-- Settles O45: POWERDOWN clears the mark of ADDRESS, which POWERUP does not set and a strobe reads first. -/
theorem powerCycleVoidsTheSetup : Obligations.PowerCycleVoidsTheSetup := by
  intro sck rst s
  obtain ⟨-, hpowerup⟩ := powerupWritesPeriodAndLines
  obtain ⟨-, hpowerdown⟩ := powerdownReleasesAndUnmarks
  obtain ⟨s1, hdown, -⟩ := hpowerdown s
  obtain ⟨s2, hup, hp, heq⟩ := hpowerup sck rst s1
  have haddr : s2.address.written = false := by
    rw [heq]
    exact addressMovesOnlyBySetupAndStrobe .powerdown s s1 hdown
  exact ⟨s1, s2, hdown, hup, (inByteFaultsOnUnwritten s2 hp).1 haddr,
    fun d => (outByteFaultsOnFirstUnwritten d s2 hp).1 haddr⟩

/-! LINE_OE after each command (R29, R182). -/

/-- LINE_OE when an instruction has completed in a state. -/
def lineOEAfter (i : Instr) (s : State) : BitVec 4 :=
  match i with
  | .powerup _ _ => 0b1111#4
  | .powerdown => 0b0000#4
  | _ => s.lineOE

/-- Unpowered, a gated SETUP command does nothing to LINE_OE, so its body decides (R101). -/
theorem gatedSetup_lineOE {body : State → State} {s t : State} (h : gatedSetup body s = .next t)
    (hbody : (body s).lineOE = s.lineOE) : t.lineOE = s.lineOE := by
  cases hp : powered s with
  | true =>
    rw [gatedSetup_powered hp] at h
    cases h
    exact hbody
  | false =>
    rw [gatedSetup_unpowered hp] at h
    cases h
    rfl

theorem rawFrame_lineOE (payload : List Byte) (s : State) : (rawFrame payload s).lineOE = s.lineOE := by
  obtain ⟨recv, t, hsent, hraw⟩ := rawFrame_sent payload s
  rw [hraw, respond_lineOE, hsent.only]

theorem inByte_lineOE {w : DoubleWidth} {s t : State} (h : inByte w s = .next t) : t.lineOE = s.lineOE := by
  cases hp : powered s with
  | true =>
    obtain ⟨hoe, -⟩ := leavesClockIdle_inByte hp h
    exact hoe
  | false =>
    rw [inByte_unpowered hp] at h
    cases h
    rfl

theorem outByte_lineOE {b : Build} {d : Byte} {s t : State} (h : outByte b d s = .next t) : t.lineOE = s.lineOE := by
  rw [outByte_onlyWrite h]

theorem readSetup_lineOE {op : Byte} {addr : Half} {s t : State} (h : readSetup op addr s = .next t) :
    t.lineOE = s.lineOE := gatedSetup_lineOE h rfl

theorem writeSetup_lineOE {op : Byte} {addr timeout : Half} {s t : State}
    (h : writeSetup op addr timeout s = .next t) : t.lineOE = s.lineOE := gatedSetup_lineOE h rfl

theorem execPollBytes_lineOE {p1 p2 : Byte} {s t : State} (h : execPollBytes p1 p2 s = .next t) :
    t.lineOE = s.lineOE := gatedSetup_lineOE h rfl

theorem execPowerdown_lineOE {s t : State} (h : execPowerdown s = .next t) : t.lineOE = 0b0000#4 := by
  cases h
  rw [respond_lineOE, clearMarks_lineOE, releaseLines_eq]

theorem exec_lineOE {i : Instr} {s t : State} (h : exec i s = .next t) : t.lineOE = lineOEAfter i s := by
  cases i with
  | powerup sck rst => cases h; rfl
  | powerdown => exact execPowerdown_lineOE h
  | spi d0 d1 d2 d3 => exact gatedSetup_lineOE h (rawFrame_lineOE _ s)
  | spi1 d0 => exact gatedSetup_lineOE h (rawFrame_lineOE _ s)
  | pollBytes p1 p2 => exact execPollBytes_lineOE h
  | flashRead addr => exact readSetup_lineOE h
  | eepromRead addr => exact readSetup_lineOE h
  | flashWrite addr timeout => exact writeSetup_lineOE h
  | eepromWrite addr timeout => exact writeSetup_lineOE h
  | inByte => exact inByte_lineOE h
  | outByte d => exact outByte_lineOE h
  | reserved => cases h
  | echo data => cases h; rfl
  | read => cases h; rfl
  | write v i => cases h; rfl
  | clr v i => cases h; rfl
  | set v i => cases h; rfl
  | ddrwrite v i => cases h; rfl
  | unknown0F => cases h; rfl
  | unknown10 _ => cases h; rfl
  | unknown20 _ => cases h; rfl
  | unknown40 _ => cases h; rfl
  | unknown80 _ => cases h; rfl

/-- Settles O36: POWERED is a function of LINE_OE, which each command leaves as said. -/
theorem onlyPowerCommandsMoveThePowerState : Obligations.OnlyPowerCommandsMoveThePowerState := by
  refine ⟨rfl, fun i s t h => ⟨exec_lineOE h, ?_⟩⟩
  unfold powered
  rw [exec_lineOE h]
  cases i <;> rfl

/-! One command of an unpowered machine (R101, R183). -/

/-- What a command of an unpowered machine leaves alone: the lines with their trace, SEQ and the queue. -/
structure StaysQuiet (s t : State) : Prop where
  quiet : Quiet s t
  seq : t.seq = s.seq
  pending : t.pending = s.pending

/-- Draws, requests to the logic outside and answers make no line event. -/
theorem staysQuiet_of_onlyInputs {s t : State}
    (h : t = { s with reply := t.reply, fresh := t.fresh, outside := t.outside }) : StaysQuiet s t := by
  rw [h]
  exact ⟨⟨rfl, rfl, rfl⟩, rfl, rfl⟩

/-- The instruction is neither POWERUP nor of the reserved kind. -/
def QuietInstr (i : Instr) : Prop := i ≠ .reserved ∧ ∀ sck rst, i ≠ .powerup sck rst

/-- Behind the gate a command only answers; POWERDOWN finds the lines released (R183). -/
theorem exec_unpowered {i : Instr} {s : State} (hi : QuietInstr i) (hp : powered s = false)
    (hol : s.lineOL = 0b0000#4) : ∃ t, exec i s = .next t ∧ StaysQuiet s t := by
  obtain ⟨hreserved, hpowerup⟩ := hi
  cases i with
  | reserved => exact absurd rfl hreserved
  | powerup sck rst => exact absurd rfl (hpowerup sck rst)
  | powerdown =>
    have hoe := powered_eq_false.mp hp
    refine ⟨_, rfl, ?_⟩
    rw [releaseLines_eq, if_pos hoe]
    exact ⟨⟨hoe.symm, hol.symm, rfl⟩, rfl, rfl⟩
  | spi d0 d1 d2 d3 => exact ⟨_, gatedSetup_unpowered hp, staysQuiet_of_onlyInputs rfl⟩
  | spi1 d0 => exact ⟨_, gatedSetup_unpowered hp, staysQuiet_of_onlyInputs rfl⟩
  | pollBytes p1 p2 => exact ⟨_, execPollBytes_unpowered hp p1 p2, staysQuiet_of_onlyInputs rfl⟩
  | flashRead addr => exact ⟨_, readSetup_unpowered hp _ addr, staysQuiet_of_onlyInputs rfl⟩
  | eepromRead addr => exact ⟨_, readSetup_unpowered hp _ addr, staysQuiet_of_onlyInputs rfl⟩
  | flashWrite addr timeout => exact ⟨_, writeSetup_unpowered hp _ addr timeout, staysQuiet_of_onlyInputs rfl⟩
  | eepromWrite addr timeout => exact ⟨_, writeSetup_unpowered hp _ addr timeout, staysQuiet_of_onlyInputs rfl⟩
  | inByte => exact ⟨_, inByte_unpowered hp _, staysQuiet_of_onlyInputs rfl⟩
  | outByte d => exact ⟨_, outByte_unpowered hp _ d, staysQuiet_of_onlyInputs rfl⟩
  | echo data => exact ⟨_, rfl, staysQuiet_of_onlyInputs rfl⟩
  | read => exact ⟨_, rfl, staysQuiet_of_onlyInputs rfl⟩
  | write v i => exact ⟨_, rfl, staysQuiet_of_onlyInputs rfl⟩
  | clr v i => exact ⟨_, rfl, staysQuiet_of_onlyInputs rfl⟩
  | set v i => exact ⟨_, rfl, staysQuiet_of_onlyInputs rfl⟩
  | ddrwrite v i => exact ⟨_, rfl, staysQuiet_of_onlyInputs rfl⟩
  | unknown0F => exact ⟨_, rfl, staysQuiet_of_onlyInputs rfl⟩
  | unknown10 _ => exact ⟨_, rfl, staysQuiet_of_onlyInputs rfl⟩
  | unknown20 _ => exact ⟨_, rfl, staysQuiet_of_onlyInputs rfl⟩
  | unknown40 _ => exact ⟨_, rfl, staysQuiet_of_onlyInputs rfl⟩
  | unknown80 _ => exact ⟨_, rfl, staysQuiet_of_onlyInputs rfl⟩

theorem powered_of_quiet {s t : State} (h : Quiet s t) : powered t = powered s := by
  obtain ⟨hoe, -⟩ := h
  exact powered_congr hoe

/-- Settles O37: a quiet command leaves LINE_OE, and with it the power state. -/
theorem unpoweredCommandsAreQuiet : Obligations.UnpoweredCommandsAreQuiet := by
  intro i s hp hol hpowerup hreserved
  obtain ⟨t, hrun, hstays⟩ := exec_unpowered ⟨hreserved, hpowerup⟩ hp hol
  exact ⟨t, hrun, hstays.quiet, (powered_of_quiet hstays.quiet).trans hp⟩

/-! A run of an unpowered machine (R110, R183). -/

theorem quiet_refl (s : State) : Quiet s s := ⟨rfl, rfl, rfl⟩

theorem quiet_trans {s t u : State} (h1 : Quiet s t) (h2 : Quiet t u) : Quiet s u := by
  obtain ⟨hoe, hol, htrace⟩ := h1
  obtain ⟨hoe', hol', htrace'⟩ := h2
  exact ⟨hoe'.trans hoe, hol'.trans hol, htrace'.trans htrace⟩

/-- An unpowered idle machine with the line levels released, and only quiet commands in its queue. -/
structure IdleUnpowered (s : State) : Prop where
  powered : powered s = false
  lineOL : s.lineOL = 0b0000#4
  seq : s.seq = .idle
  queue : ∀ c ∈ s.pending, QuietInstr (decode c)

/-- A step takes one command from the queue, if there is one, and leaves such a machine quietly such a machine. -/
theorem IdleUnpowered.step {s : State} (h : IdleUnpowered s) :
    ∃ v, step s = .next v ∧ Quiet s v ∧ v.pending = s.pending.drop 1 ∧ IdleUnpowered v := by
  cases hc : s.pending with
  | nil => exact ⟨s, step_waiting h.seq hc, quiet_refl s, hc, h⟩
  | cons c rest =>
    have hqueue := h.queue
    rw [hc] at hqueue
    obtain ⟨v, hrun, ⟨hquiet, hseq, hpending⟩⟩ :=
      exec_unpowered (s := { s with pending := rest }) (hqueue c List.mem_cons_self) h.powered h.lineOL
    have ⟨_, hol, _⟩ := hquiet
    refine ⟨v, (step_command h.seq hc).trans hrun, hquiet, hpending, ?_, hol.trans h.lineOL, hseq.trans h.seq, ?_⟩
    · exact (powered_of_quiet hquiet).trans h.powered
    · rw [hpending]
      exact fun x hx => hqueue x (.tail c hx)

/-- So it stays, however many steps it takes. -/
theorem IdleUnpowered.run {s : State} (h : IdleUnpowered s) (n : Nat) :
    ∃ t, Host.Core.run core n s = .next t ∧ Quiet s t ∧ t.pending = s.pending.drop n ∧ IdleUnpowered t := by
  induction n generalizing s with
  | zero => exact ⟨s, rfl, quiet_refl s, rfl, h⟩
  | succ n ih =>
    obtain ⟨v, hstep, hquiet, hpending, hv⟩ := h.step
    obtain ⟨t, hrun, hquiet', hpending', ht⟩ := ih hv
    refine ⟨t, (run_succ hstep n).trans hrun, quiet_trans hquiet hquiet', ?_, ht⟩
    rw [hpending', hpending, List.drop_drop, Nat.add_comm]

/-- Settles O38, by induction on the number of steps. -/
theorem idleSafetyOverRuns : Obligations.IdleSafetyOverRuns := by
  rintro _ s hp hol hseq rfl hqueue n
  obtain ⟨t, hrun, hquiet, hpending, ht⟩ := IdleUnpowered.run ⟨hp, hol, hseq, hqueue⟩ n
  exact ⟨t, hrun, hquiet, ht.powered, hpending⟩

end Sys2Proof.Proofs
end

section
/-! SUPPORT. The time the frames of the shifting commands take (O29), and the state after power-on reset (O1, O55). -/
namespace Sys2Proof.Proofs

open Sys2Proof.Machine Sys2Proof.Safety Sys2Proof.Laws

/-! The lower bounds of the frames (R229). -/

/-- From `s` to `t` at least `bits` bit cycles of SCK_PERIOD microseconds passed, and for any UNIT_NS twice SCK_PERIOD
calibration units a cycle (R123, R229). -/
def TakesBitCycles (bits : Nat) (s t : State) : Prop :=
  bits * s.sckPeriod.value.toNat * 1000 ≤ duration (eventsBetween s t) ∧
    ∀ unitNs, bits * (2 * s.sckPeriod.value.toNat) * unitNs ≤ durationAt unitNs (eventsBetween s t)

section
variable {s t : State}

/-- A half-period is SCK_PERIOD units, and two units of UNIT_NS are a microsecond (R5, R123). -/
theorem takesBitCycles_of_traffic {sent recv : List Byte} {bits : Nat} {events : List LineEvent}
    (h : Traffic s t sent recv (bits * (2 * halfPeriod s)) events) (hsck : 0 < s.sckPeriod.value.toNat) :
    TakesBitCycles bits s t := by
  obtain ⟨-, -, -, hunits, -⟩ := h.read
  have hhalf : halfPeriod s = s.sckPeriod.value.toNat := if_pos hsck
  rw [hhalf] at hunits
  refine ⟨le_of_eq_of_le ?_ (hunits Config.unitNs), hunits⟩
  rw [Config.unitNs]; ring

theorem takesBitCycles_gatedRawFrame {payload : List Byte} {bits : Nat} (hbits : 8 * payload.length = bits)
    (hp : powered s = true) (hsck : 0 < s.sckPeriod.value.toNat) (h : gatedSetup (rawFrame payload) s = .next t) :
    TakesBitCycles bits s t := by
  rw [gatedSetup_powered hp] at h
  cases h
  obtain ⟨recv, v, hsent, hraw⟩ := rawFrame_sent payload s
  rw [hraw, ← hbits]
  exact takesBitCycles_of_traffic (hsent.traffic.congr rfl rfl) hsck

/-- An encoded frame has four bytes, whichever byte 3 is (R140, R143). -/
theorem takesBitCycles_encodeTransfer (w : DoubleWidth) (k : Half) (op : Byte) (hsck : 0 < s.sckPeriod.value.toNat) :
    TakesBitCycles 32 s (encodeTransfer w k op s) := by
  obtain ⟨b3, s1, x0, x1, x2, x3, v, hfrom, hsent, heq⟩ := encodeTransfer_sent w k op s
  have hstart : s1.trace = s.trace ∧ s1.sckPeriod = s.sckPeriod := by
    rcases hfrom with ⟨_, _, rfl⟩ | ⟨_, rfl⟩
    · exact ⟨rfl, rfl⟩
    · exact ⟨rfl, rfl⟩
  obtain ⟨htrace, hperiod⟩ := hstart
  have hhalf : halfPeriod s1 = halfPeriod s := by rw [halfPeriod, halfPeriod, hperiod]
  have htraffic := hsent.traffic
  rw [hhalf] at htraffic
  rw [heq]
  exact takesBitCycles_of_traffic (htraffic.congr htrace.symm rfl) hsck

theorem takesBitCycles_inByte {w : DoubleWidth} (hp : powered s = true) (hsck : 0 < s.sckPeriod.value.toNat)
    (h : inByte w s = .next t) : TakesBitCycles 32 s t := by
  simp only [inByte, if_pos hp, readReg_eq_next] at h
  obtain ⟨_, _, ⟨⟩⟩ := h
  exact takesBitCycles_encodeTransfer w s.address.value s.opcode.value hsck

end

/-- Settles O29: eight bit cycles a byte, of the one byte of SPI1 and the four of SPI and of IN_BYTE's frame. -/
theorem framesTakeTheirNominalTime : Obligations.FramesTakeTheirNominalTime := by
  intro s t hp hsck
  exact ⟨fun _ h => takesBitCycles_gatedRawFrame rfl hp hsck h,
    fun _ _ _ _ h => takesBitCycles_gatedRawFrame rfl hp hsck h,
    fun h => takesBitCycles_inByte hp hsck h⟩

/-! Power-on reset (R220). -/

/-- A machine built with a strategy has that strategy's own state (R5, R34). -/
theorem strategyOf_initial (strategy : Strategy) : strategyOf (Shifter.initial strategy) = strategy := by
  cases strategy with
  | bitbang => rfl
  | hwshift => rfl

/-- Settles O1: the state as R220 gives it, with no command on the port to take. -/
theorem resetIsUnpoweredIdleUnwritten : Obligations.ResetIsUnpoweredIdleUnwritten :=
  ⟨rfl, rfl, rfl, rfl, rfl, rfl, step_waiting rfl rfl⟩

/-- Settles O55: the lines are released, so nothing is asked of a powered machine, and no register is written. -/
theorem invariantHoldsAtReset : Obligations.InvariantHoldsAtReset where
  lines := .inl ⟨rfl, rfl⟩
  seq := seqRest_of_idle rfl
  unpowered := fun _ => rfl
  powered := nofun
  opcode := nofun
  reply := trivial
  strategy := strategyOf_initial Config.strategy

end Sys2Proof.Proofs
end
